-- ==== Sys2Proof/Word.lean ====
section
/-!
DEFINITION. The word types of the WCS microcode engine (spec/00_scope.md R6, R8, R9).
-/

namespace Sys2Proof

/-- An instruction word: an unsigned 32-bit integer, bit 0 the least significant (R8, R70). -/
abbrev Word := BitVec 32

/-- A Sample: one value of the NUMERIC format, IEEE 754 binary64 (R7, R9), held as its 64-bit interchange encoding
(sign bit 63, exponent 62:52, fraction 51:0). Log 1. -/
abbrev Sample := BitVec 64

/-- The 3-bit register-write address, naming `x0` to `x7` (R6, R83). -/
abbrev RegIx := BitVec 3

/-- The 2-bit register-read address, naming `x0` to `x3` only (R6, R83). -/
abbrev SrcIx := BitVec 2

/-- The 4-bit coefficient-select code (R6). -/
abbrev CoefIx := BitVec 4

/-- The 5-bit control field (R6, R74). -/
abbrev Ctrl := BitVec 5

/-- The 16-bit raw delay offset, in original-hardware sample units (R6, R75). -/
abbrev Offset := BitVec 16

/-- The register a 2-bit read address names: the identity on the low registers (R83). -/
def SrcIx.toReg (r : SrcIx) : RegIx := r.setWidth 3

end Sys2Proof
end

