-- ==== Sys2Proof/Config.lean ====
section
/-!
DEFINITION. What a model instance fixes: the parameters of spec/00_scope.md R7 as plain data, and the free values
(constants without a body) for what the spec leaves to the NUMERIC format or does not state.
-/

namespace Sys2Proof

/-! ### The decoder's parameters -/

/-- BYTE2_LAYOUT: the lowest bit of each of the four fields inside the coefficient byte (bit 0 of the byte is word bit
16), R73. A field occupies consecutive bits (log 13). -/
structure Byte2Layout where
  coefLo : Fin 8
  accLo : Fin 8
  raddrLo : Fin 8
  rsrcLo : Fin 8
deriving DecidableEq, Repr

/-- The parameters the decoder reads (R7, R74). -/
structure DecodeParams where
  layout : Byte2Layout
  weBit : Fin 5
  nopSentinel : Ctrl
  routingSentinels : List Ctrl
deriving DecidableEq, Repr

/-! ### The engine's parameters -/

/-- CAPTURE_MODE: which register a capture reads (R168). -/
inductive CaptureMode where
  /-- the write address of the output step -/
  | stepWaddr
  /-- a fixed register -/
  | fixed (r : RegIx)
deriving DecidableEq, Repr

/-- The output-step indices of one program (R166). -/
structure OutSteps where
  left : Fin 128
  right : Fin 128
deriving DecidableEq, Repr

/-- The parameters of R7, each named as there. -/
structure Params where
  decode : DecodeParams
  margin : Nat
  regClamp : Sample
  prodClamp : Sample
  softT : Sample
  softC : Sample
  longThreshold : Offset
  lfoRateHz : Sample
  lfoDepth : Sample
  inputReg : RegIx
  captureMode : CaptureMode
  /-- OUT_STEPS: `none` where the model has no entry for a program (R166: the fallback then applies). -/
  outSteps : Vector (Option OutSteps) 6
  dcR : Sample
  sweepF1 : Sample
  /-- SWEEP_F2: `none` for the default, 0.45 × fs. -/
  sweepF2 : Option Sample
  /-- PROGRAMS: 6 programs of 128 words (R36). -/
  programs : Vector (Vector Word 128) 6
deriving DecidableEq, Repr

/-! ### The configuration of one engine -/

/-- What `Construct` fixes (10_state.md R34). `D`, the decoded program, is the decode of `program` (log 15). -/
structure EngineConfig where
  programIndex : Fin 6
  fs : Sample
  /-- SCALE (R26). -/
  scale : Sample
  /-- N, the size of the delay memory (R26). -/
  n : Nat
  /-- P, the program store (R35). -/
  program : Vector Word 128
  /-- OUT_STEP_L and OUT_STEP_R (R166). -/
  outSteps : OutSteps
deriving DecidableEq, Repr

/-! ### Free values

None of these has a body, so no proof can see a value of one; a statement about them holds whatever they are. -/

/-- The operation that yields a NaN. -/
inductive NanOp where
  | add | sub | mul | div
deriving DecidableEq, Repr

/-- The sign bit (bit 51) and the payload (bits 50:0) of the NaN that an operation yields: R9 does not say which NaN.
DESIGN CHOICE, log 2. Safe. -/
opaque Config.nanBits : NanOp → Sample → Sample → BitVec 52

/-- `sgn(v)` of a NaN: R9 gives only `v > 0`, `v < 0` and `v = 0`. DESIGN CHOICE, log 27. Safe. -/
opaque Config.sgnNaN : Sample → Sample

/-- `clamp(v, L)` where `v` or `L` is a NaN: R9's `min` and `max` state nothing there. DESIGN CHOICE, log 3. Safe. -/
opaque Config.clampNaN : Sample → Sample → Sample

/-- `SoftLimit(v)` where neither `|v| <= SOFT_T` nor `|v| > SOFT_T` holds (a NaN): R106 states nothing there.
DESIGN CHOICE, log 4. Safe. -/
opaque Config.softLimitNaN : Sample → Sample

/-- `round_half_even(r)` of an infinity or a NaN: R9 defines it on reals. DESIGN CHOICE, log 5. Safe. -/
opaque Config.roundNonFinite : Sample → Int

/-- The NUMERIC format's `sin` (R9, I7). DESIGN CHOICE, log 6. Safe. -/
opaque Config.sin : Sample → Sample

/-- The NUMERIC format's `exp` (R9, I7). DESIGN CHOICE, log 6. Safe. -/
opaque Config.exp : Sample → Sample

/-- The NUMERIC format's `tanh` (R9, I7). DESIGN CHOICE, log 6. Safe. -/
opaque Config.tanh : Sample → Sample

/-- The NUMERIC format's `ln` (R9, I7). DESIGN CHOICE, log 6. Safe. -/
opaque Config.ln : Sample → Sample

end Sys2Proof
end

