-- ==== Sys2Proof/Syntax.lean ====
section
/-!
DEFINITION. The instructions of spec/opcode_table.json: one constructor per row (30_encoding.md R84, R85).
-/

namespace Sys2Proof

/-- A decoded microinstruction. Every field of the word is kept, the ones without effect too (R80, I1), so that encoding
loses no bit. `ctrl` is the control field, `w` the write address, `r` the read address, `k` the coefficient-select code,
`off` the raw offset. A memory-source class ignores `r` (R120); a row of form "sentinel" has the control field
NOP_SENTINEL and so carries none. -/
inductive Instr where
  /-- NOP (R140). -/
  | nop (off : Offset)
  /-- SKIP (R141). -/
  | skip (ctrl : Ctrl) (w : RegIx) (off : Offset)
  /-- WRT, write tap (R143). -/
  | wrt (ctrl : Ctrl) (w : RegIx) (off : Offset)
  /-- RDT, read tap (R142). -/
  | rdt (ctrl : Ctrl) (w : RegIx) (off : Offset)
  /-- MUL.M, form we0 (R120). -/
  | mulM (ctrl : Ctrl) (w : RegIx) (r : SrcIx) (k : CoefIx) (off : Offset)
  /-- MUL.M, form sentinel (R120). -/
  | mulMSentinel (w : RegIx) (r : SrcIx) (k : CoefIx) (off : Offset)
  /-- MULW.M (R121). -/
  | mulwM (ctrl : Ctrl) (w : RegIx) (r : SrcIx) (k : CoefIx) (off : Offset)
  /-- MAC.M, form we0 (R122). -/
  | macM (ctrl : Ctrl) (w : RegIx) (r : SrcIx) (k : CoefIx) (off : Offset)
  /-- MAC.M, form sentinel (R122). -/
  | macMSentinel (w : RegIx) (r : SrcIx) (k : CoefIx) (off : Offset)
  /-- MACW.M (R123). -/
  | macwM (ctrl : Ctrl) (w : RegIx) (r : SrcIx) (k : CoefIx) (off : Offset)
  /-- MUL.R, form we0 (R124). -/
  | mulR (ctrl : Ctrl) (w : RegIx) (r : SrcIx) (k : CoefIx) (off : Offset)
  /-- MUL.R, form sentinel (R124). -/
  | mulRSentinel (w : RegIx) (r : SrcIx) (k : CoefIx) (off : Offset)
  /-- MULW.R (R125). -/
  | mulwR (ctrl : Ctrl) (w : RegIx) (r : SrcIx) (k : CoefIx) (off : Offset)
  /-- MAC.R, form we0 (R126). -/
  | macR (ctrl : Ctrl) (w : RegIx) (r : SrcIx) (k : CoefIx) (off : Offset)
  /-- MAC.R, form sentinel (R126). -/
  | macRSentinel (w : RegIx) (r : SrcIx) (k : CoefIx) (off : Offset)
  /-- MACW.R (R127). -/
  | macwR (ctrl : Ctrl) (w : RegIx) (r : SrcIx) (k : CoefIx) (off : Offset)
deriving DecidableEq, Repr

end Sys2Proof
end

