-- ==== Sys2Proof/WellFormed.lean ====
section
/-!
DEFINITION. Which layouts and which instructions are well-formed: the class conditions of spec/30_encoding.md R84 and R85
and the one unencodable combination of R86.
-/

namespace Sys2Proof

/-- The four fields fill the coefficient byte: 4 + 1 + 2 + 1 = 8 bits that together cover it, so they are disjoint (R73). -/
def Byte2Layout.valid (l : Byte2Layout) : Bool :=
  (15#8 <<< l.coefLo.val) ||| (1#8 <<< l.accLo.val) ||| (3#8 <<< l.raddrLo.val) ||| (1#8 <<< l.rsrcLo.val) == 255#8

/-- `ctrl[WE_BIT]`, the write-enable bit (R74). -/
def DecodeParams.we (q : DecodeParams) (ctrl : Ctrl) : Bool := ctrl.getLsbD q.weBit.val

/-- The control field enables a memory write: write-enable is set and it is not the no-op sentinel (R74, R76). -/
def DecodeParams.writes (q : DecodeParams) (ctrl : Ctrl) : Bool := q.we ctrl && ctrl != q.nopSentinel

/-- The control field suppresses the read tap (R74). -/
def DecodeParams.routes (q : DecodeParams) (ctrl : Ctrl) : Bool := q.routingSentinels.contains ctrl

/-- The control byte is 0xFF (R78). -/
def controlAllOnes (ctrl : Ctrl) (w : RegIx) : Bool := ctrl == 31#5 && w == 7#3

/-- The instruction is one the encoding admits: its control field belongs to its row, and a register-source accumulate is
not the combination of R86. -/
def Instr.wellFormed (q : DecodeParams) : Instr → Bool
  | .nop _ => true
  | .skip ctrl w _ => !controlAllOnes ctrl w && !q.writes ctrl && q.routes ctrl
  | .wrt ctrl w _ => !controlAllOnes ctrl w && q.writes ctrl
  | .rdt ctrl w _ => !controlAllOnes ctrl w && !q.writes ctrl && !q.routes ctrl
  | .mulM ctrl _ _ _ _ => !q.we ctrl
  | .mulMSentinel _ _ _ _ => q.we q.nopSentinel
  | .mulwM ctrl _ _ _ _ => q.writes ctrl
  | .macM ctrl _ _ _ _ => !q.we ctrl
  | .macMSentinel _ _ _ _ => q.we q.nopSentinel
  | .macwM ctrl _ _ _ _ => q.writes ctrl
  | .mulR ctrl _ _ _ _ => !q.we ctrl
  | .mulRSentinel _ _ _ _ => q.we q.nopSentinel
  | .mulwR ctrl _ _ _ _ => q.writes ctrl
  | .macR ctrl _ r k _ => !q.we ctrl && !(r == 3#2 && k == 15#4)
  | .macRSentinel _ r k _ => q.we q.nopSentinel && !(r == 3#2 && k == 15#4)
  | .macwR ctrl _ r k _ => q.writes ctrl && !(r == 3#2 && k == 15#4)

end Sys2Proof
end

