-- ==== Sys2Proof/Decode.lean ====
section
/-!
DEFINITION. The decoder of spec/30_encoding.md R70 to R88, total on every word, and the encoder written from the same
field table.
-/

namespace Sys2Proof

/-! ### Default parameters -/

/-- R73: coef 19:16, acc 20, raddr 22:21, rsrc 23. -/
def Byte2Layout.default : Byte2Layout := { coefLo := 0, accLo := 4, raddrLo := 5, rsrcLo := 7 }

/-- R7, R74: WE_BIT = 0, NOP_SENTINEL = 0b11111, ROUTING_SENTINELS = the set of 0b11111 alone. -/
def DecodeParams.default : DecodeParams :=
  { layout := Byte2Layout.default, weBit := 0, nopSentinel := 31#5, routingSentinels := [31#5] }

/-! ### Fields of a word (R71, R72, R73, R75) -/

/-- `b3 = w[31:24]`, the control byte. -/
def Word.controlByte (w : Word) : BitVec 8 := w.extractLsb' 24 8

/-- `b2 = w[23:16]`, the coefficient byte. -/
def Word.coefByte (w : Word) : BitVec 8 := w.extractLsb' 16 8

/-- `ctrl = w[31:27]`. -/
def Word.ctrl (w : Word) : Ctrl := w.extractLsb' 27 5

/-- `waddr = w[26:24]`. -/
def Word.waddr (w : Word) : RegIx := w.extractLsb' 24 3

/-- `offset = w[15:0]`, unsigned. -/
def Word.offset (w : Word) : Offset := w.extractLsb' 0 16

/-- `coef`, at its place in the coefficient byte. -/
def Byte2Layout.coefOf (l : Byte2Layout) (b : BitVec 8) : CoefIx := b.extractLsb' l.coefLo.val 4

/-- `acc`. -/
def Byte2Layout.accOf (l : Byte2Layout) (b : BitVec 8) : Bool := b.getLsbD l.accLo.val

/-- `raddr`. -/
def Byte2Layout.raddrOf (l : Byte2Layout) (b : BitVec 8) : SrcIx := b.extractLsb' l.raddrLo.val 2

/-- `rsrc`. -/
def Byte2Layout.rsrcOf (l : Byte2Layout) (b : BitVec 8) : Bool := b.getLsbD l.rsrcLo.val

/-! ### Decode(w) -/

/-- The source's DecodedStep (R76). `rsrc` is true for a register source (R81), `acc` for accumulate (R82). -/
structure DecodedStep where
  offset : Offset
  waddr : RegIx
  ctrl : Ctrl
  coef : CoefIx
  acc : Bool
  raddr : SrcIx
  rsrc : Bool
  hasCoefficient : Bool
  isNop : Bool
  we : Bool
  memWrite : Bool
  readTap : Bool
deriving DecidableEq, Repr

/-- `Decode(w)`, R76, with hasCoefficient by R77 and isNop by R78. -/
def decodeStep (q : DecodeParams) (w : Word) : DecodedStep :=
  let b3 := w.controlByte
  let b2 := w.coefByte
  let ctrl := w.ctrl
  let hasCoefficient := b2 != 255#8
  let isNop := b3 == 255#8 && b2 == 255#8
  let we := q.we ctrl
  let memWrite := !isNop && we && ctrl != q.nopSentinel
  { offset := w.offset
    waddr := w.waddr
    ctrl := ctrl
    coef := q.layout.coefOf b2
    acc := q.layout.accOf b2
    raddr := q.layout.raddrOf b2
    rsrc := q.layout.rsrcOf b2
    hasCoefficient := hasCoefficient
    isNop := isNop
    we := we
    memWrite := memWrite
    readTap := !isNop && !memWrite && !hasCoefficient && !q.routes ctrl }

/-! ### Classes (R84) -/

/-- The 12 instruction classes of R84. -/
inductive StepClass where
  | nop | skip | rdt | wrt | mulM | mulwM | macM | macwM | mulR | mulwR | macR | macwR
deriving DecidableEq, Repr

/-- The class of a decoded step, by the conditions of R84. -/
def DecodedStep.classOf (d : DecodedStep) : StepClass :=
  if d.isNop then .nop
  else if !d.hasCoefficient then
    if d.memWrite then .wrt else if d.readTap then .rdt else .skip
  else
    match d.rsrc, d.acc, d.memWrite with
    | false, false, false => .mulM
    | false, false, true => .mulwM
    | false, true, false => .macM
    | false, true, true => .macwM
    | true, false, false => .mulR
    | true, false, true => .mulwR
    | true, true, false => .macR
    | true, true, true => .macwR

/-- The row of R85 a decoded step belongs to, with its fields: a class that writes no memory is of form "sentinel" where
write-enable is set and of form "we0" where it is not. -/
def DecodedStep.toInstr (d : DecodedStep) : Instr :=
  match d.classOf with
  | .nop => .nop d.offset
  | .skip => .skip d.ctrl d.waddr d.offset
  | .rdt => .rdt d.ctrl d.waddr d.offset
  | .wrt => .wrt d.ctrl d.waddr d.offset
  | .mulM =>
    if d.we then .mulMSentinel d.waddr d.raddr d.coef d.offset
    else .mulM d.ctrl d.waddr d.raddr d.coef d.offset
  | .mulwM => .mulwM d.ctrl d.waddr d.raddr d.coef d.offset
  | .macM =>
    if d.we then .macMSentinel d.waddr d.raddr d.coef d.offset
    else .macM d.ctrl d.waddr d.raddr d.coef d.offset
  | .macwM => .macwM d.ctrl d.waddr d.raddr d.coef d.offset
  | .mulR =>
    if d.we then .mulRSentinel d.waddr d.raddr d.coef d.offset
    else .mulR d.ctrl d.waddr d.raddr d.coef d.offset
  | .mulwR => .mulwR d.ctrl d.waddr d.raddr d.coef d.offset
  | .macR =>
    if d.we then .macRSentinel d.waddr d.raddr d.coef d.offset
    else .macR d.ctrl d.waddr d.raddr d.coef d.offset
  | .macwR => .macwR d.ctrl d.waddr d.raddr d.coef d.offset

/-- The decoder: every word is an instruction (R79, R87). -/
def decode (q : DecodeParams) (w : Word) : Instr := (decodeStep q w).toInstr

/-- Why a number is no instruction word. Only a number of more than 32 bits is none (R70, R87). -/
inductive DecodeError where
  /-- The number is 2^32 or more: it is no unsigned 32-bit word (R70). Safe. -/
  | notAWord
deriving DecidableEq, Repr

/-- The decoder on any number: rejects by name what is no 32-bit word (R70, R79). -/
def decodeNat (q : DecodeParams) (w : Nat) : Except DecodeError Instr :=
  if w < 2 ^ 32 then .ok (decode q (BitVec.ofNat 32 w)) else .error .notAWord

/-- The instruction the decoder reads from the table's word `w` of `nbits` bits, with the default parameters, which are
those of the table (R85). Words have no byte order here (20_memory.md R56). -/
def decodeTableWord (nbits w : Nat) : Option Instr :=
  match decodeNat DecodeParams.default (w % 2 ^ nbits) with
  | .ok i => some i
  | .error _ => none

/-! ### Encoder -/

/-- The coefficient byte from its four fields (R73). -/
def Byte2Layout.pack (l : Byte2Layout) (k : CoefIx) (acc : Bool) (r : SrcIx) (rsrc : Bool) : BitVec 8 :=
  (k.setWidth 8 <<< l.coefLo.val) ||| ((BitVec.ofBool acc).setWidth 8 <<< l.accLo.val)
    ||| (r.setWidth 8 <<< l.raddrLo.val) ||| ((BitVec.ofBool rsrc).setWidth 8 <<< l.rsrcLo.val)

/-- The word of the four groups of R71 and R72. -/
def joinWord (ctrl : Ctrl) (w : RegIx) (b2 : BitVec 8) (off : Offset) : Word :=
  BitVec.ofNat 32 (ctrl.toNat * 2 ^ 27 + w.toNat * 2 ^ 24 + b2.toNat * 2 ^ 16 + off.toNat)

/-- The word of an instruction (R85, R91): a class without coefficient has the coefficient byte 0xFF, a NOP the control
byte 0xFF too, a sentinel form the control field NOP_SENTINEL. -/
def encode (q : DecodeParams) : Instr → Word
  | .nop off => joinWord 31#5 7#3 255#8 off
  | .skip ctrl w off => joinWord ctrl w 255#8 off
  | .wrt ctrl w off => joinWord ctrl w 255#8 off
  | .rdt ctrl w off => joinWord ctrl w 255#8 off
  | .mulM ctrl w r k off => joinWord ctrl w (q.layout.pack k false r false) off
  | .mulMSentinel w r k off => joinWord q.nopSentinel w (q.layout.pack k false r false) off
  | .mulwM ctrl w r k off => joinWord ctrl w (q.layout.pack k false r false) off
  | .macM ctrl w r k off => joinWord ctrl w (q.layout.pack k true r false) off
  | .macMSentinel w r k off => joinWord q.nopSentinel w (q.layout.pack k true r false) off
  | .macwM ctrl w r k off => joinWord ctrl w (q.layout.pack k true r false) off
  | .mulR ctrl w r k off => joinWord ctrl w (q.layout.pack k false r true) off
  | .mulRSentinel w r k off => joinWord q.nopSentinel w (q.layout.pack k false r true) off
  | .mulwR ctrl w r k off => joinWord ctrl w (q.layout.pack k false r true) off
  | .macR ctrl w r k off => joinWord ctrl w (q.layout.pack k true r true) off
  | .macRSentinel w r k off => joinWord q.nopSentinel w (q.layout.pack k true r true) off
  | .macwR ctrl w r k off => joinWord ctrl w (q.layout.pack k true r true) off

/-! ### The table of R85 -/

/-- A row of R85: a word matches it when its masked bits are `bits` and no exclusion (mask, bits) matches. `sentinel` is the
row's form. -/
structure TableRow where
  cls : StepClass
  sentinel : Bool
  mask : Word
  bits : Word
  exclude : List (Word × Word)
deriving DecidableEq, Repr

/-- The word matches the row (R85). -/
def TableRow.hits (row : TableRow) (w : Word) : Bool :=
  w &&& row.mask == row.bits && row.exclude.all (fun e => w &&& e.1 != e.2)

/-- The 16 rows of R85. -/
def tableRows : List TableRow :=
  [ ⟨.nop, false, 0xFFFF0000#32, 0xFFFF0000#32, []⟩,
    ⟨.skip, false, 0xF8FF0000#32, 0xF8FF0000#32, [(0xFFFF0000#32, 0xFFFF0000#32)]⟩,
    ⟨.wrt, false, 0x08FF0000#32, 0x08FF0000#32, [(0xF8000000#32, 0xF8000000#32)]⟩,
    ⟨.rdt, false, 0x08FF0000#32, 0x00FF0000#32, []⟩,
    ⟨.mulM, false, 0x08900000#32, 0x00000000#32, []⟩,
    ⟨.mulM, true, 0xF8900000#32, 0xF8000000#32, []⟩,
    ⟨.mulwM, false, 0x08900000#32, 0x08000000#32, [(0xF8000000#32, 0xF8000000#32)]⟩,
    ⟨.macM, false, 0x08900000#32, 0x00100000#32, []⟩,
    ⟨.macM, true, 0xF8900000#32, 0xF8100000#32, []⟩,
    ⟨.macwM, false, 0x08900000#32, 0x08100000#32, [(0xF8000000#32, 0xF8000000#32)]⟩,
    ⟨.mulR, false, 0x08900000#32, 0x00800000#32, []⟩,
    ⟨.mulR, true, 0xF8900000#32, 0xF8800000#32, []⟩,
    ⟨.mulwR, false, 0x08900000#32, 0x08800000#32, [(0xF8000000#32, 0xF8000000#32)]⟩,
    ⟨.macR, false, 0x08900000#32, 0x00900000#32, [(0x00FF0000#32, 0x00FF0000#32)]⟩,
    ⟨.macR, true, 0xF8900000#32, 0xF8900000#32, [(0x00FF0000#32, 0x00FF0000#32)]⟩,
    ⟨.macwR, false, 0x08900000#32, 0x08900000#32, [(0xF8000000#32, 0xF8000000#32), (0x00FF0000#32, 0x00FF0000#32)]⟩ ]

/-- The class and the form of an instruction. -/
def Instr.row : Instr → StepClass × Bool
  | .nop _ => (.nop, false)
  | .skip _ _ _ => (.skip, false)
  | .wrt _ _ _ => (.wrt, false)
  | .rdt _ _ _ => (.rdt, false)
  | .mulM _ _ _ _ _ => (.mulM, false)
  | .mulMSentinel _ _ _ _ => (.mulM, true)
  | .mulwM _ _ _ _ _ => (.mulwM, false)
  | .macM _ _ _ _ _ => (.macM, false)
  | .macMSentinel _ _ _ _ => (.macM, true)
  | .macwM _ _ _ _ _ => (.macwM, false)
  | .mulR _ _ _ _ _ => (.mulR, false)
  | .mulRSentinel _ _ _ _ => (.mulR, true)
  | .mulwR _ _ _ _ _ => (.mulwR, false)
  | .macR _ _ _ _ _ => (.macR, false)
  | .macRSentinel _ _ _ _ => (.macR, true)
  | .macwR _ _ _ _ _ => (.macwR, false)

end Sys2Proof
end

