-- ==== Sys2Proof/Machine/Numeric.lean ====
section
/-!
DEFINITION. The NUMERIC format: IEEE 754 binary64, round to nearest, ties to even, one rounding per operation and no fused
multiply-add (spec/00_scope.md R9). Each operation converts to integers, computes exactly and rounds once at the end. The
integers count units of 2^-1074, the smallest positive binary64 value. The operations are marked irreducible so that comparing
two states does not start computing with them; the kernel evaluates them all the same.
-/

namespace Sys2Proof.Machine

/-! ### Reading an encoding -/

/-- The magnitude bits 62:0; binary64 orders magnitudes as these integers. -/
def mag (v : Sample) : Nat := v.toNat % 2 ^ 63

/-- The magnitude bits of infinity: exponent field 2047, fraction 0. -/
def infMag : Nat := 2047 * 2 ^ 52

/-- The sign bit. -/
def isNeg (v : Sample) : Bool := v.msb

def isNaN (v : Sample) : Bool := decide (infMag < mag v)

def isInf (v : Sample) : Bool := mag v == infMag

/-- "Finite": neither an infinity nor a NaN. -/
def isFinite (v : Sample) : Bool := decide (mag v < infMag)

/-- +0.0 or -0.0. -/
def isZero (v : Sample) : Bool := mag v == 0

/-- The magnitude of a finite value in units of 2^-1074: the fraction, with the implicit bit, times its exponent's scale. -/
def magUnits (m : Nat) : Nat :=
  if m / 2 ^ 52 = 0 then m % 2 ^ 52 else (2 ^ 52 + m % 2 ^ 52) * 2 ^ (m / 2 ^ 52 - 1)

/-- A finite value in units of 2^-1074. -/
def units (v : Sample) : Int := if isNeg v then -(magUnits (mag v) : Int) else magUnits (mag v)

/-- 1.0 in units of 2^-1074. -/
def oneUnits : Nat := 2 ^ 1074

/-! ### Writing an encoding -/

/-- The value of sign `neg` and magnitude bits `m`. -/
def ofMag (neg : Bool) (m : Nat) : Sample := BitVec.ofNat 64 (if neg then 2 ^ 63 + m else m)

/-- The integer nearest to `a / b`, a tie going to the even neighbour (R9). -/
def roundDiv (a b : Nat) : Nat :=
  if 2 * (a % b) < b then a / b
  else if b < 2 * (a % b) then a / b + 1
  else a / b + a / b % 2

/-- How many low bits a magnitude of `q` whole units loses when it is kept to 53 significant bits. -/
def dropBits (q : Nat) : Nat := q.log2 - 52

/-- The magnitude bits of the binary64 value nearest to `a / b` units, ties to even, infinity on overflow. -/
def roundMag (a b : Nat) : Nat :=
  min (dropBits (a / b) * 2 ^ 52 + roundDiv a (b * 2 ^ dropBits (a / b))) infMag

/-- The NaN of an invalid operation or of a NaN operand: quiet, its sign and payload free (log 2). -/
def nanOf (op : NanOp) (a b : Sample) : Sample :=
  let p := Config.nanBits op a b
  p.extractLsb' 51 1 ++ 4095#12 ++ p.extractLsb' 0 51

/-! ### Arithmetic (R9) -/

/-- `-v`: the sign bit flipped. -/
def fneg (v : Sample) : Sample := ofMag (!isNeg v) (mag v)

/-- `|v|`. -/
def fabs (v : Sample) : Sample := ofMag false (mag v)

/-- `a + b`. An exact zero sum is +0.0, but -0.0 for two operands of negative sign. -/
@[irreducible] def fadd (a b : Sample) : Sample :=
  if isNaN a || isNaN b then nanOf .add a b
  else if isInf a then (if isInf b && isNeg a != isNeg b then nanOf .add a b else a)
  else if isInf b then b
  else
    let t := units a + units b
    if t = 0 then ofMag (isNeg a && isNeg b) 0 else ofMag (decide (t < 0)) (roundMag t.natAbs 1)

/-- `a - b`: the sum of `a` and `-b`, but the NaN of a subtraction is its own free value (log 2). -/
def fsub (a b : Sample) : Sample :=
  if isNaN (fadd a (fneg b)) then nanOf .sub a b else fadd a (fneg b)

/-- `a × b`. -/
@[irreducible] def fmul (a b : Sample) : Sample :=
  if isNaN a || isNaN b then nanOf .mul a b
  else if isInf a || isInf b then
    if isZero a || isZero b then nanOf .mul a b else ofMag (isNeg a != isNeg b) infMag
  else ofMag (isNeg a != isNeg b) (roundMag (magUnits (mag a) * magUnits (mag b)) oneUnits)

/-- `a / b`. -/
@[irreducible] def fdiv (a b : Sample) : Sample :=
  if isNaN a || isNaN b then nanOf .div a b
  else if isInf a then (if isInf b then nanOf .div a b else ofMag (isNeg a != isNeg b) infMag)
  else if isInf b then ofMag (isNeg a != isNeg b) 0
  else if isZero b then (if isZero a then nanOf .div a b else ofMag (isNeg a != isNeg b) infMag)
  else ofMag (isNeg a != isNeg b) (roundMag (magUnits (mag a) * oneUnits) (magUnits (mag b)))

/-! ### Comparison: a NaN compares false with everything, +0.0 and -0.0 compare equal -/

/-- The order of the values that are no NaN. -/
def ordKey (v : Sample) : Int := if isNeg v then -(mag v : Int) else mag v

/-- `a < b`. -/
def flt (a b : Sample) : Bool := !isNaN a && !isNaN b && decide (ordKey a < ordKey b)

/-- `a <= b`. -/
def fle (a b : Sample) : Bool := !isNaN a && !isNaN b && decide (ordKey a ≤ ordKey b)

/-- `a == b`. -/
def feq (a b : Sample) : Bool := !isNaN a && !isNaN b && decide (ordKey a = ordKey b)

/-- `max(a, b)` of two numbers. -/
def fmax (a b : Sample) : Sample := if flt a b then b else a

/-- `min(a, b)` of two numbers. -/
def fmin (a b : Sample) : Sample := if flt b a then b else a

/-- `clamp(v, L)` is `min(max(v, -L), L)` (R9); of a NaN it is a free value (log 3). -/
def clamp (v l : Sample) : Sample :=
  if isNaN v || isNaN l then Config.clampNaN v l else fmin (fmax v (fneg l)) l

/-! ### Conversions and constants -/

/-- `round_half_even(v)` (R9); of an infinity or a NaN it is a free value (log 5). -/
@[irreducible] def roundHalfEven (v : Sample) : Int :=
  if isFinite v then
    (if isNeg v then -(roundDiv (magUnits (mag v)) oneUnits : Int) else roundDiv (magUnits (mag v)) oneUnits)
  else Config.roundNonFinite v

/-- The binary64 value nearest to `a / b`. -/
@[irreducible] def ofRatio (a b : Nat) : Sample := ofMag false (roundMag (a * oneUnits) b)

/-- The binary64 value nearest to the integer `a`: an integer that enters binary64 arithmetic is rounded first, which changes it
only above 2^53. DESIGN CHOICE, log 29. -/
def ofNat (a : Nat) : Sample := ofRatio a 1

def fzero : Sample := ofMag false 0

def fone : Sample := ofNat 1

/-- The binary64 value nearest to 2π (R170): 2π to 30 decimals, rounded once. -/
def twoPi : Sample := ofRatio 6283185307179586476925286766559 (10 ^ 30)

/-- `sgn(v)` (R9); of a NaN it is a free value (DESIGN CHOICE, log 27). -/
def sgn (v : Sample) : Sample :=
  if isNaN v then Config.sgnNaN v
  else if flt fzero v then fone else if flt v fzero then fneg fone else fzero

/-! ### Transcendental functions (R9, I7)

Free values of Config, kept within the range of the function they stand for (log 6). -/

/-- A value of magnitude at most 1.0 with the sign of `v`: `v` itself where it already is one. -/
def unitBound (neg : Bool) (v : Sample) : Sample := ofMag neg (min (mag v) (mag fone))

/-- `sin(v)`, in [-1, 1] for a finite `v` (R29), and `sin(0.0) = 0.0` (R182). -/
def fsin (v : Sample) : Sample :=
  if isFinite v then
    if isZero v then v else unitBound (isNeg (Config.sin v)) (Config.sin v)
  else Config.sin v

/-- `tanh(v)`: odd in sign, of magnitude at most 1 (R106). -/
def ftanh (v : Sample) : Sample :=
  if isNaN v then Config.tanh v else if isZero v then v else unitBound (isNeg v) (Config.tanh v)

/-- `exp(v)`: never negative and no NaN, at most 1 for a negative `v`, and 1 at 0. -/
def fexp (v : Sample) : Sample :=
  if isNaN v then Config.exp v
  else if isZero v then fone
  else if isNeg v then unitBound false (Config.exp v)
  else ofMag false (min (mag (Config.exp v)) infMag)

/-- `ln(v)`. -/
def fln (v : Sample) : Sample := Config.ln v

end Sys2Proof.Machine
end

