-- ==== Sys2Proof/Machine/Params.lean ====
section
/-!
DEFINITION. The default parameters (spec/00_scope.md R7), the well-formedness of a configuration
(70_reset_and_hazards.md R233) and the configuration `Construct` makes (10_state.md R26, R34).
-/

namespace Sys2Proof.Machine

/-- The canonical no-op word (30_encoding.md R88). -/
def nopWord : Word := 0xFFFFFFFF#32

/-- A program no step of which is given: every step is the canonical NOP, as a listing's steps that are not given are
(R92). -/
def emptyProgram : Vector Word 128 := Vector.replicate 128 nopWord

/-- The fallback output steps (R166): the last step of each half. -/
def fallbackOutSteps : OutSteps := { left := 63, right := 127 }

/-- The default column of R7. PROGRAMS has no default there: every step of every program is the canonical NOP.
DESIGN CHOICE, log 8. Unsafe. -/
def defaultParams : Params :=
  { decode := DecodeParams.default
    margin := 64
    regClamp := ofNat 4
    prodClamp := ofNat 4
    softT := ofRatio 8 10
    softC := fone
    longThreshold := 8192#16
    lfoRateHz := ofRatio 5 10
    lfoDepth := fone
    inputReg := 0#3
    captureMode := .stepWaddr
    outSteps := Vector.replicate 6 none
    dcR := ofRatio 995 1000
    sweepF1 := ofNat 20
    sweepF2 := none
    programs := Vector.replicate 6 emptyProgram }

/-- SWEEP_F2: 0.45 × fs where it is not given (R7, R193). -/
def sweepTop (p : Params) (fs : Sample) : Sample := p.sweepF2.getD (fmul (ofRatio 45 100) fs)

/-- N (R26): `round_half_even(65536 × SCALE) + MARGIN`. -/
def delaySize (p : Params) (scale : Sample) : Nat := (roundHalfEven (fmul (ofNat 65536) scale)).toNat + p.margin

/-- The configuration of an engine (R34, R181): SCALE = fs / 20480, N by R26, P and the output steps of the program. -/
def engineConfig (p : Params) (i : Fin 6) (fs : Sample) : EngineConfig :=
  let scale := fdiv fs (ofNat 20480)
  { programIndex := i
    fs := fs
    scale := scale
    n := delaySize p scale
    program := p.programs[i]
    outSteps := (p.outSteps[i]).getD fallbackOutSteps }

/-- The answer paired with the first condition that holds. The order of the list is the order of the checks. -/
def firstHit {α : Type} : List (Bool × α) → Option α
  | [] => none
  | (true, a) :: _ => some a
  | (false, _) :: rest => firstHit rest

/-- A finite number above 0. -/
def positive (v : Sample) : Bool := isFinite v && flt fzero v

/-- An entry of OUT_STEPS: L in 0..63 and R in 64..127 (R233). -/
def outStepsOk (o : OutSteps) : Bool := decide (o.left.val < 64) && decide (64 ≤ o.right.val)

end Sys2Proof.Machine
end

