-- ==== Sys2Proof/Machine/State.lean ====
section
/-!
DEFINITION. The state of one engine instance (spec/10_state.md), the host's side of it (00_scope.md R13), the reasons a step
can stop, and the state right after reset.
-/

namespace Sys2Proof.Machine

/-- The delay memory M (R25): index and Sample, indices strictly rising, no entry equal to what an unlisted index reads as.
The unit is one Sample, which has no byte view (20_memory.md R54, R56). Log 7. -/
abbrev Memory := List (Nat × Sample)

/-! ### The program index of a call -/

/-- What a host gives as the `programIndex` of Construct. R180 checks that it is an integer in [0, 5], so it can be a number that
is no integer, or no number. Log 26. -/
inductive ProgramIndex where
  /-- an integer of the host -/
  | int (i : Int)
  /-- a floating-point value of the host: 2.0 is the integer 2, and 2.5, an infinity and a NaN are no integers -/
  | float (v : Sample)
deriving DecidableEq, Repr

/-! ### Stops -/

/-- The call-time faults of 60_exceptions.md R210. Raised only by a host operation, on a failed precondition, before any
state changes (R212). No instruction raises one (R213). Each carries the recorded value. Stopping is safe. -/
inductive Fault where
  /-- E_PROGRAM_INDEX, 1: Construct, an index that is no integer in [0, 5]. Safe. -/
  | programIndex (index : ProgramIndex)
  /-- E_SAMPLE_RATE, 2: Construct, fs not finite or not above 0. Safe. -/
  | sampleRate (fs : Sample)
  /-- E_COEF_LENGTH, 3: a render, the coefficient vector has not 16 entries. Safe. -/
  | coefLength (length : Nat)
  /-- E_COEF_VALUE, 4: a render, the coefficient of that index is not finite. Safe. -/
  | coefValue (index : Nat)
  /-- E_DURATION, 5: a render, durationSeconds not finite or below 0. Safe. -/
  | duration (value : Sample)
  /-- E_ROLLOFF, 6: a render, rolloffHz not finite or not above 0. Safe. -/
  | rolloff (value : Sample)
  /-- E_PREDELAY, 7: RenderImpulse, preDelayMs not finite or below 0. Safe. -/
  | preDelay (value : Sample)
  /-- E_GAIN, 8: RenderImpulse, inputGain not finite or zero. Safe. -/
  | gain (value : Sample)
  /-- E_SWEEP, 9: RenderSweepDeconvolved, sweepDurationSeconds not finite, Ns below 2, or S = 0; Ns is recorded. Safe. -/
  | sweep (ns : Int)
  /-- E_SWEEP_LEVEL, 10: RenderSweepDeconvolved, sweepLevel not finite or zero. Safe. -/
  | sweepLevel (value : Sample)
  /-- E_DAMPING, 11: a render, damping not finite. Safe. -/
  | damping (value : Sample)
deriving DecidableEq, Repr

/-- Why the model answers nothing. Each but the first is raised by Construct alone, for a configuration that R233 tells a
model to refuse by name, or for one the model refuses beside R233 (`byte2Layout`, log 13; `emptyDelayMemory`, log 16). Which is
named where several conditions fail is the model's choice (log 19). Refusing is safe. -/
inductive Refusal where
  /-- An instruction without a meaning; no arm of exec answers it. Safe. -/
  | notModelled (mnemonic : String)
  /-- BYTE2_LAYOUT does not fill the coefficient byte (R73). R233 does not list it. DEDUCED, log 13. Safe. -/
  | byte2Layout
  /-- An entry of OUT_STEPS outside 0..63 and 64..127 (R233). Safe. -/
  | outSteps
  /-- REG_CLAMP not finite or not above 0 (R233). Safe. -/
  | regClamp
  /-- PROD_CLAMP not finite or not above 0 (R233). Safe. -/
  | prodClamp
  /-- Not 0 <= SOFT_T < SOFT_C, both finite (R233). Safe. -/
  | softLimiter
  /-- LFO_DEPTH not finite or below 0 (R233). Safe. -/
  | lfoDepth
  /-- Not 0 <= LFO_RATE_HZ < fs (R233). Safe. -/
  | lfoRate
  /-- Not 0 < DC_R < 1 (R233). Safe. -/
  | dcPole
  /-- Not 0 < SWEEP_F1 < SWEEP_F2, both finite (R233). Safe. -/
  | sweepBand
  /-- N is 0, where `mod N` means nothing (R9 needs n > 0). DESIGN CHOICE, log 16. Safe. -/
  | emptyDelayMemory
deriving DecidableEq, Repr

/-! ### Host operations -/

/-- The arguments of RenderImpulse (44_excitation_capture.md R185); `damping` omitted is `none` (R198). -/
structure ImpulseArgs where
  durationSeconds : Sample
  coefficients : List Sample
  rolloffHz : Sample
  preDelayMs : Sample
  inputGain : Sample
  damping : Option Sample
deriving DecidableEq, Repr

/-- The arguments of RenderSweepDeconvolved (R192). -/
structure SweepArgs where
  durationSeconds : Sample
  coefficients : List Sample
  rolloffHz : Sample
  sweepDurationSeconds : Sample
  sweepLevel : Sample
  damping : Sample
deriving DecidableEq, Repr

/-- A call of the host (00_scope.md R13). -/
inductive HostCall where
  | construct (programIndex : ProgramIndex) (fs : Sample)
  | reset
  | tick (inL inR : Sample)
  | renderImpulse (a : ImpulseArgs)
  | renderSweep (a : SweepArgs)
deriving DecidableEq, Repr

/-- What a finished call returned. -/
inductive HostReturn where
  /-- Construct: the engine. -/
  | engine
  /-- Reset: nothing. -/
  | done
  /-- Tick: (outL, outR), R160. -/
  | sample (l r : Sample)
  /-- A render: the left and the right channel, R201. -/
  | buffers (l r : List Sample)
deriving DecidableEq, Repr

/-- The local state of a RenderImpulse in progress (10_state.md R37, 44_excitation_capture.md R185): `k` is the sample whose
Tick is running, `left` and `right` hold the samples 0..k-1 of the result. -/
structure ImpulseRender where
  nout : Nat
  k : Nat
  /-- the rolloff coefficient of R187 -/
  a : Sample
  inputGain : Sample
  lp : Sample
  line : List Sample
  pxL : Sample
  pzL : Sample
  pxR : Sample
  pzR : Sample
  left : List Sample
  right : List Sample
deriving DecidableEq, Repr

/-- The local state of a RenderSweepDeconvolved in progress (R192): `u` the sweep, `inv` its inverse filter, `yL` and `yR` the
raw outputs of the samples 0..k-1. -/
structure SweepRender where
  nout : Nat
  ns : Nat
  k : Nat
  a : Sample
  sweepLevel : Sample
  lp : Sample
  u : List Sample
  inv : List Sample
  yL : List Sample
  yR : List Sample
deriving DecidableEq, Repr

/-- What the engine is doing: nothing, one Tick, or a render. -/
inductive Job where
  | idle
  | tick
  | impulse (r : ImpulseRender)
  | sweep (r : SweepRender)
deriving DecidableEq, Repr

/-! ### The state -/

/-- One engine instance (R20) with its configuration (R34), the inputs held for a render (R32, R33), the render-local state
(R37, in `job`) and the host's side of the interface (`calls`, `ret`: the model's own fields, log 11). -/
structure State where
  /-- the parameters of the model instance, 00_scope.md R7 -/
  params : Params
  /-- R34 -/
  cfg : EngineConfig
  /-- the register file, R21 -/
  x : Vector Sample 8
  /-- the delay memory, R25 -/
  mem : Memory
  /-- the write pointer, R27 -/
  wp : Nat
  /-- the step index, R23 -/
  pc : Fin 128
  /-- R28 -/
  lfoPhase : Sample
  /-- R29 -/
  lfoValue : Sample
  /-- the capture latches, R31 -/
  outL : Sample
  outR : Sample
  /-- C, R32 -/
  coefs : Vector Sample 16
  /-- R33 -/
  damping : Sample
  /-- the inputs of the Tick in progress, R160 -/
  inL : Sample
  inR : Sample
  /-- what is running, with the render-local state of R37 -/
  job : Job
  /-- the host calls not yet accepted, oldest first -/
  calls : List HostCall
  /-- what the last finished call returned -/
  ret : Option HostReturn
deriving DecidableEq, Repr

/-- The outcome of a step of this machine. -/
abbrev Outcome := Host.Outcome State Fault Refusal

/-- The coefficient vector of an engine no render has run on: the spec gives none. DESIGN CHOICE, log 10. Unsafe. -/
def noCoefs : Vector Sample 16 := Vector.replicate 16 fzero

/-- The engine right after reset (R41, R182): constructed for program 0 at 20480 Hz with the default parameters
(DESIGN CHOICE, log 9; unsafe), the coefficients and damping of log 10, idle, with no call pending (log 11). -/
def State.reset : State :=
  { params := defaultParams
    cfg := engineConfig defaultParams 0 (ofNat 20480)
    x := Vector.replicate 8 fzero
    mem := []
    wp := 0
    pc := 0
    lfoPhase := fzero
    lfoValue := fzero
    outL := fzero
    outR := fzero
    coefs := noCoefs
    damping := fone
    inL := fzero
    inR := fzero
    job := .idle
    calls := []
    ret := none }

end Sys2Proof.Machine
end

