-- ==== Sys2Proof/Machine/Ops.lean ====
section
/-!
DEFINITION. The named operations over memory and registers (spec/00_scope.md R10, 20_memory.md), and Reset
(44_excitation_capture.md R182). There is no exception entry or return: the engine has no trap mechanism
(60_exceptions.md R216).
-/

namespace Sys2Proof.Machine

/-! ### Delay memory -/

/-- What an index nothing has written since Reset reads as (20_memory.md R52, 10_state.md R41). -/
def Memory.unwritten : Sample := fzero

/-- The Sample at an index. -/
def Memory.read : Memory → Nat → Sample
  | [], _ => Memory.unwritten
  | (b, u) :: rest, a => if a = b then u else Memory.read rest a

/-- The entry for `v` at `a` in front of `rest`: none where `v` is what an unlisted index reads as. -/
def Memory.enter (a : Nat) (v : Sample) (rest : Memory) : Memory :=
  if v = Memory.unwritten then rest else (a, v) :: rest

/-- Store `v` at index `a`, keeping the canonical form. -/
def Memory.write : Memory → Nat → Sample → Memory
  | [], a, v => Memory.enter a v []
  | (b, u) :: rest, a, v =>
    if a < b then Memory.enter a v ((b, u) :: rest)
    else if a = b then Memory.enter a v rest
    else (b, u) :: Memory.write rest a v

/-- Every listed index is at least `lo`, indices rise strictly, and no entry is what an unlisted index reads as. -/
def Memory.wfFrom : Nat → Memory → Bool
  | _, [] => true
  | lo, (a, v) :: rest => decide (lo ≤ a) && v != Memory.unwritten && Memory.wfFrom (a + 1) rest

/-- The canonical form. -/
def Memory.wf (m : Memory) : Bool := Memory.wfFrom 0 m

/-- `MemRead(p, 1)` (R52). -/
def State.memRead (s : State) (p : Nat) : Sample := s.mem.read p

/-- `MemWrite(p, 1, v)` (R53). -/
def State.memWrite (s : State) (p : Nat) (v : Sample) : State := { s with mem := s.mem.write p v }

/-! ### Registers, coefficients, program store -/

/-- `x[i]` (R10). No register is hardwired (10_state.md R21). -/
def State.reg (s : State) (i : RegIx) : Sample := s.x[i.toNat]

/-- `x[i] <- v` (R10). -/
def State.setReg (s : State) (i : RegIx) (v : Sample) : State := { s with x := s.x.set i.toNat v }

/-- `C[k]` (R10). -/
def State.coef (s : State) (k : CoefIx) : Sample := s.coefs[k.toNat]

/-- `P[i]` (R10). -/
def State.programWord (s : State) (i : Fin 128) : Word := s.cfg.program[i]

/-- `D[i] = Decode(P[i])` (10_state.md R34). -/
def State.decoded (s : State) (i : Fin 128) : DecodedStep := decodeStep s.params.decode (s.programWord i)

/-! ### Reset -/

/-- `Reset()` (R182): the delay memory, registers, write pointer, LFO, step index and latches. The configuration is
unchanged. -/
def State.resetEngine (s : State) : State :=
  { s with
    mem := []
    x := Vector.replicate 8 fzero
    wp := 0
    lfoPhase := fzero
    lfoValue := fzero
    pc := 0
    outL := fzero
    outR := fzero }

end Sys2Proof.Machine
end

