-- ==== Sys2Proof/Machine/Operands.lean ====
section
/-!
DEFINITION. What every step does around its class-specific work: address generation, coefficient selection, the clamps, the
soft limiter and damping (spec/40_step_common.md R100 to R109). There are no flags (10_state.md R38).
-/

namespace Sys2Proof.Machine

/-! ### Address generation -/

/-- A long tap: the raw offset is above LONG_THRESHOLD (R101). -/
def State.isLong (s : State) (off : Offset) : Bool := decide (s.params.longThreshold.toNat < off.toNat)

/-- `h`: the raw offset scaled to host samples (R100), with the LFO term of a long tap (R102). -/
def State.scaledOffset (s : State) (off : Offset) : Sample :=
  let h := fmul (ofNat off.toNat) s.cfg.scale
  if s.isLong off then fadd h (fmul s.params.lfoDepth s.lfoValue) else h

/-- `off = round_half_even(h)`, the effective offset (R103). -/
def State.effOffset (s : State) (off : Offset) : Int := roundHalfEven (s.scaledOffset off)

/-- `(wp - off) mod N`, Euclidean (R50, R104). -/
def wrapPos (n wp : Nat) (off : Int) : Nat := (((wp : Int) - off) % (n : Int)).toNat

/-- The read position `p` of a step (R104), for its read and its write alike (R50). -/
def State.readPos (s : State) (off : Offset) : Nat := wrapPos s.cfg.n s.wp (s.effOffset off)

/-! ### Clamps and the limiter -/

/-- `ClampR(v)` (R108). -/
def State.clampR (s : State) (v : Sample) : Sample := clamp v s.params.regClamp

/-- `ClampP(v)` (R109). -/
def State.clampP (s : State) (v : Sample) : Sample := clamp v s.params.prodClamp

/-- `SoftLimit(v)` for the threshold `t` and the ceiling `c` (R106); of a NaN it is a free value (log 4). -/
def softLimit (t c v : Sample) : Sample :=
  if fle (fabs v) t then v
  else if flt t (fabs v) then
    fmul (sgn v) (fadd t (fmul (fsub c t) (ftanh (fdiv (fsub (fabs v) t) (fsub c t)))))
  else Config.softLimitNaN v

/-- What a memory write stores of a register's value `v`: `SoftLimit(v) × damping` (R107). -/
def State.stored (s : State) (v : Sample) : Sample :=
  fmul (softLimit s.params.softT s.params.softC v) s.damping

/-! ### The coefficient path and the taps -/

/-- `x[w] <- ClampR(v)`: every register write of a step clamps (R115). -/
def State.load (s : State) (w : RegIx) (v : Sample) : State := s.setReg w (s.clampR v)

/-- `ClampP(a × C[k])` (R105, R109). -/
def State.product (s : State) (a : Sample) (k : CoefIx) : Sample := s.clampP (fmul a (s.coef k))

/-- `x[w] <- ClampR(ClampP(a × C[k]))` (R110, acc = 0). -/
def State.loadProduct (s : State) (w : RegIx) (a : Sample) (k : CoefIx) : State := s.load w (s.product a k)

/-- `x[w] <- ClampR(x[w] + ClampP(a × C[k]))` (R110, acc = 1). -/
def State.accProduct (s : State) (w : RegIx) (a : Sample) (k : CoefIx) : State :=
  s.load w (fadd (s.reg w) (s.product a k))

/-- `MemWrite(p, 1, SoftLimit(x[w]) × damping)` (R107, R110). -/
def State.writeBack (s : State) (w : RegIx) (p : Nat) : State := s.memWrite p (s.stored (s.reg w))

end Sys2Proof.Machine
end

