-- ==== Sys2Proof/Machine/Coefficient.lean ====
section
/-!
DEFINITION. The meanings of the coefficient instructions (spec/41_coefficient_ops.md R120 to R127). None faults (R112); none
writes a flag (10_state.md R38). Within one instruction the input is read first, then the register is written, then memory
(40_step_common.md R111).
-/

namespace Sys2Proof.Machine

/-! ### Memory source -/

/-- MUL.M, form we0 (R120). -/
def execMulM (w : RegIx) (k : CoefIx) (off : Offset) (s : State) : Outcome :=
  .next (s.loadProduct w (s.memRead (s.readPos off)) k)

/-- MUL.M, form sentinel: write-enable is set and suppressed (R120). -/
def execMulMSentinel (w : RegIx) (k : CoefIx) (off : Offset) (s : State) : Outcome :=
  .next (s.loadProduct w (s.memRead (s.readPos off)) k)

/-- MULW.M (R121). -/
def execMulwM (w : RegIx) (k : CoefIx) (off : Offset) (s : State) : Outcome :=
  .next ((s.loadProduct w (s.memRead (s.readPos off)) k).writeBack w (s.readPos off))

/-- MAC.M, form we0 (R122). -/
def execMacM (w : RegIx) (k : CoefIx) (off : Offset) (s : State) : Outcome :=
  .next (s.accProduct w (s.memRead (s.readPos off)) k)

/-- MAC.M, form sentinel (R122). -/
def execMacMSentinel (w : RegIx) (k : CoefIx) (off : Offset) (s : State) : Outcome :=
  .next (s.accProduct w (s.memRead (s.readPos off)) k)

/-- MACW.M (R123). -/
def execMacwM (w : RegIx) (k : CoefIx) (off : Offset) (s : State) : Outcome :=
  .next ((s.accProduct w (s.memRead (s.readPos off)) k).writeBack w (s.readPos off))

/-! ### Register source -/

/-- MUL.R, form we0 (R124); the offset has no effect (30_encoding.md R80). -/
def execMulR (w : RegIx) (r : SrcIx) (k : CoefIx) (s : State) : Outcome :=
  .next (s.loadProduct w (s.reg r.toReg) k)

/-- MUL.R, form sentinel (R124). -/
def execMulRSentinel (w : RegIx) (r : SrcIx) (k : CoefIx) (s : State) : Outcome :=
  .next (s.loadProduct w (s.reg r.toReg) k)

/-- MULW.R (R125). -/
def execMulwR (w : RegIx) (r : SrcIx) (k : CoefIx) (off : Offset) (s : State) : Outcome :=
  .next ((s.loadProduct w (s.reg r.toReg) k).writeBack w (s.readPos off))

/-- MAC.R, form we0 (R126). -/
def execMacR (w : RegIx) (r : SrcIx) (k : CoefIx) (s : State) : Outcome :=
  .next (s.accProduct w (s.reg r.toReg) k)

/-- MAC.R, form sentinel (R126). -/
def execMacRSentinel (w : RegIx) (r : SrcIx) (k : CoefIx) (s : State) : Outcome :=
  .next (s.accProduct w (s.reg r.toReg) k)

/-- MACW.R (R127). -/
def execMacwR (w : RegIx) (r : SrcIx) (k : CoefIx) (off : Offset) (s : State) : Outcome :=
  .next ((s.accProduct w (s.reg r.toReg) k).writeBack w (s.readPos off))

end Sys2Proof.Machine
end

