-- ==== Sys2Proof/Machine/Tap.lean ====
section
/-!
DEFINITION. The meanings of the tap and no-op instructions (spec/42_tap_ops.md R140 to R143). None faults (R112).
-/

namespace Sys2Proof.Machine

/-- NOP (R140): nothing. -/
def execNop (s : State) : Outcome := .next s

/-- SKIP (R141): its read position is computed and not used, so nothing changes. -/
def execSkip (s : State) : Outcome := .next s

/-- WRT (R143). -/
def execWrt (w : RegIx) (off : Offset) (s : State) : Outcome := .next (s.writeBack w (s.readPos off))

/-- RDT (R142). -/
def execRdt (w : RegIx) (off : Offset) (s : State) : Outcome := .next (s.load w (s.memRead (s.readPos off)))

end Sys2Proof.Machine
end

