-- ==== Sys2Proof/Machine/Dispatch.lean ====
section
/-!
DEFINITION. The dispatch of spec/40_step_common.md R110 over the rows of opcode_table.json: one arm per constructor.
-/

namespace Sys2Proof.Machine

/-- What one instruction does to the state; the step index, the injections and the captures are the sequencer's. -/
def exec (i : Instr) (s : State) : Host.Outcome State Fault Refusal :=
  match i with
  | .nop _ => Sys2Proof.Machine.execNop s
  | .skip _ _ _ => Sys2Proof.Machine.execSkip s
  | .wrt _ w off => Sys2Proof.Machine.execWrt w off s
  | .rdt _ w off => Sys2Proof.Machine.execRdt w off s
  | .mulM _ w _ k off => Sys2Proof.Machine.execMulM w k off s
  | .mulMSentinel w _ k off => Sys2Proof.Machine.execMulMSentinel w k off s
  | .mulwM _ w _ k off => Sys2Proof.Machine.execMulwM w k off s
  | .macM _ w _ k off => Sys2Proof.Machine.execMacM w k off s
  | .macMSentinel w _ k off => Sys2Proof.Machine.execMacMSentinel w k off s
  | .macwM _ w _ k off => Sys2Proof.Machine.execMacwM w k off s
  | .mulR _ w r k _ => Sys2Proof.Machine.execMulR w r k s
  | .mulRSentinel w r k _ => Sys2Proof.Machine.execMulRSentinel w r k s
  | .mulwR _ w r k off => Sys2Proof.Machine.execMulwR w r k off s
  | .macR _ w r k _ => Sys2Proof.Machine.execMacR w r k s
  | .macRSentinel w r k _ => Sys2Proof.Machine.execMacRSentinel w r k s
  | .macwR _ w r k off => Sys2Proof.Machine.execMacwR w r k off s

end Sys2Proof.Machine
end

