-- ==== Sys2Proof/Machine/Executor.lean ====
section
/-!
DEFINITION. The parts of one sample around the instructions (spec/43_sample_executor.md R160 to R174): input injection, output
capture, the write-pointer advance and the LFO advance; and the spec's own procedures `Exec` (40_step_common.md R110) and `Tick`
(R160) over decoded steps, which the step machine is compared with.
-/

namespace Sys2Proof.Machine

/-! ### Injection and capture -/

/-- `x[INPUT_REG] <- ClampR(v)` (R161, R163). -/
def State.injectInput (s : State) (v : Sample) : State := s.load s.params.inputReg v

/-- Before step 0 the left input is injected (R161), before step 64 the right one (R163). -/
def State.inject (s : State) : State :=
  if s.pc = 0 then s.injectInput s.inL else if s.pc = 64 then s.injectInput s.inR else s

/-- `CaptureReg(i)` (R168): by default the write address of the step, a NOP's included. -/
def State.captureReg (s : State) (i : Fin 128) : RegIx :=
  match s.params.captureMode with
  | .stepWaddr => (s.decoded i).waddr
  | .fixed r => r

/-- The capture of R165, after the step at `pc`: the left half's output step sets `outL`, the right half's `outR`. -/
def State.capture (s : State) : State :=
  if s.pc.val < 64 then
    if s.pc = s.cfg.outSteps.left then { s with outL := s.reg (s.captureReg s.pc) } else s
  else
    if s.pc = s.cfg.outSteps.right then { s with outR := s.reg (s.captureReg s.pc) } else s

/-! ### End of sample -/

/-- The phase one sample later (R170): `lfoPhase + LFO_RATE_HZ / fs`, less 1.0 from 1.0 on. -/
def nextPhase (phase rate fs : Sample) : Sample :=
  let ph := fadd phase (fdiv rate fs)
  if fle fone ph then fsub ph fone else ph

/-- `sin(2π × lfoPhase)` (10_state.md R30). -/
def lfoWave (phase : Sample) : Sample := fsin (fmul twoPi phase)

/-- `AdvanceLFO()` (R170). -/
def State.advanceLfo (s : State) : State :=
  let ph := nextPhase s.lfoPhase s.params.lfoRateHz s.cfg.fs
  { s with lfoPhase := ph, lfoValue := lfoWave ph }

/-- `wp <- (wp + 1) mod N` (R169). -/
def State.advanceWp (s : State) : State := { s with wp := (s.wp + 1) % s.cfg.n }

/-- The end of a sample: the write pointer, then the LFO, then `pc <- 0` (R160). -/
def State.endSample (s : State) : State := { s.advanceWp.advanceLfo with pc := 0 }

/-! ### The spec's procedures over decoded steps -/

/-- `Exec(d)`, R110. -/
def State.execStep (d : DecodedStep) (s : State) : State :=
  if d.isNop then s
  else
    let p := s.readPos d.offset
    let s1 :=
      if d.hasCoefficient then
        let a := if d.rsrc then s.reg d.raddr.toReg else s.memRead p
        let prod := s.clampP (fmul a (s.coef d.coef))
        if d.acc then s.setReg d.waddr (s.clampR (fadd (s.reg d.waddr) prod))
        else s.setReg d.waddr (s.clampR prod)
      else s
    if d.memWrite then
      s1.memWrite p (fmul (softLimit s1.params.softT s1.params.softC (s1.reg d.waddr)) s1.damping)
    else if d.readTap then s1.setReg d.waddr (s1.clampR (s1.memRead p))
    else s1

/-- One turn of a half's loop in R160: `pc <- i`, `Exec(D[i])`, the capture. -/
def State.stepAt (s : State) (i : Fin 128) : State := (State.execStep (s.decoded i) { s with pc := i }).capture

/-- The turns of the loop for the indices `i`, `i + 1`, …, `n` of them. -/
def State.runSteps : Nat → Nat → State → State
  | _, 0, s => s
  | i, n + 1, s => State.runSteps (i + 1) n (s.stepAt (Fin.ofNat 128 i))

/-- `Tick(inL, inR)`, R160; it returns the latches `outL` and `outR` of the state it leaves. -/
def State.tick (inL inR : Sample) (s : State) : State :=
  let left := State.runSteps 0 64 (s.injectInput inL)
  let right := State.runSteps 64 64 (left.injectInput inR)
  right.endSample

end Sys2Proof.Machine
end

