-- ==== Sys2Proof/Machine/Filters.lean ====
section
/-!
DEFINITION. The signal processing around the engine (spec/44_excitation_capture.md): the rolloff lowpass, the pre-delay line,
the DC blocker, the exponential sine sweep, its inverse filter and the deconvolution. All pure functions.
-/

namespace Sys2Proof.Machine

/-! ### Filters of the impulse render -/

/-- `a = 1.0 - exp(-(2π × rolloffHz) / fs)` (R187). -/
def rolloffCoef (rolloffHz fs : Sample) : Sample :=
  fsub fone (fexp (fdiv (fneg (fmul twoPi rolloffHz)) fs))

/-- `lp + a × (u - lp)` (R187). -/
def lowpass (a lp u : Sample) : Sample := fadd lp (fmul a (fsub u lp))

/-- `PreDelay` (R188): what leaves the line, and the line after `v` has entered it. An empty line passes `v` through. -/
def preDelay (line : List Sample) (v : Sample) : Sample × List Sample :=
  match line with
  | [] => (v, [])
  | out :: rest => (out, rest ++ [v])

/-- `Dpre = round_half_even((preDelayMs × fs) / 1000.0)` (R188). -/
def preDelayLength (preDelayMs fs : Sample) : Nat :=
  (roundHalfEven (fdiv (fmul preDelayMs fs) (ofNat 1000))).toNat

/-- `(y - px) + DC_R × pz` (R190). -/
def dcBlock (dcR y px pz : Sample) : Sample := fadd (fsub y px) (fmul dcR pz)

/-! ### Lengths -/

/-- `round_half_even(seconds × fs)` (R184, R193). -/
def sampleCount (seconds fs : Sample) : Int := roundHalfEven (fmul seconds fs)

/-! ### Sweep -/

/-- `Lk = ln(f2 / f1)` (R193). -/
def sweepLk (f1 f2 : Sample) : Sample := fln (fdiv f2 f1)

/-- `K = (2π × f1 × T) / Lk` with `T = Ns / fs` (R193). -/
def sweepK (f1 f2 fs : Sample) (ns : Nat) : Sample :=
  fdiv (fmul (fmul twoPi f1) (fdiv (ofNat ns) fs)) (sweepLk f1 f2)

/-- `u[n] = sin(K × (exp((n × Lk) / Ns) - 1.0))` (R193). -/
def sweepAt (f1 f2 fs : Sample) (ns n : Nat) : Sample :=
  fsin (fmul (sweepK f1 f2 fs ns) (fsub (fexp (fdiv (fmul (ofNat n) (sweepLk f1 f2)) (ofNat ns))) fone))

/-- `Sweep(Ns)` (R193). -/
def sweepSignal (f1 f2 fs : Sample) (ns : Nat) : List Sample := (List.range ns).map (sweepAt f1 f2 fs ns)

/-! ### Inverse filter and deconvolution -/

/-- The sum of the terms in order, from +0.0 (R195, R196). The spec gives no start value: DESIGN CHOICE, log 17; it can show
only in the sign of a zero sum (I6). -/
def fsum (terms : List Sample) : Sample := terms.foldl fadd fzero

/-- The `i`-th Sample of a signal. -/
def sampleAt (xs : List Sample) (i : Nat) : Sample := xs.getD i fzero

/-- `raw[m] = u[Ns-1-m] × exp(-(m × Lk) / Ns)` (R195). -/
def inverseRaw (u : List Sample) (lk : Sample) (ns m : Nat) : Sample :=
  fmul (sampleAt u (ns - 1 - m)) (fexp (fdiv (fneg (fmul (ofNat m) lk)) (ofNat ns)))

/-- `S`, the sum of `raw[m] × u[Ns-1-m]` in increasing m (R195). -/
def inverseSum (u : List Sample) (lk : Sample) (ns : Nat) : Sample :=
  fsum ((List.range ns).map fun m => fmul (inverseRaw u lk ns m) (sampleAt u (ns - 1 - m)))

/-- `InverseFilter(u, Ns)` (R195). -/
def inverseFilter (u : List Sample) (lk : Sample) (ns : Nat) : List Sample :=
  (List.range ns).map fun m => fdiv (inverseRaw u lk ns m) (inverseSum u lk ns)

/-- `Deconvolve(y, inv, Ns, Nout)` (R196), the direct sum in increasing m (I8). -/
def deconvolve (y inv : List Sample) (ns nout : Nat) : List Sample :=
  (List.range nout).map fun k =>
    fsum ((List.range ns).map fun m => fmul (sampleAt inv m) (sampleAt y (ns - 1 + k - m)))

end Sys2Proof.Machine
end

