-- ==== Sys2Proof/Machine/Render.lean ====
section
/-!
DEFINITION. A render in progress (spec/44_excitation_capture.md R185, R192): what happens before a sample's Tick (its
excitation) and after it (the output), for each job.
-/

namespace Sys2Proof.Machine

/-! ### RenderImpulse -/

/-- The first lines of the loop of R185 for sample `k`: the impulse (R186), the lowpass (R187), the pre-delay (R188) and the
input gain (R189). The Sample is the excitation `e`. -/
def ImpulseRender.excite (r : ImpulseRender) : ImpulseRender × Sample :=
  let u := if r.k = 0 then fone else fzero
  let lp := lowpass r.a r.lp u
  let (v, line) := preDelay r.line lp
  ({ r with lp := lp, line := line }, fmul v r.inputGain)

/-- The last lines of that loop for the Tick's outputs: the DC blocker (R190) and the inverse gain (R191). -/
def ImpulseRender.collect (dcR yL yR : Sample) (r : ImpulseRender) : ImpulseRender :=
  let zL := dcBlock dcR yL r.pxL r.pzL
  let zR := dcBlock dcR yR r.pxR r.pzR
  { r with
    k := r.k + 1
    pxL := yL
    pzL := zL
    pxR := yR
    pzR := zR
    left := r.left ++ [fdiv zL r.inputGain]
    right := r.right ++ [fdiv zR r.inputGain] }

/-- Begin sample `r.k`, or return the two channels when all Nout samples are done (R201). -/
def State.impulseNext (s : State) (r : ImpulseRender) : State :=
  if r.k < r.nout then
    { s with job := .impulse r.excite.1, inL := r.excite.2, inR := r.excite.2 }
  else { s with job := .idle, ret := some (.buffers r.left r.right) }

/-! ### RenderSweepDeconvolved -/

/-- The number of Ticks, `Ns + Nout - 1` (R194). -/
def SweepRender.total (r : SweepRender) : Nat := r.ns + r.nout - 1

/-- The first lines of the loop of R192 for sample `k`: the sweep, zeros after it, the lowpass, the level. -/
def SweepRender.excite (r : SweepRender) : SweepRender × Sample :=
  let u := if r.k < r.ns then sampleAt r.u r.k else fzero
  let lp := lowpass r.a r.lp u
  ({ r with lp := lp }, fmul lp r.sweepLevel)

/-- The Tick's outputs are kept. -/
def SweepRender.collect (yL yR : Sample) (r : SweepRender) : SweepRender :=
  { r with k := r.k + 1, yL := r.yL ++ [yL], yR := r.yR ++ [yR] }

/-- A returned channel: the deconvolution (R196) divided by sweepLevel (R197). -/
def SweepRender.channel (r : SweepRender) (y : List Sample) : List Sample :=
  (deconvolve y r.inv r.ns r.nout).map fun h => fdiv h r.sweepLevel

/-- Begin sample `r.k`, or deconvolve and return when all Ticks are done (R192). -/
def State.sweepNext (s : State) (r : SweepRender) : State :=
  if r.k < r.total then
    { s with job := .sweep r.excite.1, inL := r.excite.2, inR := r.excite.2 }
  else { s with job := .idle, ret := some (.buffers (r.channel r.yL) (r.channel r.yR)) }

/-! ### After a sample -/

/-- What follows the end of a sample: a Tick returns its outputs (R160), a render takes them and goes on (R173). -/
def State.jobNext (s : State) : State :=
  match s.job with
  | .idle => s
  | .tick => { s with job := .idle, ret := some (.sample s.outL s.outR) }
  | .impulse r => s.impulseNext (r.collect s.params.dcR s.outL s.outR)
  | .sweep r => s.sweepNext (r.collect s.outL s.outR)

/-- After the step at `pc`: the next step index (10_state.md R24), or after step 127 the end of the sample. -/
def State.advance (s : State) : State :=
  if s.pc = 127 then s.endSample.jobNext else { s with pc := s.pc + 1 }

end Sys2Proof.Machine
end

