-- ==== Sys2Proof/Machine/HostOps.lean ====
section
/-!
DEFINITION. The host operations (spec/00_scope.md R13): their precondition checks in the order of 60_exceptions.md R211, before
any state changes (R212), and what each starts. This is the engine's only way to stop; there is no other exception (R216).
-/

namespace Sys2Proof.Machine

/-! ### The fault codes -/

/-- The number of a fault code (R210). -/
def Fault.code : Fault → Nat
  | .programIndex _ => 1
  | .sampleRate _ => 2
  | .coefLength _ => 3
  | .coefValue _ => 4
  | .duration _ => 5
  | .rolloff _ => 6
  | .preDelay _ => 7
  | .gain _ => 8
  | .sweep _ => 9
  | .sweepLevel _ => 10
  | .damping _ => 11

/-! ### Conditions -/

/-- Not finite, or below 0. -/
def notNonnegative (v : Sample) : Bool := !isFinite v || flt v fzero

/-- Not finite, or not above 0. -/
def notPositive (v : Sample) : Bool := !isFinite v || fle v fzero

/-- Not finite, or zero. -/
def notNonzero (v : Sample) : Bool := !isFinite v || feq v fzero

/-- The refusal of the parameters alone: the first of this list's conditions that fails. The conditions are those of R233 and, as
`byte2Layout`, that the layout fills the coefficient byte (R73; DEDUCED, log 13). R233 gives no order of refusals and R211 orders faults
only: which condition is named where several fail is the order of this list. DESIGN CHOICE, log 19. -/
def paramsRefusal (p : Params) : Option Refusal :=
  firstHit
    [ (!p.outSteps.toList.all (fun o => outStepsOk (o.getD fallbackOutSteps)), Refusal.outSteps),
      (!p.decode.layout.valid, .byte2Layout),
      (!positive p.regClamp, .regClamp),
      (!positive p.prodClamp, .prodClamp),
      (!(isFinite p.softT && isFinite p.softC && fle fzero p.softT && flt p.softT p.softC), .softLimiter),
      (notNonnegative p.lfoDepth, .lfoDepth),
      (!(flt fzero p.dcR && flt p.dcR fone), .dcPole) ]

/-- The refusal of the parameters at the sample rate `fs`: the first of this list's conditions that fails. The conditions are those of
R233 and that N is not 0 (DESIGN CHOICE, log 16). Which is named where several fail is the order of this list. DESIGN CHOICE, log 19. -/
def configRefusal (p : Params) (c : EngineConfig) : Option Refusal :=
  firstHit
    [ (!(fle fzero p.lfoRateHz && flt p.lfoRateHz c.fs), Refusal.lfoRate),
      (!(positive p.sweepF1 && isFinite (sweepTop p c.fs) && flt p.sweepF1 (sweepTop p c.fs)), .sweepBand),
      (c.n == 0, .emptyDelayMemory) ]

/-- The integer a Sample is, if it is one. -/
def exactInt (v : Sample) : Option Int :=
  if isFinite v && decide (units v = roundHalfEven v * oneUnits) then some (roundHalfEven v) else none

/-- The integer a program index is, if it is one (log 26). -/
def ProgramIndex.integer : ProgramIndex → Option Int
  | .int i => some i
  | .float v => exactInt v

/-- The program a program index names: an integer in [0, 5], or none (R180). -/
def ProgramIndex.program (i : ProgramIndex) : Option (Fin 6) :=
  match i.integer with
  | some z => if 0 ≤ z ∧ z ≤ 5 then some (Fin.ofNat 6 z.toNat) else none
  | none => none

/-- The preconditions of Construct, in the order of R211: its fault, or the program it constructs. -/
def constructCheck (i : ProgramIndex) (fs : Sample) : Except Fault (Fin 6) :=
  match i.program with
  | none => .error (.programIndex i)
  | some p => if notPositive fs then .error (.sampleRate fs) else .ok p

/-- The preconditions both renders share, which stand first in their order (R211). -/
def renderChecks (coefs : List Sample) (duration rolloffHz : Sample) : List (Bool × Fault) :=
  [ (coefs.length != 16, Fault.coefLength coefs.length),
    (coefs.any (fun c => !isFinite c), .coefValue (coefs.findIdx (fun c => !isFinite c))),
    (notNonnegative duration, .duration duration),
    (notPositive rolloffHz, .rolloff rolloffHz) ]

/-- The damping of a RenderImpulse: 1.0 where the argument is omitted (R198). -/
def ImpulseArgs.dampingValue (a : ImpulseArgs) : Sample := a.damping.getD fone

/-- The preconditions of RenderImpulse, in the order of R211. -/
def ImpulseArgs.fault (a : ImpulseArgs) : Option Fault :=
  firstHit (renderChecks a.coefficients a.durationSeconds a.rolloffHz ++
    [ (notNonnegative a.preDelayMs, Fault.preDelay a.preDelayMs),
      (notNonzero a.inputGain, .gain a.inputGain),
      (!isFinite a.dampingValue, .damping a.dampingValue) ])

/-- `Ns` of a sweep render (R193). -/
def SweepArgs.ns (a : SweepArgs) (fs : Sample) : Int := sampleCount a.sweepDurationSeconds fs

/-- The sweep of a sweep render (R193). -/
def SweepArgs.signal (a : SweepArgs) (p : Params) (fs : Sample) : List Sample :=
  sweepSignal p.sweepF1 (sweepTop p fs) fs (a.ns fs).toNat

/-- The `S` of a sweep render (R195). -/
def SweepArgs.inverseSum (a : SweepArgs) (p : Params) (fs : Sample) : Sample :=
  Machine.inverseSum (a.signal p fs) (sweepLk p.sweepF1 (sweepTop p fs)) (a.ns fs).toNat

/-- The preconditions of RenderSweepDeconvolved, in the order of R211. -/
def SweepArgs.fault (a : SweepArgs) (p : Params) (fs : Sample) : Option Fault :=
  firstHit (renderChecks a.coefficients a.durationSeconds a.rolloffHz ++
    [ (!isFinite a.sweepDurationSeconds || decide (a.ns fs < 2), Fault.sweep (a.ns fs)),
      (notNonzero a.sweepLevel, .sweepLevel a.sweepLevel),
      (!isFinite a.damping, .damping a.damping),
      (feq (a.inverseSum p fs) fzero, .sweep (a.ns fs)) ])

/-! ### The operations -/

/-- The vector C of a coefficient argument of 16 entries (R199). -/
def coefVector (coefs : List Sample) : Vector Sample 16 := Vector.ofFn fun k : Fin 16 => sampleAt coefs k.val

/-- `Construct(programIndex, fs)` (R180, R181): a configuration outside R233 is refused, as is one of logs 13 and 16;
the new engine is in the reset state (R181) and holds no coefficients yet (log 10). -/
def State.construct (i : ProgramIndex) (fs : Sample) (s : State) : Outcome :=
  match paramsRefusal s.params with
  | some r => .refused r
  | none =>
    match constructCheck i fs with
    | .error f => .fault f
    | .ok p =>
      let c := engineConfig s.params p fs
      match configRefusal s.params c with
      | some r => .refused r
      | none => .next { s.resetEngine with cfg := c, coefs := noCoefs, damping := fone, ret := some .engine }

/-- `Reset()` as a call (R182). -/
def State.resetCall (s : State) : Outcome := .next { s.resetEngine with ret := some .done }

/-- `Tick(inL, inR)` as a call (R160): the sample begins at step 0. It runs with the coefficients and the damping the state holds:
those of the last render, or those of log 10 where there was none. DESIGN CHOICE, log 10. -/
def State.tickCall (inL inR : Sample) (s : State) : Outcome :=
  .next { s with inL := inL, inR := inR, pc := 0, job := .tick }

/-- The inputs a render holds (R198, R199) and the Reset it begins with (R183). -/
def State.beginRender (s : State) (coefs : List Sample) (damping : Sample) : State :=
  { s.resetEngine with coefs := coefVector coefs, damping := damping }

/-- The render-local state a RenderImpulse begins with (R185). -/
def ImpulseArgs.start (a : ImpulseArgs) (fs : Sample) : ImpulseRender :=
  { nout := (sampleCount a.durationSeconds fs).toNat
    k := 0
    a := rolloffCoef a.rolloffHz fs
    inputGain := a.inputGain
    lp := fzero
    line := List.replicate (preDelayLength a.preDelayMs fs) fzero
    pxL := fzero
    pzL := fzero
    pxR := fzero
    pzR := fzero
    left := []
    right := [] }

/-- `RenderImpulse` (R185): checked, reset, and its first sample begun. -/
def State.renderImpulse (a : ImpulseArgs) (s : State) : Outcome :=
  match a.fault with
  | some f => .fault f
  | none => .next ((s.beginRender a.coefficients a.dampingValue).impulseNext (a.start s.cfg.fs))

/-- The render-local state a RenderSweepDeconvolved begins with (R192). -/
def SweepArgs.start (a : SweepArgs) (p : Params) (fs : Sample) : SweepRender :=
  { nout := (sampleCount a.durationSeconds fs).toNat
    ns := (a.ns fs).toNat
    k := 0
    a := rolloffCoef a.rolloffHz fs
    sweepLevel := a.sweepLevel
    lp := fzero
    u := a.signal p fs
    inv := inverseFilter (a.signal p fs) (sweepLk p.sweepF1 (sweepTop p fs)) (a.ns fs).toNat
    yL := []
    yR := [] }

/-- `RenderSweepDeconvolved` (R192): checked, reset, and its first sample begun. -/
def State.renderSweep (a : SweepArgs) (s : State) : Outcome :=
  match a.fault s.params s.cfg.fs with
  | some f => .fault f
  | none => .next ((s.beginRender a.coefficients a.damping).sweepNext (a.start s.params s.cfg.fs))

/-- A call of the host (R13). -/
def State.call (c : HostCall) (s : State) : Outcome :=
  match c with
  | .construct i fs => s.construct i fs
  | .reset => s.resetCall
  | .tick inL inR => s.tickCall inL inR
  | .renderImpulse a => s.renderImpulse a
  | .renderSweep a => s.renderSweep a

end Sys2Proof.Machine
end

