-- ==== Sys2Proof/Machine/Sequencer.lean ====
section
/-!
DEFINITION. One step of the machine (spec/43_sample_executor.md R174): one microcode step with the parts of the sample that
stand before and after it, or, when the engine is idle, one host call accepted. Log 12.
-/

namespace Sys2Proof.Machine

/-- The instruction at `pc`: the word `P[pc]` decoded (10_state.md R23, R34). -/
def State.fetch (s : State) : Instr := decode s.params.decode (s.programWord s.pc)

/-- One microcode step: injection (R161, R163), the instruction, capture (R165), the advance (R24, R160). -/
def State.programStep (s : State) : Outcome :=
  match exec s.fetch s.inject with
  | .next t => .next t.capture.advance
  | .fault f => .fault f
  | .refused r => .refused r

/-- The engine idle: the oldest pending call is accepted; with none it does nothing (60_exceptions.md R222). -/
def State.idleStep (s : State) : Outcome :=
  match s.calls with
  | [] => .next s
  | c :: rest => State.call c { s with calls := rest }

/-- One step. -/
def State.run (s : State) : Outcome :=
  if s.job = .idle then s.idleStep else s.programStep

/-- `s` with the instruction of bits `w` at the step index, and a Tick in progress where the engine was idle. -/
def State.placeWord (s : State) (nbits w : Nat) : State :=
  { s with
    cfg := { s.cfg with program := s.cfg.program.set s.pc.val (BitVec.ofNat 32 (w % 2 ^ nbits)) }
    job := if s.job = .idle then .tick else s.job }

end Sys2Proof.Machine
end

