-- ==== Sys2Proof/Machine/Assembly.lean ====
section
/-!
DEFINITION. The assembly syntax of spec/30_encoding.md R90 to R92, over the default parameters: lines as data with their
rendering as text, the assembler, the disassembler and program listings. No instruction reads it; it adds no behaviour (D38).
-/

namespace Sys2Proof.Machine

/-- The operands of a line, class by class (R90). `acc` chooses MAC over MUL, `wb` the write-back form. -/
inductive AsmOp where
  /-- `NOP`, `NOP @off` -/
  | nop (off : Option Nat)
  /-- `SKIP xW, @off` -/
  | skip (w off : Nat)
  /-- `RDT xW, m[off]` -/
  | rdt (w off : Nat)
  /-- `WRT m[off], xW` -/
  | wrt (off w : Nat)
  /-- `MUL.M`, `MAC.M`, `MULW.M`, `MACW.M xW, m[off], cK` -/
  | mem (acc wb : Bool) (w off k : Nat)
  /-- `MUL.R`, `MAC.R xW, xR, cK`, then `, @off` where given -/
  | reg (acc : Bool) (w r k : Nat) (off : Option Nat)
  /-- `MULW.R`, `MACW.R xW, xR, cK, m[off]` -/
  | regw (acc : Bool) (w r k off : Nat)
deriving DecidableEq, Repr

/-- A line: its operands and the suffixes that give the control field and the read address. -/
structure AsmLine where
  op : AsmOp
  ctrl : Option Nat := none
  raddr : Option Nat := none
deriving DecidableEq, Repr

/-- Why an assembler rejects a line or a listing (R91, R92). -/
inductive AsmError where
  /-- a register number out of range -/
  | register
  /-- an offset above 65535 -/
  | offset
  /-- a coefficient above 15 -/
  | coefficient
  /-- a control value above 31 -/
  | control
  /-- the combination of R86, or a control value that belongs to another class -/
  | unencodable
  /-- a raw word of more than 32 bits -/
  | word
  /-- a step index above 127, or an output step outside its half -/
  | step
deriving DecidableEq, Repr

/-- The canonical control value of a line's class (R90). -/
def AsmOp.canonicalCtrl : AsmOp → Nat
  | .nop _ => 31
  | .skip _ _ => 31
  | .rdt _ _ => 0
  | .wrt _ _ => 1
  | .mem _ wb _ _ _ => if wb then 1 else 0
  | .reg _ _ _ _ _ => 0
  | .regw _ _ _ _ _ => 1

/-- A number of a field of `n` bits, or the error of that field. -/
def asmField (n v : Nat) (e : AsmError) : Except AsmError (BitVec n) :=
  if v < 2 ^ n then .ok (BitVec.ofNat n v) else .error e

/-- The coefficient instruction of the given flags: form "sentinel" where a class that writes nothing has the control value
31. -/
def coefInstr (rsrc acc wb : Bool) (c : Ctrl) (w : RegIx) (r : SrcIx) (k : CoefIx) (o : Offset) : Instr :=
  match rsrc, acc, wb with
  | false, false, false => if c = 31#5 then .mulMSentinel w r k o else .mulM c w r k o
  | false, false, true => .mulwM c w r k o
  | false, true, false => if c = 31#5 then .macMSentinel w r k o else .macM c w r k o
  | false, true, true => .macwM c w r k o
  | true, false, false => if c = 31#5 then .mulRSentinel w r k o else .mulR c w r k o
  | true, false, true => .mulwR c w r k o
  | true, true, false => if c = 31#5 then .macRSentinel w r k o else .macR c w r k o
  | true, true, true => .macwR c w r k o

/-- The instruction of a line, its fields from the operands and the defaults of R91. A NOP has the control byte 0xFF, so its control
value can only be 31: R91 rejects every other one with WE = 1, and that one with WE = 0 is rejected too is a DESIGN CHOICE
(log 24). The read-address suffix of a line that is no memory-source class is checked for its range and then has no effect: the spec says nothing
of it. DESIGN CHOICE, log 24. -/
def AsmLine.toInstr (l : AsmLine) : Except AsmError Instr := do
  let c ← asmField 5 (l.ctrl.getD l.op.canonicalCtrl) .control
  let ra ← asmField 2 (l.raddr.getD 0) .register
  match l.op with
  | .nop off =>
    let o ← asmField 16 (off.getD 65535) .offset
    if c = 31#5 then return .nop o else throw .unencodable
  | .skip w off => return .skip c (← asmField 3 w .register) (← asmField 16 off .offset)
  | .rdt w off => return .rdt c (← asmField 3 w .register) (← asmField 16 off .offset)
  | .wrt off w => return .wrt c (← asmField 3 w .register) (← asmField 16 off .offset)
  | .mem acc wb w off k =>
    return coefInstr false acc wb c (← asmField 3 w .register) ra (← asmField 4 k .coefficient)
      (← asmField 16 off .offset)
  | .reg acc w r k off =>
    return coefInstr true acc false c (← asmField 3 w .register) (← asmField 2 r .register)
      (← asmField 4 k .coefficient) (← asmField 16 (off.getD 0) .offset)
  | .regw acc w r k off =>
    return coefInstr true acc true c (← asmField 3 w .register) (← asmField 2 r .register)
      (← asmField 4 k .coefficient) (← asmField 16 off .offset)

/-- Assembly to a word (R91): a line whose instruction is not one its class encodes is rejected. -/
def AsmLine.assemble (l : AsmLine) : Except AsmError Word := do
  let i ← l.toInstr
  if i.wellFormed DecodeParams.default then return encode DecodeParams.default i else .error .unencodable

/-! ### Disassembly -/

/-- A suffix value, left out where it is the default. -/
def asmSuffix (v dflt : Nat) : Option Nat := if v = dflt then none else some v

/-- A line with the control suffix where the value is not the class's canonical one (R90). -/
def asmLine (op : AsmOp) (ctrl : Ctrl) : AsmLine := { op := op, ctrl := asmSuffix ctrl.toNat op.canonicalCtrl }

/-- A memory-source line keeps a read address that is not 0 (R90). -/
def asmMem (acc wb : Bool) (ctrl : Ctrl) (w : RegIx) (r : SrcIx) (k : CoefIx) (o : Offset) : AsmLine :=
  { asmLine (.mem acc wb w.toNat o.toNat k.toNat) ctrl with raddr := asmSuffix r.toNat 0 }

/-- A register-source line shows an offset that is not 0 (R90). -/
def asmReg (acc : Bool) (ctrl : Ctrl) (w : RegIx) (r : SrcIx) (k : CoefIx) (o : Offset) : AsmLine :=
  asmLine (.reg acc w.toNat r.toNat k.toNat (asmSuffix o.toNat 0)) ctrl

/-- The write-back form of a register-source line. -/
def asmRegw (acc : Bool) (ctrl : Ctrl) (w : RegIx) (r : SrcIx) (k : CoefIx) (o : Offset) : AsmLine :=
  asmLine (.regw acc w.toNat r.toNat k.toNat o.toNat) ctrl

/-- The disassembly of an instruction (R90). -/
def disassemble : Instr → AsmLine
  | .nop off => { op := .nop (asmSuffix off.toNat 65535) }
  | .skip c w off => asmLine (.skip w.toNat off.toNat) c
  | .wrt c w off => asmLine (.wrt off.toNat w.toNat) c
  | .rdt c w off => asmLine (.rdt w.toNat off.toNat) c
  | .mulM c w r k off => asmMem false false c w r k off
  | .mulMSentinel w r k off => asmMem false false 31#5 w r k off
  | .mulwM c w r k off => asmMem false true c w r k off
  | .macM c w r k off => asmMem true false c w r k off
  | .macMSentinel w r k off => asmMem true false 31#5 w r k off
  | .macwM c w r k off => asmMem true true c w r k off
  | .mulR c w r k off => asmReg false c w r k off
  | .mulRSentinel w r k off => asmReg false 31#5 w r k off
  | .mulwR c w r k off => asmRegw false c w r k off
  | .macR c w r k off => asmReg true c w r k off
  | .macRSentinel w r k off => asmReg true 31#5 w r k off
  | .macwR c w r k off => asmRegw true c w r k off

/-! ### Text -/

def asmX (n : Nat) : String := "x" ++ n.repr

def asmM (n : Nat) : String := "m[" ++ n.repr ++ "]"

def asmC (n : Nat) : String := "c" ++ n.repr

def asmAt (n : Nat) : String := "@" ++ n.repr

/-- MUL or MAC, with the `W` of a write-back form, and the source's letter. -/
def asmName (acc wb : Bool) (source : String) : String :=
  (if acc then "MAC" else "MUL") ++ (if wb then "W" else "") ++ "." ++ source

/-- The text of the operands (R90). -/
def AsmOp.text : AsmOp → String
  | .nop none => "NOP"
  | .nop (some off) => "NOP " ++ asmAt off
  | .skip w off => "SKIP " ++ asmX w ++ ", " ++ asmAt off
  | .rdt w off => "RDT " ++ asmX w ++ ", " ++ asmM off
  | .wrt off w => "WRT " ++ asmM off ++ ", " ++ asmX w
  | .mem acc wb w off k => asmName acc wb "M" ++ " " ++ asmX w ++ ", " ++ asmM off ++ ", " ++ asmC k
  | .reg acc w r k none => asmName acc false "R" ++ " " ++ asmX w ++ ", " ++ asmX r ++ ", " ++ asmC k
  | .reg acc w r k (some off) =>
    asmName acc false "R" ++ " " ++ asmX w ++ ", " ++ asmX r ++ ", " ++ asmC k ++ ", " ++ asmAt off
  | .regw acc w r k off =>
    asmName acc true "R" ++ " " ++ asmX w ++ ", " ++ asmX r ++ ", " ++ asmC k ++ ", " ++ asmM off

/-- The text of a suffix, in the braces of R90 (characters 123 and 125). -/
def asmBraces (name : String) : Option Nat → String
  | none => ""
  | some n => " " ++ String.singleton (Char.ofNat 123) ++ name ++ "=" ++ n.repr ++ String.singleton (Char.ofNat 125)

/-- The text of a line (R90). Where it has both suffixes, the control value stands before the read address. DESIGN CHOICE,
log 28. -/
def AsmLine.text (l : AsmLine) : String := l.op.text ++ asmBraces "ctrl" l.ctrl ++ asmBraces "raddr" l.raddr

/-! ### Listings (R92) -/

/-- An item of a listing. -/
inductive AsmItem where
  /-- an instruction -/
  | line (l : AsmLine)
  /-- `.word` -/
  | word (w : Nat)
  /-- `.step` -/
  | step (i : Nat)
  /-- `.out` -/
  | out (l r : Nat)
deriving DecidableEq, Repr

/-- What a listing gives: the program, its output steps where `.out` gives them, and the index of the next line. -/
structure Listing where
  program : Vector Word 128
  outSteps : Option OutSteps
  next : Nat
deriving DecidableEq, Repr

/-- A listing before its first item: every step is the canonical NOP (R92). A line before any `.step` stands at step 0 onwards.
DESIGN CHOICE, log 25. -/
def Listing.empty : Listing := { program := emptyProgram, outSteps := none, next := 0 }

/-- Place a word at the next step index. A step placed twice holds the later word. DESIGN CHOICE, log 25. -/
def Listing.place (g : Listing) (w : Word) : Except AsmError Listing :=
  if h : g.next < 128 then .ok { g with program := g.program.set g.next w, next := g.next + 1 } else .error .step

/-- One item (R92). Of two `.out` the later counts. DESIGN CHOICE, log 25. -/
def Listing.add (g : Listing) : AsmItem → Except AsmError Listing
  | .line l => do g.place (← l.assemble)
  | .word w => do g.place (← asmField 32 w .word)
  | .step i => if i < 128 then .ok { g with next := i } else .error .step
  | .out l r =>
    if l < 64 ∧ 64 ≤ r ∧ r < 128 then .ok { g with outSteps := some ⟨Fin.ofNat 128 l, Fin.ofNat 128 r⟩ }
    else .error .step

/-- The program of a listing. -/
def assembleListing (items : List AsmItem) : Except AsmError Listing := items.foldlM Listing.add Listing.empty

end Sys2Proof.Machine
end

