-- ==== Sys2Proof/Machine/Procedures.lean ====
section
/-!
DEFINITION. The spec's own render procedures, spec/44_excitation_capture.md R185 and R192, written out line by line over the `Tick` of
43_sample_executor.md R160, and the configuration conditions of 70_reset_and_hazards.md R233. No step calls them: the step machine,
which runs a render one microcode step at a time, is compared with them.
-/

namespace Sys2Proof.Machine

/-- The engine a render's loop begins with: C and damping set, then Reset (R183, R198, R199). -/
def State.renderStart (s : State) (coefs : List Sample) (damping : Sample) : State :=
  { s.resetEngine with coefs := Vector.ofFn fun k : Fin 16 => coefs.getD k.val fzero, damping := damping }

/-! ### RenderImpulse (R185) -/

/-- The variables of the loop of R185: the engine, the lowpass state, the lowpass outputs of all samples so far (of which the
pre-delay gives back an earlier one, R188), the DC-blocker states and the results. -/
structure ImpulseVars where
  engine : State
  lp : Sample
  lps : List Sample
  pxL : Sample
  pzL : Sample
  pxR : Sample
  pzR : Sample
  left : List Sample
  right : List Sample
deriving DecidableEq, Repr

/-- The body of the loop of R185 for sample `k`. -/
def ImpulseVars.turn (dcR a inputGain : Sample) (dpre k : Nat) (v : ImpulseVars) : ImpulseVars :=
  let u := if k = 0 then fone else fzero
  let lp := fadd v.lp (fmul a (fsub u v.lp))
  let lps := v.lps ++ [lp]
  let delayed := if dpre ≤ k then lps.getD (k - dpre) fzero else fzero
  let e := fmul delayed inputGain
  let engine := v.engine.tick e e
  let zL := fadd (fsub engine.outL v.pxL) (fmul dcR v.pzL)
  let zR := fadd (fsub engine.outR v.pxR) (fmul dcR v.pzR)
  { engine := engine
    lp := lp
    lps := lps
    pxL := engine.outL
    pzL := zL
    pxR := engine.outR
    pzR := zR
    left := v.left ++ [fdiv zL inputGain]
    right := v.right ++ [fdiv zR inputGain] }

/-- `RenderImpulse` of R185, its preconditions passed: the variables after the last sample. -/
def State.impulseProcedure (s : State) (g : ImpulseArgs) : ImpulseVars :=
  let nout := (roundHalfEven (fmul g.durationSeconds s.cfg.fs)).toNat
  let a := fsub fone (fexp (fdiv (fneg (fmul twoPi g.rolloffHz)) s.cfg.fs))
  let dpre := (roundHalfEven (fdiv (fmul g.preDelayMs s.cfg.fs) (ofNat 1000))).toNat
  (List.range nout).foldl (fun v k => v.turn s.params.dcR a g.inputGain dpre k)
    { engine := s.renderStart g.coefficients (g.damping.getD fone)
      lp := fzero
      lps := []
      pxL := fzero
      pzL := fzero
      pxR := fzero
      pzR := fzero
      left := []
      right := [] }

/-! ### RenderSweepDeconvolved (R192) -/

/-- What the formulas of R193 and R195 depend on: f1, f2, fs and Ns. -/
structure SweepBand where
  f1 : Sample
  f2 : Sample
  fs : Sample
  ns : Nat
deriving DecidableEq, Repr

/-- The band of a sweep render (R193): f2 is 0.45 × fs where SWEEP_F2 is not given. -/
def State.sweepBand (s : State) (g : SweepArgs) : SweepBand :=
  { f1 := s.params.sweepF1
    f2 := s.params.sweepF2.getD (fmul (ofRatio 45 100) s.cfg.fs)
    fs := s.cfg.fs
    ns := (roundHalfEven (fmul g.sweepDurationSeconds s.cfg.fs)).toNat }

/-- `Lk = ln(f2 / f1)`. -/
def SweepBand.lk (b : SweepBand) : Sample := fln (fdiv b.f2 b.f1)

/-- `u[n]` of R193, with T = Ns / fs and K = (2π × f1 × T) / Lk. -/
def SweepBand.u (b : SweepBand) (n : Nat) : Sample :=
  let t := fdiv (ofNat b.ns) b.fs
  let k := fdiv (fmul (fmul twoPi b.f1) t) b.lk
  fsin (fmul k (fsub (fexp (fdiv (fmul (ofNat n) b.lk) (ofNat b.ns))) fone))

/-- `raw[m]` of R195. -/
def SweepBand.raw (b : SweepBand) (m : Nat) : Sample :=
  fmul (b.u (b.ns - 1 - m)) (fexp (fdiv (fneg (fmul (ofNat m) b.lk)) (ofNat b.ns)))

/-- The sum of `f 0` to `f (n - 1)` in that order, from +0.0 (log 17). -/
def sumUpTo (n : Nat) (f : Nat → Sample) : Sample := (List.range n).foldl (fun acc m => fadd acc (f m)) fzero

/-- `S` of R195. -/
def SweepBand.invSum (b : SweepBand) : Sample := sumUpTo b.ns fun m => fmul (b.raw m) (b.u (b.ns - 1 - m))

/-- `inv[m]` of R195. -/
def SweepBand.inv (b : SweepBand) (m : Nat) : Sample := fdiv (b.raw m) b.invSum

/-- A returned channel (R196, R197) of Nout Samples, from the raw outputs `y`. -/
def SweepBand.channel (b : SweepBand) (nout : Nat) (sweepLevel : Sample) (y : List Sample) : List Sample :=
  (List.range nout).map fun k =>
    fdiv (sumUpTo b.ns fun m => fmul (b.inv m) (y.getD (b.ns - 1 + k - m) fzero)) sweepLevel

/-- The variables of the loop of R192: the engine, the lowpass state and the raw outputs. -/
structure SweepVars where
  engine : State
  lp : Sample
  yL : List Sample
  yR : List Sample
deriving DecidableEq, Repr

/-- The body of the loop of R192 for sample `k`. -/
def SweepVars.turn (b : SweepBand) (a sweepLevel : Sample) (k : Nat) (v : SweepVars) : SweepVars :=
  let x := if k < b.ns then b.u k else fzero
  let lp := fadd v.lp (fmul a (fsub x v.lp))
  let e := fmul lp sweepLevel
  let engine := v.engine.tick e e
  { engine := engine, lp := lp, yL := v.yL ++ [engine.outL], yR := v.yR ++ [engine.outR] }

/-- The loop of R192, the preconditions passed: the variables after the last of its Ns + Nout - 1 samples (R194). -/
def State.sweepProcedure (s : State) (g : SweepArgs) : SweepVars :=
  let b := s.sweepBand g
  let nout := (roundHalfEven (fmul g.durationSeconds s.cfg.fs)).toNat
  let a := fsub fone (fexp (fdiv (fneg (fmul twoPi g.rolloffHz)) s.cfg.fs))
  (List.range (b.ns + nout - 1)).foldl (fun v k => v.turn b a g.sweepLevel k)
    { engine := s.renderStart g.coefficients g.damping, lp := fzero, yL := [], yR := [] }

/-! ### Configuration well-formedness (R233) -/

/-- The parameters, at the rate `fs`, do not meet the condition a refusal names. All but `byte2Layout` (R73,
log 13) and `emptyDelayMemory` (log 16) are those of R233. -/
def Violates (p : Params) (fs : Sample) : Refusal → Prop
  | .byte2Layout => p.decode.layout.valid = false
  | .outSteps => ¬∀ (i : Fin 6) (o : OutSteps), p.outSteps[i] = some o → o.left.val < 64 ∧ 64 ≤ o.right.val
  | .regClamp => ¬(isFinite p.regClamp = true ∧ flt fzero p.regClamp = true)
  | .prodClamp => ¬(isFinite p.prodClamp = true ∧ flt fzero p.prodClamp = true)
  | .softLimiter =>
    ¬(isFinite p.softT = true ∧ isFinite p.softC = true ∧ fle fzero p.softT = true ∧ flt p.softT p.softC = true)
  | .lfoDepth => ¬(isFinite p.lfoDepth = true ∧ fle fzero p.lfoDepth = true)
  | .lfoRate => ¬(fle fzero p.lfoRateHz = true ∧ flt p.lfoRateHz fs = true)
  | .dcPole => ¬(flt fzero p.dcR = true ∧ flt p.dcR fone = true)
  | .sweepBand =>
    let f2 := p.sweepF2.getD (fmul (ofRatio 45 100) fs)
    ¬(isFinite p.sweepF1 = true ∧ isFinite f2 = true ∧ flt fzero p.sweepF1 = true ∧ flt p.sweepF1 f2 = true)
  | .emptyDelayMemory => (roundHalfEven (fmul (ofNat 65536) (fdiv fs (ofNat 20480)))).toNat + p.margin = 0
  | _ => False

/-- The conditions on the parameters alone, which Construct checks before its arguments (log 19). -/
def parameterRefusals : List Refusal :=
  [.outSteps, .byte2Layout, .regClamp, .prodClamp, .softLimiter, .lfoDepth, .dcPole]

/-- The conditions that depend on `fs`, which Construct checks after its arguments (log 19). -/
def rateRefusals : List Refusal := [.lfoRate, .sweepBand, .emptyDelayMemory]

end Sys2Proof.Machine
end

