-- ==== Sys2Proof/Safety.lean ====
section
/-!
DEFINITION. What holds of a good state, in the terms the statements use: the structural invariant of the engine, the bounds and
finiteness of spec/40_step_common.md R116, the LFO's ranges, and the relation of two engines that a render cannot tell apart.
-/

namespace Sys2Proof.Machine

/-! ### Structure -/

/-- Every listed index of the delay memory is below `n` (10_state.md R25). -/
def Memory.within (n : Nat) (m : Memory) : Prop := ∀ e ∈ m, e.1 < n

/-- The structural invariant: the delay memory is in canonical form and inside [0, N), the write pointer is in [0, N)
(10_state.md R20, R25, R27). -/
structure State.Sound (s : State) : Prop where
  memWf : s.mem.wf = true
  memWithin : s.mem.within s.cfg.n
  wpLt : s.wp < s.cfg.n

/-! ### Bounds and finiteness -/

/-- `-l <= v <= l`; no NaN satisfies it. -/
def withinBound (l v : Sample) : Bool := fle (fneg l) v && fle v l

/-- Every register is in [-REG_CLAMP, REG_CLAMP] (10_state.md R21). -/
def State.RegsBounded (s : State) : Prop := ∀ i, withinBound s.params.regClamp (s.reg i) = true

/-- Every Sample of the delay memory is finite. -/
def State.MemFinite (s : State) : Prop := ∀ a, isFinite (s.memRead a) = true

/-- `SOFT_T + (SOFT_C - SOFT_T)`, the largest magnitude the formula of R106 gives for a `tanh` of at most 1. -/
def softPeak (t c : Sample) : Sample := fadd t (fsub c t)

/-- The parameters meet the numeric conditions of 70_reset_and_hazards.md R233 that the step pipeline uses. -/
structure Params.Numeric (p : Params) : Prop where
  regClamp : positive p.regClamp = true
  prodClamp : positive p.prodClamp = true
  softT : isFinite p.softT = true
  softC : isFinite p.softC = true
  softTNonneg : fle fzero p.softT = true
  softOrder : flt p.softT p.softC = true

/-- The state R116 speaks of: finite coefficients and damping, bounded registers, finite memory. The limiter's peak times the
damping is finite, which R116 takes for granted (it holds for every finite damping where SOFT_C is 1.0). -/
structure State.Bounded (s : State) : Prop where
  params : Params.Numeric s.params
  memWf : s.mem.wf = true
  coefs : ∀ k, isFinite (s.coef k) = true
  damping : isFinite s.damping = true
  peak : isFinite (fmul (softPeak s.params.softT s.params.softC) s.damping) = true
  regs : s.RegsBounded
  mem : s.MemFinite

/-! ### LFO -/

/-- `0 <= v < 1` (10_state.md R28). -/
def inUnitInterval (v : Sample) : Bool := fle fzero v && flt v fone

/-! ### Two engines -/

/-- The same parameters and configuration. -/
def SameEngine (s t : State) : Prop := s.params = t.params ∧ s.cfg = t.cfg

/-- `s` after `k` steps, if none of them stops. -/
def After (k : Nat) (s t : State) : Prop := Host.Core.run Sys2Proof.core k s = .next t

end Sys2Proof.Machine
end

