-- ==== Sys2Proof/Certificates/Slice0/Obligations.lean ====
section
/-!
DEFINITION. The statements about the model. Each docstring names the rule of spec/ it formalises.
-/

open Sys2Proof Sys2Proof.Machine

/-! ### Encoding -/

/-- R76, R84, R85, R91: under any valid layout and any sentinels, decoding the encoding of a well-formed instruction gives it back. -/
def Obligations.DecodeOfEncodeIsIdentity : Prop :=
  ∀ (q : DecodeParams) (i : Instr), q.layout.valid = true → i.wellFormed q = true → decode q (encode q i) = i

/-- R79, R84, R87: every word decodes to a well-formed instruction whose encoding is that word, so no bit of a word is lost. -/
def Obligations.EncodeOfDecodeIsIdentity : Prop :=
  ∀ (q : DecodeParams) (w : Word), q.layout.valid = true →
    (decode q w).wellFormed q = true ∧ encode q (decode q w) = w

/-- R85: with the default parameters every word matches exactly one row of the table, and it is the row of the instruction the
word decodes to. -/
def Obligations.EveryWordMatchesOneTableRow : Prop :=
  ∀ w : Word, ∃ row ∈ tableRows, row.hits w = true ∧ (∀ other ∈ tableRows, other.hits w = true → other = row) ∧
    (row.cls, row.sentinel) = (decode DecodeParams.default w).row

/-- R77, R78: `hasCoefficient` is true exactly when bits 23:16 are not 0xFF; `isNop` exactly when bits 31:24 and bits 23:16 are both
0xFF, whatever the offset bits are; and such a word is the NOP of its offset. -/
def Obligations.AllOnesConventions : Prop :=
  ∀ (q : DecodeParams) (w : Word),
    ((decodeStep q w).hasCoefficient = true ↔ w.toNat / 2 ^ 16 % 256 ≠ 255) ∧
    ((decodeStep q w).isNop = true ↔ w.toNat / 2 ^ 24 = 255 ∧ w.toNat / 2 ^ 16 % 256 = 255) ∧
    ((decodeStep q w).isNop = true → decode q w = .nop (BitVec.ofNat 16 w.toNat))

/-- Worked examples of R120 to R127 and R140 to R143: words of the spec decode to the instructions they stand for. -/
def Obligations.WorkedExampleWordsDecode : Prop :=
  decode DecodeParams.default 0x02030064#32 = .mulM 0 2 0 3 100 ∧
  decode DecodeParams.default 0x0A030064#32 = .mulwM 1 2 0 3 100 ∧
  decode DecodeParams.default 0x02130064#32 = .macM 0 2 0 3 100 ∧
  decode DecodeParams.default 0x0A130064#32 = .macwM 1 2 0 3 100 ∧
  decode DecodeParams.default 0x02A30000#32 = .mulR 0 2 1 3 0 ∧
  decode DecodeParams.default 0x0AA30064#32 = .mulwR 1 2 1 3 100 ∧
  decode DecodeParams.default 0x02B30000#32 = .macR 0 2 1 3 0 ∧
  decode DecodeParams.default 0x0AB30064#32 = .macwR 1 2 1 3 100 ∧
  decode DecodeParams.default 0xFFFFFFFF#32 = .nop 0xFFFF ∧
  decode DecodeParams.default 0xFBFF000A#32 = .skip 31 3 10 ∧
  decode DecodeParams.default 0x01FF000A#32 = .rdt 0 1 10 ∧
  decode DecodeParams.default 0x08FF0000#32 = .wrt 1 0 0

/-- R90, R91: the disassembly of a well-formed instruction assembles to the instruction's word, so the syntax loses nothing. -/
def Obligations.DisassemblyIsLossless : Prop :=
  ∀ i : Instr, i.wellFormed DecodeParams.default = true →
    (disassemble i).assemble = .ok (encode DecodeParams.default i)

/-- R86, R91: an assembler rejects `MAC.R xW, x3, c15` and `MACW.R xW, x3, c15`, whatever the register, offset and suffixes; a
control value of 31 or with WE = 0 on a class that writes memory; and one with WE = 1 that is not 31 on any other class, NOP
included. -/
def Obligations.AssemblerRejectsUnencodable : Prop :=
  (∀ (w : Nat) (off : Option Nat) (o : Nat) (c r : Option Nat) (v : Word),
    AsmLine.assemble { op := .reg true w 3 15 off, ctrl := c, raddr := r } ≠ .ok v ∧
    AsmLine.assemble { op := .regw true w 3 15 o, ctrl := c, raddr := r } ≠ .ok v) ∧
  ∀ (op : AsmOp) (n : Nat) (r : Option Nat) (v : Word),
    (op.canonicalCtrl = 1 → n = 31 ∨ n % 2 = 0 → AsmLine.assemble { op := op, ctrl := some n, raddr := r } ≠ .ok v) ∧
    (op.canonicalCtrl ≠ 1 → n ≠ 31 → n % 2 = 1 → AsmLine.assemble { op := op, ctrl := some n, raddr := r } ≠ .ok v)

/-! ### Coefficient instructions: memory source -/

/-- R120: MUL.M, in both forms, loads `ClampR(ClampP(M[p] × C[k]))` into `x[w]` and changes nothing else. -/
def Obligations.MulMLoadsProduct : Prop :=
  ∀ (s : State) (c : Ctrl) (w : RegIx) (r : SrcIx) (k : CoefIx) (off : Offset),
    ∃ t, exec (.mulM c w r k off) s = .next t ∧ exec (.mulMSentinel w r k off) s = .next t ∧
      t.reg w = clamp (clamp (fmul (s.memRead (s.readPos off)) (s.coef k)) s.params.prodClamp) s.params.regClamp ∧
      (∀ i, i ≠ w → t.reg i = s.reg i) ∧ (∀ a, t.memRead a = s.memRead a) ∧ t = { s with x := t.x }

/-- R121: MULW.M loads the product and then stores `SoftLimit(x[w]) × damping`, with the new `x[w]`, at the read position. -/
def Obligations.MulwMLoadsAndStores : Prop :=
  ∀ (s : State) (c : Ctrl) (w : RegIx) (r : SrcIx) (k : CoefIx) (off : Offset), s.mem.wf = true →
    ∃ t, exec (.mulwM c w r k off) s = .next t ∧
      t.reg w = clamp (clamp (fmul (s.memRead (s.readPos off)) (s.coef k)) s.params.prodClamp) s.params.regClamp ∧
      (∀ i, i ≠ w → t.reg i = s.reg i) ∧
      t.memRead (s.readPos off) = fmul (softLimit s.params.softT s.params.softC (t.reg w)) s.damping ∧
      (∀ a, a ≠ s.readPos off → t.memRead a = s.memRead a) ∧ t = { s with x := t.x, mem := t.mem }

/-- R122: MAC.M, in both forms, loads `ClampR(x[w] + ClampP(M[p] × C[k]))` into `x[w]` and changes nothing else. -/
def Obligations.MacMAccumulatesProduct : Prop :=
  ∀ (s : State) (c : Ctrl) (w : RegIx) (r : SrcIx) (k : CoefIx) (off : Offset),
    ∃ t, exec (.macM c w r k off) s = .next t ∧ exec (.macMSentinel w r k off) s = .next t ∧
      t.reg w = clamp (fadd (s.reg w)
        (clamp (fmul (s.memRead (s.readPos off)) (s.coef k)) s.params.prodClamp)) s.params.regClamp ∧
      (∀ i, i ≠ w → t.reg i = s.reg i) ∧ (∀ a, t.memRead a = s.memRead a) ∧ t = { s with x := t.x }

/-- R123: MACW.M accumulates the product and then stores `SoftLimit(x[w]) × damping`, with the new `x[w]`, at the read position. -/
def Obligations.MacwMAccumulatesAndStores : Prop :=
  ∀ (s : State) (c : Ctrl) (w : RegIx) (r : SrcIx) (k : CoefIx) (off : Offset), s.mem.wf = true →
    ∃ t, exec (.macwM c w r k off) s = .next t ∧
      t.reg w = clamp (fadd (s.reg w)
        (clamp (fmul (s.memRead (s.readPos off)) (s.coef k)) s.params.prodClamp)) s.params.regClamp ∧
      (∀ i, i ≠ w → t.reg i = s.reg i) ∧
      t.memRead (s.readPos off) = fmul (softLimit s.params.softT s.params.softC (t.reg w)) s.damping ∧
      (∀ a, a ≠ s.readPos off → t.memRead a = s.memRead a) ∧ t = { s with x := t.x, mem := t.mem }

/-! ### Coefficient instructions: register source -/

/-- R124: MUL.R, in both forms and for every offset, loads `ClampR(ClampP(x[r] × C[k]))`, with the old `x[r]`, into `x[w]` and
changes nothing else. -/
def Obligations.MulRLoadsProduct : Prop :=
  ∀ (s : State) (c : Ctrl) (w : RegIx) (r : SrcIx) (k : CoefIx) (off : Offset),
    ∃ t, exec (.mulR c w r k off) s = .next t ∧ exec (.mulRSentinel w r k off) s = .next t ∧
      t.reg w = clamp (clamp (fmul (s.reg (r.setWidth 3)) (s.coef k)) s.params.prodClamp) s.params.regClamp ∧
      (∀ i, i ≠ w → t.reg i = s.reg i) ∧ (∀ a, t.memRead a = s.memRead a) ∧ t = { s with x := t.x }

/-- R125: MULW.R loads the product of the old `x[r]` and then stores `SoftLimit(x[w]) × damping` at the read position. -/
def Obligations.MulwRLoadsAndStores : Prop :=
  ∀ (s : State) (c : Ctrl) (w : RegIx) (r : SrcIx) (k : CoefIx) (off : Offset), s.mem.wf = true →
    ∃ t, exec (.mulwR c w r k off) s = .next t ∧
      t.reg w = clamp (clamp (fmul (s.reg (r.setWidth 3)) (s.coef k)) s.params.prodClamp) s.params.regClamp ∧
      (∀ i, i ≠ w → t.reg i = s.reg i) ∧
      t.memRead (s.readPos off) = fmul (softLimit s.params.softT s.params.softC (t.reg w)) s.damping ∧
      (∀ a, a ≠ s.readPos off → t.memRead a = s.memRead a) ∧ t = { s with x := t.x, mem := t.mem }

/-- R126: MAC.R, in both forms and for every offset, loads `ClampR(x[w] + ClampP(x[r] × C[k]))`, with the old `x[r]`, into `x[w]`
and changes nothing else. -/
def Obligations.MacRAccumulatesProduct : Prop :=
  ∀ (s : State) (c : Ctrl) (w : RegIx) (r : SrcIx) (k : CoefIx) (off : Offset),
    ∃ t, exec (.macR c w r k off) s = .next t ∧ exec (.macRSentinel w r k off) s = .next t ∧
      t.reg w = clamp (fadd (s.reg w)
        (clamp (fmul (s.reg (r.setWidth 3)) (s.coef k)) s.params.prodClamp)) s.params.regClamp ∧
      (∀ i, i ≠ w → t.reg i = s.reg i) ∧ (∀ a, t.memRead a = s.memRead a) ∧ t = { s with x := t.x }

/-- R127: MACW.R accumulates the product of the old `x[r]` and then stores `SoftLimit(x[w]) × damping` at the read position. -/
def Obligations.MacwRAccumulatesAndStores : Prop :=
  ∀ (s : State) (c : Ctrl) (w : RegIx) (r : SrcIx) (k : CoefIx) (off : Offset), s.mem.wf = true →
    ∃ t, exec (.macwR c w r k off) s = .next t ∧
      t.reg w = clamp (fadd (s.reg w)
        (clamp (fmul (s.reg (r.setWidth 3)) (s.coef k)) s.params.prodClamp)) s.params.regClamp ∧
      (∀ i, i ≠ w → t.reg i = s.reg i) ∧
      t.memRead (s.readPos off) = fmul (softLimit s.params.softT s.params.softC (t.reg w)) s.damping ∧
      (∀ a, a ≠ s.readPos off → t.memRead a = s.memRead a) ∧ t = { s with x := t.x, mem := t.mem }

/-! ### Taps and no-ops -/

/-- R140, R141: NOP and SKIP complete and change no state at all. -/
def Obligations.NopAndSkipChangeNothing : Prop :=
  ∀ (s : State) (c : Ctrl) (w : RegIx) (off : Offset),
    exec (.nop off) s = .next s ∧ exec (.skip c w off) s = .next s

/-- R142: RDT copies `M[p]`, clamped, into `x[w]` and changes nothing else. -/
def Obligations.RdtCopiesMemory : Prop :=
  ∀ (s : State) (c : Ctrl) (w : RegIx) (off : Offset),
    ∃ t, exec (.rdt c w off) s = .next t ∧ t.reg w = clamp (s.memRead (s.readPos off)) s.params.regClamp ∧
      (∀ i, i ≠ w → t.reg i = s.reg i) ∧ (∀ a, t.memRead a = s.memRead a) ∧ t = { s with x := t.x }

/-- R143: WRT stores `SoftLimit(x[w]) × damping` at the read position and changes nothing else, no register either. -/
def Obligations.WrtStoresRegister : Prop :=
  ∀ (s : State) (c : Ctrl) (w : RegIx) (off : Offset), s.mem.wf = true →
    ∃ t, exec (.wrt c w off) s = .next t ∧
      t.memRead (s.readPos off) = fmul (softLimit s.params.softT s.params.softC (s.reg w)) s.damping ∧
      (∀ a, a ≠ s.readPos off → t.memRead a = s.memRead a) ∧ t = { s with mem := t.mem }

/-- R66: a write tap and a read tap of the same offset inside one sample meet at the same index. -/
def Obligations.WriteThenReadTapSameOffset : Prop :=
  ∀ (s : State) (c c' : Ctrl) (w w' : RegIx) (off : Offset), s.mem.wf = true →
    ∃ t u, exec (.wrt c w off) s = .next t ∧ exec (.rdt c' w' off) t = .next u ∧
      u.reg w' = clamp (fmul (softLimit s.params.softT s.params.softC (s.reg w)) s.damping) s.params.regClamp

/-- R67, R200: while the delay memory reads 0.0 everywhere, as after Reset, a read tap loads 0.0, whatever its offset, the write
pointer and the LFO. -/
def Obligations.ColdMemoryReadsZero : Prop :=
  ∀ (s : State) (c : Ctrl) (w : RegIx) (off : Offset), positive s.params.regClamp = true → (∀ a, s.memRead a = fzero) →
    ∃ t, exec (.rdt c w off) s = .next t ∧ t.reg w = fzero

/-! ### The step pipeline -/

/-- R110: the instruction a word decodes to does what the spec's one procedure `Exec` does with the decoded step. -/
def Obligations.MeaningsRefineSpecExec : Prop :=
  ∀ (s : State) (w : Word),
    exec (decode s.params.decode w) s = .next (State.execStep (decodeStep s.params.decode w) s)

/-- R53: `MemWrite` sets one index; whatever an instruction changes in the delay memory, it stores the limited and damped value of
its write-address register, as it leaves it. -/
def Obligations.StoresAreLimitedAndDamped : Prop :=
  ∀ (s : State), s.mem.wf = true →
    (∀ (p : Nat) (v : Sample) (a : Nat), (s.memWrite p v).memRead a = if a = p then v else s.memRead a) ∧
    ∀ (w : Word) (t : State), exec (decode s.params.decode w) s = .next t →
      ∀ a, t.memRead a = s.memRead a ∨
        t.memRead a = fmul (softLimit s.params.softT s.params.softC (t.reg w.waddr)) s.damping

/-- R115: an instruction writes no register but the one its write address names, and that one is unchanged or clamped by ClampR. -/
def Obligations.RegisterWritesClamp : Prop :=
  ∀ (s t : State) (w : Word), exec (decode s.params.decode w) s = .next t →
    (∀ i, i ≠ w.waddr → t.reg i = s.reg i) ∧
    (t.reg w.waddr = s.reg w.waddr ∨ ∃ v, t.reg w.waddr = clamp v s.params.regClamp)

/-- R50, R104: the read position is the Euclidean remainder of `wp - off` by N. -/
def Obligations.ReadPositionIsEuclidean : Prop :=
  ∀ (s : State) (off : Offset), 0 < s.cfg.n →
    s.readPos off < s.cfg.n ∧ ∃ z : Int, (s.wp : Int) - s.effOffset off = z * s.cfg.n + s.readPos off

/-- R100 to R102: the raw offset times SCALE, with `LFO_DEPTH × lfoValue` added exactly for an offset above LONG_THRESHOLD; so the
LFO moves no other tap. -/
def Obligations.LfoMovesOnlyLongTaps : Prop :=
  ∀ (s : State) (off : Offset),
    (s.params.longThreshold.toNat < off.toNat →
      s.scaledOffset off = fadd (fmul (ofNat off.toNat) s.cfg.scale) (fmul s.params.lfoDepth s.lfoValue)) ∧
    (off.toNat ≤ s.params.longThreshold.toNat →
      s.scaledOffset off = fmul (ofNat off.toNat) s.cfg.scale ∧
      ∀ v : Sample, State.readPos { s with lfoValue := v } off = s.readPos off)

/-- R100, R103: at the hardware's own rate (SCALE = 1.0) the effective offset of a tap that is not long is its raw offset. -/
def Obligations.HardwareRateOffsetsAreExact : Prop :=
  ∀ (s : State) (off : Offset), s.cfg.scale = fone → off.toNat ≤ s.params.longThreshold.toNat →
    s.effOffset off = off.toNat

/-- R66: the position a tap of offset `off` names is, `d` samples later, the position of offset `off + d`. -/
def Obligations.DelayIsOffsetDifference : Prop :=
  ∀ (n wp d : Nat) (off : Int), 0 < n → wrapPos n ((wp + d) % n) (off + d) = wrapPos n wp off

/-! ### Numbers -/

/-- R9: `round_half_even` of a finite value is the nearest integer, and the even one of two equally near. -/
def Obligations.RoundHalfEvenIsNearest : Prop :=
  ∀ v : Sample, isFinite v = true →
    2 * (units v - roundHalfEven v * oneUnits).natAbs ≤ oneUnits ∧
    (2 * (units v - roundHalfEven v * oneUnits).natAbs = oneUnits → roundHalfEven v % 2 = 0)

/-- R9: the rounding of every operation is to the nearest binary64 magnitude, and to the one of even encoding of two equally near. -/
def Obligations.RoundingIsToNearestEven : Prop :=
  ∀ a b : Nat, 0 < b → roundMag a b < infMag → ∀ m : Nat, m < infMag → m ≠ roundMag a b →
    ((a : Int) - magUnits (roundMag a b) * b).natAbs ≤ ((a : Int) - magUnits m * b).natAbs ∧
    (((a : Int) - magUnits (roundMag a b) * b).natAbs = ((a : Int) - magUnits m * b).natAbs → roundMag a b % 2 = 0)

/-- R9: the sum, the product and the quotient of finite values are, where finite, as near to the exact result as any finite value
is. -/
def Obligations.ArithmeticIsNearest : Prop :=
  ∀ a b c : Sample, isFinite a = true → isFinite b = true → isFinite c = true →
    (isFinite (fadd a b) = true →
      (units a + units b - units (fadd a b)).natAbs ≤ (units a + units b - units c).natAbs) ∧
    (isFinite (fmul a b) = true →
      (units a * units b - units (fmul a b) * oneUnits).natAbs ≤ (units a * units b - units c * oneUnits).natAbs) ∧
    (isZero b = false → isFinite (fdiv a b) = true →
      (units a * oneUnits - units (fdiv a b) * units b).natAbs ≤ (units a * oneUnits - units c * units b).natAbs)

/-- R106: SoftLimit is the identity up to and including the threshold, and odd, for `0 <= SOFT_T < SOFT_C`, both finite. -/
def Obligations.SoftLimitIsOddAndIdentityBelowThreshold : Prop :=
  ∀ t c v : Sample, isFinite t = true → isFinite c = true → fle fzero t = true → flt t c = true → isNaN v = false →
    (fle (fabs v) t = true → softLimit t c v = v) ∧ softLimit t c (fneg v) = fneg (softLimit t c v)

/-- R106: with the default threshold and ceiling the limited value of any number has magnitude at most SOFT_C = 1.0. R106 says
below SOFT_C; that the model says at most, and the range of tanh it leans on, are the model's choice (log 6). -/
def Obligations.SoftLimitIsAtMostCeiling : Prop :=
  ∀ v : Sample, isNaN v = false →
    fle (fabs (softLimit defaultParams.softT defaultParams.softC v)) defaultParams.softC = true

/-! ### The sequencer -/

/-- R23, R110, R174: a running engine's step is the meaning of the instruction its program word at `pc` decodes to, after the
injection and before the capture and the advance. -/
def Obligations.StepRunsDecodedInstruction : Prop :=
  ∀ (s t : State) (i : Instr), s.job ≠ .idle → decode s.params.decode s.cfg.program[s.pc] = i →
    exec i s.inject = .next t → step s = .next t.capture.advance

/-- R112, R213: a running engine's step always has a next state; it never faults and is never refused. -/
def Obligations.NoStepOfAProgramStops : Prop :=
  ∀ s : State, s.job ≠ .idle → ∃ t, step s = .next t

/-- R24: `pc` advances by exactly 1 after every step and goes from 127 to 0; no instruction writes it. -/
def Obligations.StepIndexAdvancesByOne : Prop :=
  (∀ s t : State, s.job ≠ .idle → step s = .next t → t.pc.val = (s.pc.val + 1) % 128) ∧
  ∀ (i : Instr) (s t : State), exec i s = .next t → t.pc = s.pc

/-- R169: after step 127 the write pointer is `(wp + 1) mod N`; every other step leaves it as it is. -/
def Obligations.WritePointerAdvancesOncePerSample : Prop :=
  ∀ s t : State, s.job ≠ .idle → step s = .next t →
    t.wp = if s.pc = 127 then (s.wp + 1) % s.cfg.n else s.wp

/-- R170: after step 127 the LFO phase grows by LFO_RATE_HZ / fs, less 1.0 from 1.0 on, and the value is the sine of it; every other
step leaves both as they are. -/
def Obligations.LfoAdvancesOncePerSample : Prop :=
  ∀ s t : State, s.job ≠ .idle → step s = .next t →
    let ph := fadd s.lfoPhase (fdiv s.params.lfoRateHz s.cfg.fs)
    t.lfoPhase = (if s.pc = 127 then (if fle fone ph = true then fsub ph fone else ph) else s.lfoPhase) ∧
    t.lfoValue = (if s.pc = 127 then fsin (fmul twoPi t.lfoPhase) else s.lfoValue)

/-- R28, R29, R170: for `0 <= LFO_RATE_HZ < fs` the phase stays in [0, 1), and the value computed from it is in [-1, 1]. -/
def Obligations.LfoStaysInRange : Prop :=
  ∀ phase rate fs : Sample, inUnitInterval phase = true → isFinite fs = true → fle fzero rate = true → flt rate fs = true →
    inUnitInterval (nextPhase phase rate fs) = true ∧ withinBound fone (lfoWave (nextPhase phase rate fs)) = true

/-- R161, R163: before step 0 the left input, clamped, replaces the input register, before step 64 the right one; no other register
changes, and before any other step none does. -/
def Obligations.InputInjection : Prop :=
  ∀ s : State,
    (s.pc = 0 → s.inject.reg s.params.inputReg = clamp s.inL s.params.regClamp) ∧
    (s.pc = 64 → s.inject.reg s.params.inputReg = clamp s.inR s.params.regClamp) ∧
    (∀ i, i ≠ s.params.inputReg → s.inject.reg i = s.reg i) ∧
    (s.pc ≠ 0 → s.pc ≠ 64 → s.inject = s) ∧ s.inject = { s with x := s.inject.x }

/-- R165, R168: a running engine's step at the output step of its half leaves in that half's latch the capture register as the step
itself left it; every other step leaves both latches as they are. -/
def Obligations.OutputCapture : Prop :=
  ∀ s t u : State, s.job ≠ .idle → exec s.fetch s.inject = .next t → step s = .next u →
    u.outL = (if s.pc.val < 64 ∧ s.pc = s.cfg.outSteps.left then t.reg (s.captureReg s.pc) else s.outL) ∧
    u.outR = (if 64 ≤ s.pc.val ∧ s.pc = s.cfg.outSteps.right then t.reg (s.captureReg s.pc) else s.outR)

/-- R168: the capture register is the write address of the output step's word, which is x7 for a NOP, or the fixed register of the
other capture mode. -/
def Obligations.CaptureRegisterOfOutputStep : Prop :=
  ∀ (s : State) (i : Fin 128),
    (s.params.captureMode = .stepWaddr → s.captureReg i = BitVec.ofNat 3 ((s.programWord i).toNat / 2 ^ 24) ∧
      ((s.decoded i).isNop = true → s.captureReg i = 7#3)) ∧
    ∀ r, s.params.captureMode = .fixed r → s.captureReg i = r

/-- R31, R160, R174: 128 steps from step 0 are one `Tick` of the spec's procedure on the inputs held, followed by what the running job
does with its outputs; a Tick of the host returns them and leaves the engine idle; and an accepted Tick call starts at step 0 with
its two inputs. That the injections, the captures and what the job does are grouped into these steps, and that a step accepts the
call, is the model's choice (log 12). -/
def Obligations.TickIsOneHundredTwentyEightSteps : Prop :=
  (∀ s : State, s.job ≠ .idle → s.pc = 0 → After 128 s (State.tick s.inL s.inR s).jobNext ∧
    (s.job = .tick →
      let u := State.tick s.inL s.inR s
      After 128 s { u with job := .idle, ret := some (.sample u.outL u.outR) })) ∧
  ∀ (s : State) (inL inR : Sample) (rest : List HostCall), s.job = .idle → s.calls = .tick inL inR :: rest →
    step s = .next { s with calls := rest, inL := inL, inR := inR, pc := 0, job := .tick } ∧
    let u := State.tick inL inR s
    After 129 s { u with
      calls := rest, inL := inL, inR := inR, job := .idle, ret := some (.sample u.outL u.outR) }

/-! ### Invariants -/

/-- R20, R25, R27: every step keeps the delay memory canonical and inside [0, N) and the write pointer in [0, N). -/
def Obligations.StepKeepsMemoryAndPointerSound : Prop :=
  ∀ s t : State, s.Sound → step s = .next t → t.Sound

/-- R41: the state after reset has that invariant. -/
def Obligations.ResetIsSound : Prop := State.reset.Sound

/-- R21, R116: where the coefficients, the damping and the inputs are finite, a running engine's step keeps every register in
[-REG_CLAMP, REG_CLAMP] and every memory value finite. R116 takes for granted that the limiter's peak times the damping is finite; the
model says so in the hypothesis (log 20). -/
def Obligations.StepKeepsValuesBounded : Prop :=
  ∀ s t : State, s.job ≠ .idle → s.Bounded → isFinite s.inL = true → isFinite s.inR = true → step s = .next t → t.Bounded

/-- R41, R116: the state after reset has that invariant. Its parameters, coefficients and damping are the model's choice (logs 8 to
10). -/
def Obligations.ResetIsBounded : Prop := State.reset.Bounded

/-- R32, R33, R34, R35: no step writes the configuration, the program with it, but the acceptance of a Construct call; and the
coefficients and the damping stay constant while an engine runs. -/
def Obligations.ConfigurationAndRenderInputsAreHeld : Prop :=
  ∀ s t : State, step s = .next t →
    t.params = s.params ∧ (t.cfg = s.cfg ∨ (s.job = .idle ∧ ∃ i fs rest, s.calls = .construct i fs :: rest)) ∧
    (s.job ≠ .idle → t.coefs = s.coefs ∧ t.damping = s.damping ∧ t.calls = s.calls)

/-! ### Host operations -/

/-- R222: between host calls the engine does nothing and its state persists unchanged. -/
def Obligations.IdleEngineDoesNothing : Prop :=
  ∀ s : State, s.job = .idle → s.calls = [] → step s = .next s

/-- R182: Reset zeroes the delay memory, the registers, the write pointer, the LFO, the step index and the latches; it changes no
configuration and cannot fault. -/
def Obligations.ResetClearsEngine : Prop :=
  ∀ (s : State) (rest : List HostCall), s.job = .idle → s.calls = .reset :: rest →
    ∃ t, step s = .next t ∧ (∀ a, t.memRead a = fzero) ∧ (∀ i, t.reg i = fzero) ∧ t.wp = 0 ∧ t.lfoPhase = fzero ∧
      t.lfoValue = fzero ∧ t.pc = 0 ∧ t.outL = fzero ∧ t.outR = fzero ∧ t.cfg = s.cfg ∧ t.params = s.params ∧
      t.job = .idle ∧ t.calls = rest

/-- R73, R180, R211, R233: Construct refuses, by the name of a condition that fails, parameters outside R233 and a BYTE2_LAYOUT that
does not fill the coefficient byte of R73; else it faults on an index that is no integer in [0, 5], and else on a sample rate that is
not finite and above 0; else it refuses a rate at which a condition of R233 fails or N is 0, and else it completes. These are the
model's: that a layout which does not fill the byte is refused (R233 does not list it; log 13), that N = 0 is refused (log 16), that a
floating-point index which equals an integer counts as it (log 26), and that the conditions on the parameters alone are checked before
the arguments (log 19). Which condition is named where several fail is the model's too (log 19), and this does not fix it. -/
def Obligations.ConstructPreconditions : Prop :=
  ∀ (s : State) (i : ProgramIndex) (fs : Sample) (rest : List HostCall), s.job = .idle → s.calls = .construct i fs :: rest →
    let good := ∃ z : Int, 0 ≤ z ∧ z ≤ 5 ∧ (i = .int z ∨ ∃ v, i = .float v ∧ isFinite v = true ∧ units v = z * oneUnits)
    let rate := isFinite fs = true ∧ flt fzero fs = true
    ((∃ r ∈ parameterRefusals, Violates s.params fs r) →
      ∃ r ∈ parameterRefusals, Violates s.params fs r ∧ step s = .refused r) ∧
    ((∀ r ∈ parameterRefusals, ¬Violates s.params fs r) →
      (¬good → step s = .fault (.programIndex i)) ∧
      (good → ¬rate → step s = .fault (.sampleRate fs)) ∧
      (good → rate → (∃ r ∈ rateRefusals, Violates s.params fs r) →
        ∃ r ∈ rateRefusals, Violates s.params fs r ∧ step s = .refused r) ∧
      (good → rate → (∀ r ∈ rateRefusals, ¬Violates s.params fs r) → ∃ t, step s = .next t))

/-- R26, R34, R181: Construct sets the configuration from the program table and the sample rate and leaves the engine in the reset
state. Its premise asks, beside R233, for a layout that fills the coefficient byte (log 13) and an N that is not 0 (log 16), and that a
floating-point index which equals an integer counts as it is log 26: these three are the model's. -/
def Obligations.ConstructMakesResetEngine : Prop :=
  ∀ (s : State) (p : ProgramIndex) (i : Fin 6) (fs : Sample) (rest : List HostCall), s.job = .idle →
    s.calls = .construct p fs :: rest →
    (p = .int i.val ∨ ∃ v, p = .float v ∧ isFinite v = true ∧ units v = (i.val : Int) * oneUnits) →
    isFinite fs = true → flt fzero fs = true → (∀ r, ¬Violates s.params fs r) →
    ∃ t, step s = .next t ∧ t.cfg.programIndex = i ∧ t.cfg.fs = fs ∧ t.cfg.program = s.params.programs[i] ∧
      t.cfg.scale = fdiv fs (ofNat 20480) ∧
      t.cfg.n = (roundHalfEven (fmul (ofNat 65536) t.cfg.scale)).toNat + s.params.margin ∧
      t.cfg.outSteps = (s.params.outSteps[i]).getD { left := 63, right := 127 } ∧
      (∀ a, t.memRead a = fzero) ∧ (∀ r, t.reg r = fzero) ∧ t.wp = 0 ∧ t.lfoPhase = fzero ∧ t.lfoValue = fzero ∧ t.pc = 0 ∧
      t.outL = fzero ∧ t.outR = fzero ∧ t.params = s.params

/-- R210, R211: RenderImpulse reports the first of its failed preconditions in the order of R211, and faults on no other ground. -/
def Obligations.ImpulsePreconditionsInOrder : Prop :=
  ∀ (s : State) (a : ImpulseArgs) (rest : List HostCall), s.job = .idle → s.calls = .renderImpulse a :: rest →
    (a.coefficients.length ≠ 16 → step s = .fault (.coefLength a.coefficients.length)) ∧
    (a.coefficients.length = 16 →
      (∀ k, k < 16 → isFinite (sampleAt a.coefficients k) = false →
        (∀ j, j < k → isFinite (sampleAt a.coefficients j) = true) → step s = .fault (.coefValue k)) ∧
      ((∀ k, k < 16 → isFinite (sampleAt a.coefficients k) = true) →
        step s =
          (if isFinite a.durationSeconds = false ∨ flt a.durationSeconds fzero = true then .fault (.duration a.durationSeconds)
          else if isFinite a.rolloffHz = false ∨ fle a.rolloffHz fzero = true then .fault (.rolloff a.rolloffHz)
          else if isFinite a.preDelayMs = false ∨ flt a.preDelayMs fzero = true then .fault (.preDelay a.preDelayMs)
          else if isFinite a.inputGain = false ∨ feq a.inputGain fzero = true then .fault (.gain a.inputGain)
          else if isFinite (a.damping.getD fone) = false then .fault (.damping (a.damping.getD fone))
          else .next (State.impulseNext (State.beginRender { s with calls := rest } a.coefficients (a.damping.getD fone))
            (a.start s.cfg.fs)))))

/-- R193, R195, R210, R211: RenderSweepDeconvolved reports the first of its failed preconditions in the order of R211, the test of
`S` last, and faults on no other ground. -/
def Obligations.SweepPreconditionsInOrder : Prop :=
  ∀ (s : State) (a : SweepArgs) (rest : List HostCall), s.job = .idle → s.calls = .renderSweep a :: rest →
    let ns := roundHalfEven (fmul a.sweepDurationSeconds s.cfg.fs)
    (a.coefficients.length ≠ 16 → step s = .fault (.coefLength a.coefficients.length)) ∧
    (a.coefficients.length = 16 →
      (∀ k, k < 16 → isFinite (sampleAt a.coefficients k) = false →
        (∀ j, j < k → isFinite (sampleAt a.coefficients j) = true) → step s = .fault (.coefValue k)) ∧
      ((∀ k, k < 16 → isFinite (sampleAt a.coefficients k) = true) →
        step s =
          (if isFinite a.durationSeconds = false ∨ flt a.durationSeconds fzero = true then .fault (.duration a.durationSeconds)
          else if isFinite a.rolloffHz = false ∨ fle a.rolloffHz fzero = true then .fault (.rolloff a.rolloffHz)
          else if isFinite a.sweepDurationSeconds = false ∨ ns < 2 then .fault (.sweep ns)
          else if isFinite a.sweepLevel = false ∨ feq a.sweepLevel fzero = true then .fault (.sweepLevel a.sweepLevel)
          else if isFinite a.damping = false then .fault (.damping a.damping)
          else if feq (s.sweepBand a).invSum fzero = true then .fault (.sweep ns)
          else .next (State.sweepNext (State.beginRender { s with calls := rest } a.coefficients a.damping)
            (a.start s.params s.cfg.fs)))))

/-- R210, R213: only a host operation faults: a step that faults is the acceptance of a Construct or of a render by an idle engine,
and a refused step is the acceptance of a Construct. -/
def Obligations.OnlyHostCallsStop : Prop :=
  ∀ s : State,
    (∀ f, step s = .fault f → s.job = .idle ∧ ∃ c rest, s.calls = c :: rest ∧
      ((∃ i fs, c = .construct i fs ∧ (f = .programIndex i ∨ f = .sampleRate fs)) ∨ (∃ a, c = .renderImpulse a) ∨
        ∃ a, c = .renderSweep a)) ∧
    ∀ r, step s = .refused r → s.job = .idle ∧ ∃ i fs rest, s.calls = .construct i fs :: rest

/-- R183: a render that is accepted has reset the engine before its first Tick and holds its coefficients and damping. -/
def Obligations.RenderBeginsWithReset : Prop :=
  ∀ (s t : State) (c : HostCall) (rest : List HostCall), s.job = .idle → s.calls = c :: rest →
    ((∃ a, c = .renderImpulse a) ∨ ∃ a, c = .renderSweep a) → step s = .next t →
    (∀ a, t.memRead a = fzero) ∧ (∀ i, t.reg i = fzero) ∧ t.wp = 0 ∧ t.lfoPhase = fzero ∧ t.lfoValue = fzero ∧ t.pc = 0 ∧
      t.outL = fzero ∧ t.outR = fzero ∧ t.cfg = s.cfg ∧
      (∀ a, c = .renderImpulse a → t.damping = a.damping.getD fone ∧ ∀ k : CoefIx, t.coef k = sampleAt a.coefficients k.toNat) ∧
      ∀ a, c = .renderSweep a → t.damping = a.damping ∧ ∀ k : CoefIx, t.coef k = sampleAt a.coefficients k.toNat

/-- R184 to R191, R201, R202: a RenderImpulse whose preconditions pass runs Nout Ticks of 128 steps, never stops, and returns the two
channels of Nout Samples that the loop of R185 gives, leaving the engine as the loop does. The one step before them is the acceptance
of the call, the model's choice (log 12). -/
def Obligations.ImpulseRenderReturnsTwoChannels : Prop :=
  ∀ (s : State) (a : ImpulseArgs) (rest : List HostCall), s.job = .idle → s.calls = .renderImpulse a :: rest → a.fault = none →
    let nout := (roundHalfEven (fmul a.durationSeconds s.cfg.fs)).toNat
    let v := s.impulseProcedure a
    v.left.length = nout ∧ v.right.length = nout ∧
    ∃ t, After (1 + 128 * nout) s t ∧
      t = { v.engine with
        job := .idle, calls := rest, inL := t.inL, inR := t.inR, ret := some (.buffers v.left v.right) }

/-- R184, R192 to R197, R201, R202: a RenderSweepDeconvolved either faults at once or runs Ns + Nout - 1 Ticks of 128 steps, never
stops, and returns the two channels of Nout Samples that R192 gives: the raw outputs of its loop, deconvolved and divided by
sweepLevel. It leaves the engine as the loop does. The one step before them is the acceptance of the call, the model's choice
(log 12). Its faults are those of SweepPreconditionsInOrder. -/
def Obligations.SweepRenderReturnsTwoChannels : Prop :=
  ∀ (s : State) (a : SweepArgs) (rest : List HostCall), s.job = .idle → s.calls = .renderSweep a :: rest →
    match a.fault s.params s.cfg.fs with
    | some f => step s = .fault f
    | none =>
      let nout := (roundHalfEven (fmul a.durationSeconds s.cfg.fs)).toNat
      let b := s.sweepBand a
      let v := s.sweepProcedure a
      let l := b.channel nout a.sweepLevel v.yL
      let r := b.channel nout a.sweepLevel v.yR
      2 ≤ b.ns ∧ v.yL.length = b.ns + nout - 1 ∧ v.yR.length = b.ns + nout - 1 ∧ l.length = nout ∧ r.length = nout ∧
      ∃ t, After (1 + 128 * (b.ns + nout - 1)) s t ∧
        t = { v.engine with job := .idle, calls := rest, inL := t.inL, inR := t.inR, ret := some (.buffers l r) }

/-- R12, R183, R204: two engines of the same parameters and configuration that accept the same render run through the same states,
whatever each held before: while the render runs they differ at most in what an earlier call returned, and when it is done both
have returned the same two buffers. (A render of no sample leaves the inputs as they were held, so those may differ then.) -/
def Obligations.RendersAreRepeatable : Prop :=
  ∀ (s t s' : State) (c : HostCall) (k : Nat), SameEngine s t → s.job = .idle → t.job = .idle → s.calls = [c] → t.calls = [c] →
    ((∃ a, c = .renderImpulse a) ∨ ∃ a, c = .renderSweep a) → After (k + 1) s s' →
    ∃ t', After (k + 1) t t' ∧
      (s'.job ≠ .idle → t' = { s' with ret := t'.ret }) ∧
      (s'.job = .idle → t' = { s' with inL := t'.inL, inR := t'.inR } ∧
        ∃ l r, s'.ret = some (.buffers l r) ∧ t'.ret = some (.buffers l r))

/-- R188: the pre-delay line of `d` zeros gives back what enters it `d` samples later, and 0.0 before. -/
def Obligations.PreDelayIsFifo : Prop :=
  ∀ (d : Nat) (xs : List Sample),
    (xs.foldl (fun acc v => (acc.1 ++ [(preDelay acc.2 v).1], (preDelay acc.2 v).2)) (([] : List Sample), List.replicate d fzero)).1 =
      (List.replicate d fzero ++ xs).take xs.length

/-- R196: `Deconvolve` returns Nout Samples, entry `k` being the sum, in increasing m from 0 to Ns - 1, of
`inv[m] × y[Ns-1+k-m]`; and it reads no raw output but the first Ns + Nout - 1: signals that agree there give the same result. That
the sum starts from +0.0 is the model's choice (log 17). -/
def Obligations.DeconvolveSumsCapturedSamples : Prop :=
  ∀ (y y' inv : List Sample) (ns nout : Nat), 0 < ns →
    (deconvolve y inv ns nout).length = nout ∧
    (∀ k, k < nout →
      sampleAt (deconvolve y inv ns nout) k =
        (List.range ns).foldl (fun acc m => fadd acc (fmul (sampleAt inv m) (sampleAt y (ns - 1 + k - m)))) fzero) ∧
    ((∀ i, i < ns + nout - 1 → sampleAt y i = sampleAt y' i) → deconvolve y inv ns nout = deconvolve y' inv ns nout)
end

