-- ==== Sys2Proof/Laws/Decode.lean ====
section
/-!
SUPPORT. The laws of the encoding's fields: the groups of a word are what they were joined from, a word is the join of its groups,
and under a valid layout the coefficient byte and its four fields determine each other.
-/

namespace Sys2Proof

/-! ### The groups of a word -/

theorem toNat_joinWord (c : Ctrl) (w : RegIx) (b : BitVec 8) (o : Offset) :
    (joinWord c w b o).toNat = c.toNat * 2 ^ 27 + w.toNat * 2 ^ 24 + b.toNat * 2 ^ 16 + o.toNat := by
  have := c.isLt; have := w.isLt; have := b.isLt; have := o.isLt
  unfold joinWord
  rw [BitVec.toNat_ofNat, Nat.mod_eq_of_lt]
  omega

theorem toNat_ctrl (v : Word) : (Word.ctrl v).toNat = v.toNat / 2 ^ 27 := by
  have := v.isLt
  simp only [Word.ctrl, BitVec.extractLsb'_toNat, Nat.shiftRight_eq_div_pow]
  omega

theorem toNat_waddr (v : Word) : (Word.waddr v).toNat = v.toNat / 2 ^ 24 % 8 := by
  simp only [Word.waddr, BitVec.extractLsb'_toNat, Nat.shiftRight_eq_div_pow]

theorem toNat_coefByte (v : Word) : (Word.coefByte v).toNat = v.toNat / 2 ^ 16 % 256 := by
  simp only [Word.coefByte, BitVec.extractLsb'_toNat, Nat.shiftRight_eq_div_pow]

theorem toNat_controlByte (v : Word) : (Word.controlByte v).toNat = v.toNat / 2 ^ 24 := by
  have := v.isLt
  simp only [Word.controlByte, BitVec.extractLsb'_toNat, Nat.shiftRight_eq_div_pow]
  omega

theorem toNat_offset (v : Word) : (Word.offset v).toNat = v.toNat % 2 ^ 16 := by
  simp only [Word.offset, BitVec.extractLsb'_toNat, Nat.shiftRight_eq_div_pow]
  omega

@[simp] theorem joinWord_ctrl (c : Ctrl) (w : RegIx) (b : BitVec 8) (o : Offset) : Word.ctrl (joinWord c w b o) = c := by
  have := c.isLt; have := w.isLt; have := b.isLt; have := o.isLt
  apply BitVec.eq_of_toNat_eq
  rw [toNat_ctrl, toNat_joinWord]; omega

@[simp] theorem joinWord_waddr (c : Ctrl) (w : RegIx) (b : BitVec 8) (o : Offset) : Word.waddr (joinWord c w b o) = w := by
  have := c.isLt; have := w.isLt; have := b.isLt; have := o.isLt
  apply BitVec.eq_of_toNat_eq
  rw [toNat_waddr, toNat_joinWord]; omega

@[simp] theorem joinWord_coefByte (c : Ctrl) (w : RegIx) (b : BitVec 8) (o : Offset) :
    Word.coefByte (joinWord c w b o) = b := by
  have := c.isLt; have := w.isLt; have := b.isLt; have := o.isLt
  apply BitVec.eq_of_toNat_eq
  rw [toNat_coefByte, toNat_joinWord]; omega

@[simp] theorem joinWord_offset (c : Ctrl) (w : RegIx) (b : BitVec 8) (o : Offset) : Word.offset (joinWord c w b o) = o := by
  have := c.isLt; have := w.isLt; have := b.isLt; have := o.isLt
  apply BitVec.eq_of_toNat_eq
  rw [toNat_offset, toNat_joinWord]; omega

/-- A word is the join of its groups. -/
theorem joinWord_fields (v : Word) : joinWord v.ctrl v.waddr v.coefByte v.offset = v := by
  have := v.isLt
  apply BitVec.eq_of_toNat_eq
  rw [toNat_joinWord, toNat_ctrl, toNat_waddr, toNat_coefByte, toNat_offset]
  omega

/-- The control byte is all ones exactly when the control field and the write address are. -/
theorem controlByte_allOnes (v : Word) : (v.controlByte == 255#8) = controlAllOnes v.ctrl v.waddr := by
  have := v.isLt
  unfold controlAllOnes
  rw [Bool.eq_iff_iff]
  simp only [beq_iff_eq, Bool.and_eq_true, ← BitVec.toNat_inj, toNat_controlByte, toNat_ctrl, toNat_waddr]
  simp only [BitVec.toNat_ofNat]
  omega

/-! ### The coefficient byte -/

/-- The four fields fill the byte in one of 24 orders. -/
def layouts : List Byte2Layout :=
  [ ⟨0, 4, 5, 7⟩, ⟨0, 4, 6, 5⟩, ⟨0, 6, 4, 7⟩, ⟨0, 7, 4, 6⟩, ⟨0, 5, 6, 4⟩, ⟨0, 7, 5, 4⟩,
    ⟨1, 0, 5, 7⟩, ⟨1, 0, 6, 5⟩, ⟨1, 5, 6, 0⟩, ⟨1, 7, 5, 0⟩, ⟨2, 6, 0, 7⟩, ⟨2, 7, 0, 6⟩,
    ⟨2, 0, 6, 1⟩, ⟨2, 1, 6, 0⟩, ⟨3, 0, 1, 7⟩, ⟨3, 7, 1, 0⟩, ⟨3, 2, 0, 7⟩, ⟨3, 7, 0, 2⟩,
    ⟨4, 0, 1, 3⟩, ⟨4, 3, 1, 0⟩, ⟨4, 2, 0, 3⟩, ⟨4, 3, 0, 2⟩, ⟨4, 0, 2, 1⟩, ⟨4, 1, 2, 0⟩ ]

theorem Byte2Layout.mem_layouts_fin : ∀ a b c d : Fin 8,
    Byte2Layout.valid ⟨a, b, c, d⟩ = true → (⟨a, b, c, d⟩ : Byte2Layout) ∈ layouts := by decide +kernel

/-- A valid layout is one of the 24. -/
theorem Byte2Layout.mem_layouts {l : Byte2Layout} (h : l.valid = true) : l ∈ layouts :=
  Byte2Layout.mem_layouts_fin l.coefLo l.accLo l.raddrLo l.rsrcLo h

theorem Byte2Layout.pack_fields_fin : ∀ l ∈ layouts, ∀ b : Fin 256,
    l.pack (l.coefOf (BitVec.ofFin b)) (l.accOf (BitVec.ofFin b)) (l.raddrOf (BitVec.ofFin b))
      (l.rsrcOf (BitVec.ofFin b)) = BitVec.ofFin b := by decide +kernel

/-- The byte is the pack of its fields. -/
theorem Byte2Layout.pack_fields {l : Byte2Layout} (h : l.valid = true) (b : BitVec 8) :
    l.pack (l.coefOf b) (l.accOf b) (l.raddrOf b) (l.rsrcOf b) = b :=
  Byte2Layout.pack_fields_fin l (Byte2Layout.mem_layouts h) b.toFin

theorem Byte2Layout.fields_pack_fin : ∀ l ∈ layouts, ∀ k : Fin 16, ∀ a : Bool, ∀ r : Fin 4, ∀ s : Bool,
    l.coefOf (l.pack (BitVec.ofFin k) a (BitVec.ofFin r) s) = BitVec.ofFin k ∧
      l.accOf (l.pack (BitVec.ofFin k) a (BitVec.ofFin r) s) = a ∧
      l.raddrOf (l.pack (BitVec.ofFin k) a (BitVec.ofFin r) s) = BitVec.ofFin r ∧
      l.rsrcOf (l.pack (BitVec.ofFin k) a (BitVec.ofFin r) s) = s := by decide +kernel

theorem Byte2Layout.fields_pack {l : Byte2Layout} (h : l.valid = true) (k : CoefIx) (a : Bool) (r : SrcIx) (s : Bool) :
    l.coefOf (l.pack k a r s) = k ∧ l.accOf (l.pack k a r s) = a ∧ l.raddrOf (l.pack k a r s) = r ∧
      l.rsrcOf (l.pack k a r s) = s :=
  Byte2Layout.fields_pack_fin l (Byte2Layout.mem_layouts h) k.toFin a r.toFin s

/-- The fields of a packed byte are those packed. -/
theorem Byte2Layout.coefOf_pack {l : Byte2Layout} (h : l.valid = true) (k : CoefIx) (a : Bool) (r : SrcIx) (s : Bool) :
    l.coefOf (l.pack k a r s) = k := (Byte2Layout.fields_pack h k a r s).1

theorem Byte2Layout.accOf_pack {l : Byte2Layout} (h : l.valid = true) (k : CoefIx) (a : Bool) (r : SrcIx) (s : Bool) :
    l.accOf (l.pack k a r s) = a := (Byte2Layout.fields_pack h k a r s).2.1

theorem Byte2Layout.raddrOf_pack {l : Byte2Layout} (h : l.valid = true) (k : CoefIx) (a : Bool) (r : SrcIx) (s : Bool) :
    l.raddrOf (l.pack k a r s) = r := (Byte2Layout.fields_pack h k a r s).2.2.1

theorem Byte2Layout.rsrcOf_pack {l : Byte2Layout} (h : l.valid = true) (k : CoefIx) (a : Bool) (r : SrcIx) (s : Bool) :
    l.rsrcOf (l.pack k a r s) = s := (Byte2Layout.fields_pack h k a r s).2.2.2

theorem Byte2Layout.fields_allOnes_fin : ∀ l ∈ layouts,
    l.coefOf 255#8 = 15#4 ∧ l.accOf 255#8 = true ∧ l.raddrOf 255#8 = 3#2 ∧ l.rsrcOf 255#8 = true ∧
      l.pack 15#4 true 3#2 true = 255#8 := by decide +kernel

/-- A packed byte is 0xFF exactly for the combination of R86. -/
theorem Byte2Layout.pack_eq_allOnes {l : Byte2Layout} (h : l.valid = true) (k : CoefIx) (a : Bool) (r : SrcIx) (s : Bool) :
    l.pack k a r s = 255#8 ↔ k = 15#4 ∧ a = true ∧ r = 3#2 ∧ s = true := by
  obtain ⟨h1, h2, h3, h4, h5⟩ := Byte2Layout.fields_allOnes_fin l (Byte2Layout.mem_layouts h)
  constructor
  · intro he
    obtain ⟨e1, e2, e3, e4⟩ := Byte2Layout.fields_pack h k a r s
    rw [he] at e1 e2 e3 e4
    exact ⟨e1 ▸ h1, e2 ▸ h2, e3 ▸ h3, e4 ▸ h4⟩
  · rintro ⟨rfl, rfl, rfl, rfl⟩; exact h5

end Sys2Proof
end

