-- ==== Sys2Proof/Laws/State.lean ====
section
/-!
SUPPORT. One lemma per field per update of the state, each true by rfl, so that no later proof unfolds a record update.
-/

namespace Sys2Proof.Machine

/-! ### setReg -/

@[simp] theorem State.setReg_params (s : State) (i : RegIx) (v : Sample) : (s.setReg i v).params = s.params := rfl
@[simp] theorem State.setReg_cfg (s : State) (i : RegIx) (v : Sample) : (s.setReg i v).cfg = s.cfg := rfl
@[simp] theorem State.setReg_x (s : State) (i : RegIx) (v : Sample) : (s.setReg i v).x = s.x.set i.toNat v := rfl
@[simp] theorem State.setReg_mem (s : State) (i : RegIx) (v : Sample) : (s.setReg i v).mem = s.mem := rfl
@[simp] theorem State.setReg_wp (s : State) (i : RegIx) (v : Sample) : (s.setReg i v).wp = s.wp := rfl
@[simp] theorem State.setReg_pc (s : State) (i : RegIx) (v : Sample) : (s.setReg i v).pc = s.pc := rfl
@[simp] theorem State.setReg_lfoPhase (s : State) (i : RegIx) (v : Sample) : (s.setReg i v).lfoPhase = s.lfoPhase := rfl
@[simp] theorem State.setReg_lfoValue (s : State) (i : RegIx) (v : Sample) : (s.setReg i v).lfoValue = s.lfoValue := rfl
@[simp] theorem State.setReg_outL (s : State) (i : RegIx) (v : Sample) : (s.setReg i v).outL = s.outL := rfl
@[simp] theorem State.setReg_outR (s : State) (i : RegIx) (v : Sample) : (s.setReg i v).outR = s.outR := rfl
@[simp] theorem State.setReg_coefs (s : State) (i : RegIx) (v : Sample) : (s.setReg i v).coefs = s.coefs := rfl
@[simp] theorem State.setReg_damping (s : State) (i : RegIx) (v : Sample) : (s.setReg i v).damping = s.damping := rfl
@[simp] theorem State.setReg_inL (s : State) (i : RegIx) (v : Sample) : (s.setReg i v).inL = s.inL := rfl
@[simp] theorem State.setReg_inR (s : State) (i : RegIx) (v : Sample) : (s.setReg i v).inR = s.inR := rfl
@[simp] theorem State.setReg_job (s : State) (i : RegIx) (v : Sample) : (s.setReg i v).job = s.job := rfl
@[simp] theorem State.setReg_calls (s : State) (i : RegIx) (v : Sample) : (s.setReg i v).calls = s.calls := rfl
@[simp] theorem State.setReg_ret (s : State) (i : RegIx) (v : Sample) : (s.setReg i v).ret = s.ret := rfl

/-! ### memWrite -/

@[simp] theorem State.memWrite_params (s : State) (p : Nat) (v : Sample) : (s.memWrite p v).params = s.params := rfl
@[simp] theorem State.memWrite_cfg (s : State) (p : Nat) (v : Sample) : (s.memWrite p v).cfg = s.cfg := rfl
@[simp] theorem State.memWrite_x (s : State) (p : Nat) (v : Sample) : (s.memWrite p v).x = s.x := rfl
@[simp] theorem State.memWrite_mem (s : State) (p : Nat) (v : Sample) : (s.memWrite p v).mem = s.mem.write p v := rfl
@[simp] theorem State.memWrite_wp (s : State) (p : Nat) (v : Sample) : (s.memWrite p v).wp = s.wp := rfl
@[simp] theorem State.memWrite_pc (s : State) (p : Nat) (v : Sample) : (s.memWrite p v).pc = s.pc := rfl
@[simp] theorem State.memWrite_lfoPhase (s : State) (p : Nat) (v : Sample) : (s.memWrite p v).lfoPhase = s.lfoPhase := rfl
@[simp] theorem State.memWrite_lfoValue (s : State) (p : Nat) (v : Sample) : (s.memWrite p v).lfoValue = s.lfoValue := rfl
@[simp] theorem State.memWrite_outL (s : State) (p : Nat) (v : Sample) : (s.memWrite p v).outL = s.outL := rfl
@[simp] theorem State.memWrite_outR (s : State) (p : Nat) (v : Sample) : (s.memWrite p v).outR = s.outR := rfl
@[simp] theorem State.memWrite_coefs (s : State) (p : Nat) (v : Sample) : (s.memWrite p v).coefs = s.coefs := rfl
@[simp] theorem State.memWrite_damping (s : State) (p : Nat) (v : Sample) : (s.memWrite p v).damping = s.damping := rfl
@[simp] theorem State.memWrite_inL (s : State) (p : Nat) (v : Sample) : (s.memWrite p v).inL = s.inL := rfl
@[simp] theorem State.memWrite_inR (s : State) (p : Nat) (v : Sample) : (s.memWrite p v).inR = s.inR := rfl
@[simp] theorem State.memWrite_job (s : State) (p : Nat) (v : Sample) : (s.memWrite p v).job = s.job := rfl
@[simp] theorem State.memWrite_calls (s : State) (p : Nat) (v : Sample) : (s.memWrite p v).calls = s.calls := rfl
@[simp] theorem State.memWrite_ret (s : State) (p : Nat) (v : Sample) : (s.memWrite p v).ret = s.ret := rfl

/-! ### load -/

@[simp] theorem State.load_params (s : State) (w : RegIx) (v : Sample) : (s.load w v).params = s.params := rfl
@[simp] theorem State.load_cfg (s : State) (w : RegIx) (v : Sample) : (s.load w v).cfg = s.cfg := rfl
@[simp] theorem State.load_x (s : State) (w : RegIx) (v : Sample) : (s.load w v).x = s.x.set w.toNat (s.clampR v) := rfl
@[simp] theorem State.load_mem (s : State) (w : RegIx) (v : Sample) : (s.load w v).mem = s.mem := rfl
@[simp] theorem State.load_wp (s : State) (w : RegIx) (v : Sample) : (s.load w v).wp = s.wp := rfl
@[simp] theorem State.load_pc (s : State) (w : RegIx) (v : Sample) : (s.load w v).pc = s.pc := rfl
@[simp] theorem State.load_lfoPhase (s : State) (w : RegIx) (v : Sample) : (s.load w v).lfoPhase = s.lfoPhase := rfl
@[simp] theorem State.load_lfoValue (s : State) (w : RegIx) (v : Sample) : (s.load w v).lfoValue = s.lfoValue := rfl
@[simp] theorem State.load_outL (s : State) (w : RegIx) (v : Sample) : (s.load w v).outL = s.outL := rfl
@[simp] theorem State.load_outR (s : State) (w : RegIx) (v : Sample) : (s.load w v).outR = s.outR := rfl
@[simp] theorem State.load_coefs (s : State) (w : RegIx) (v : Sample) : (s.load w v).coefs = s.coefs := rfl
@[simp] theorem State.load_damping (s : State) (w : RegIx) (v : Sample) : (s.load w v).damping = s.damping := rfl
@[simp] theorem State.load_inL (s : State) (w : RegIx) (v : Sample) : (s.load w v).inL = s.inL := rfl
@[simp] theorem State.load_inR (s : State) (w : RegIx) (v : Sample) : (s.load w v).inR = s.inR := rfl
@[simp] theorem State.load_job (s : State) (w : RegIx) (v : Sample) : (s.load w v).job = s.job := rfl
@[simp] theorem State.load_calls (s : State) (w : RegIx) (v : Sample) : (s.load w v).calls = s.calls := rfl
@[simp] theorem State.load_ret (s : State) (w : RegIx) (v : Sample) : (s.load w v).ret = s.ret := rfl

/-! ### loadProduct -/

@[simp] theorem State.loadProduct_params (s : State) (w : RegIx) (a : Sample) (k : CoefIx) : (s.loadProduct w a k).params = s.params := rfl
@[simp] theorem State.loadProduct_cfg (s : State) (w : RegIx) (a : Sample) (k : CoefIx) : (s.loadProduct w a k).cfg = s.cfg := rfl
@[simp] theorem State.loadProduct_mem (s : State) (w : RegIx) (a : Sample) (k : CoefIx) : (s.loadProduct w a k).mem = s.mem := rfl
@[simp] theorem State.loadProduct_wp (s : State) (w : RegIx) (a : Sample) (k : CoefIx) : (s.loadProduct w a k).wp = s.wp := rfl
@[simp] theorem State.loadProduct_pc (s : State) (w : RegIx) (a : Sample) (k : CoefIx) : (s.loadProduct w a k).pc = s.pc := rfl
@[simp] theorem State.loadProduct_lfoPhase (s : State) (w : RegIx) (a : Sample) (k : CoefIx) : (s.loadProduct w a k).lfoPhase = s.lfoPhase := rfl
@[simp] theorem State.loadProduct_lfoValue (s : State) (w : RegIx) (a : Sample) (k : CoefIx) : (s.loadProduct w a k).lfoValue = s.lfoValue := rfl
@[simp] theorem State.loadProduct_outL (s : State) (w : RegIx) (a : Sample) (k : CoefIx) : (s.loadProduct w a k).outL = s.outL := rfl
@[simp] theorem State.loadProduct_outR (s : State) (w : RegIx) (a : Sample) (k : CoefIx) : (s.loadProduct w a k).outR = s.outR := rfl
@[simp] theorem State.loadProduct_coefs (s : State) (w : RegIx) (a : Sample) (k : CoefIx) : (s.loadProduct w a k).coefs = s.coefs := rfl
@[simp] theorem State.loadProduct_damping (s : State) (w : RegIx) (a : Sample) (k : CoefIx) : (s.loadProduct w a k).damping = s.damping := rfl
@[simp] theorem State.loadProduct_inL (s : State) (w : RegIx) (a : Sample) (k : CoefIx) : (s.loadProduct w a k).inL = s.inL := rfl
@[simp] theorem State.loadProduct_inR (s : State) (w : RegIx) (a : Sample) (k : CoefIx) : (s.loadProduct w a k).inR = s.inR := rfl
@[simp] theorem State.loadProduct_job (s : State) (w : RegIx) (a : Sample) (k : CoefIx) : (s.loadProduct w a k).job = s.job := rfl
@[simp] theorem State.loadProduct_calls (s : State) (w : RegIx) (a : Sample) (k : CoefIx) : (s.loadProduct w a k).calls = s.calls := rfl
@[simp] theorem State.loadProduct_ret (s : State) (w : RegIx) (a : Sample) (k : CoefIx) : (s.loadProduct w a k).ret = s.ret := rfl

/-! ### accProduct -/

@[simp] theorem State.accProduct_params (s : State) (w : RegIx) (a : Sample) (k : CoefIx) : (s.accProduct w a k).params = s.params := rfl
@[simp] theorem State.accProduct_cfg (s : State) (w : RegIx) (a : Sample) (k : CoefIx) : (s.accProduct w a k).cfg = s.cfg := rfl
@[simp] theorem State.accProduct_mem (s : State) (w : RegIx) (a : Sample) (k : CoefIx) : (s.accProduct w a k).mem = s.mem := rfl
@[simp] theorem State.accProduct_wp (s : State) (w : RegIx) (a : Sample) (k : CoefIx) : (s.accProduct w a k).wp = s.wp := rfl
@[simp] theorem State.accProduct_pc (s : State) (w : RegIx) (a : Sample) (k : CoefIx) : (s.accProduct w a k).pc = s.pc := rfl
@[simp] theorem State.accProduct_lfoPhase (s : State) (w : RegIx) (a : Sample) (k : CoefIx) : (s.accProduct w a k).lfoPhase = s.lfoPhase := rfl
@[simp] theorem State.accProduct_lfoValue (s : State) (w : RegIx) (a : Sample) (k : CoefIx) : (s.accProduct w a k).lfoValue = s.lfoValue := rfl
@[simp] theorem State.accProduct_outL (s : State) (w : RegIx) (a : Sample) (k : CoefIx) : (s.accProduct w a k).outL = s.outL := rfl
@[simp] theorem State.accProduct_outR (s : State) (w : RegIx) (a : Sample) (k : CoefIx) : (s.accProduct w a k).outR = s.outR := rfl
@[simp] theorem State.accProduct_coefs (s : State) (w : RegIx) (a : Sample) (k : CoefIx) : (s.accProduct w a k).coefs = s.coefs := rfl
@[simp] theorem State.accProduct_damping (s : State) (w : RegIx) (a : Sample) (k : CoefIx) : (s.accProduct w a k).damping = s.damping := rfl
@[simp] theorem State.accProduct_inL (s : State) (w : RegIx) (a : Sample) (k : CoefIx) : (s.accProduct w a k).inL = s.inL := rfl
@[simp] theorem State.accProduct_inR (s : State) (w : RegIx) (a : Sample) (k : CoefIx) : (s.accProduct w a k).inR = s.inR := rfl
@[simp] theorem State.accProduct_job (s : State) (w : RegIx) (a : Sample) (k : CoefIx) : (s.accProduct w a k).job = s.job := rfl
@[simp] theorem State.accProduct_calls (s : State) (w : RegIx) (a : Sample) (k : CoefIx) : (s.accProduct w a k).calls = s.calls := rfl
@[simp] theorem State.accProduct_ret (s : State) (w : RegIx) (a : Sample) (k : CoefIx) : (s.accProduct w a k).ret = s.ret := rfl

/-! ### writeBack -/

@[simp] theorem State.writeBack_params (s : State) (w : RegIx) (p : Nat) : (s.writeBack w p).params = s.params := rfl
@[simp] theorem State.writeBack_cfg (s : State) (w : RegIx) (p : Nat) : (s.writeBack w p).cfg = s.cfg := rfl
@[simp] theorem State.writeBack_x (s : State) (w : RegIx) (p : Nat) : (s.writeBack w p).x = s.x := rfl
@[simp] theorem State.writeBack_mem (s : State) (w : RegIx) (p : Nat) : (s.writeBack w p).mem = s.mem.write p (s.stored (s.reg w)) := rfl
@[simp] theorem State.writeBack_wp (s : State) (w : RegIx) (p : Nat) : (s.writeBack w p).wp = s.wp := rfl
@[simp] theorem State.writeBack_pc (s : State) (w : RegIx) (p : Nat) : (s.writeBack w p).pc = s.pc := rfl
@[simp] theorem State.writeBack_lfoPhase (s : State) (w : RegIx) (p : Nat) : (s.writeBack w p).lfoPhase = s.lfoPhase := rfl
@[simp] theorem State.writeBack_lfoValue (s : State) (w : RegIx) (p : Nat) : (s.writeBack w p).lfoValue = s.lfoValue := rfl
@[simp] theorem State.writeBack_outL (s : State) (w : RegIx) (p : Nat) : (s.writeBack w p).outL = s.outL := rfl
@[simp] theorem State.writeBack_outR (s : State) (w : RegIx) (p : Nat) : (s.writeBack w p).outR = s.outR := rfl
@[simp] theorem State.writeBack_coefs (s : State) (w : RegIx) (p : Nat) : (s.writeBack w p).coefs = s.coefs := rfl
@[simp] theorem State.writeBack_damping (s : State) (w : RegIx) (p : Nat) : (s.writeBack w p).damping = s.damping := rfl
@[simp] theorem State.writeBack_inL (s : State) (w : RegIx) (p : Nat) : (s.writeBack w p).inL = s.inL := rfl
@[simp] theorem State.writeBack_inR (s : State) (w : RegIx) (p : Nat) : (s.writeBack w p).inR = s.inR := rfl
@[simp] theorem State.writeBack_job (s : State) (w : RegIx) (p : Nat) : (s.writeBack w p).job = s.job := rfl
@[simp] theorem State.writeBack_calls (s : State) (w : RegIx) (p : Nat) : (s.writeBack w p).calls = s.calls := rfl
@[simp] theorem State.writeBack_ret (s : State) (w : RegIx) (p : Nat) : (s.writeBack w p).ret = s.ret := rfl

/-! ### injectInput -/

@[simp] theorem State.injectInput_params (s : State) (v : Sample) : (s.injectInput v).params = s.params := rfl
@[simp] theorem State.injectInput_cfg (s : State) (v : Sample) : (s.injectInput v).cfg = s.cfg := rfl
@[simp] theorem State.injectInput_mem (s : State) (v : Sample) : (s.injectInput v).mem = s.mem := rfl
@[simp] theorem State.injectInput_wp (s : State) (v : Sample) : (s.injectInput v).wp = s.wp := rfl
@[simp] theorem State.injectInput_pc (s : State) (v : Sample) : (s.injectInput v).pc = s.pc := rfl
@[simp] theorem State.injectInput_lfoPhase (s : State) (v : Sample) : (s.injectInput v).lfoPhase = s.lfoPhase := rfl
@[simp] theorem State.injectInput_lfoValue (s : State) (v : Sample) : (s.injectInput v).lfoValue = s.lfoValue := rfl
@[simp] theorem State.injectInput_outL (s : State) (v : Sample) : (s.injectInput v).outL = s.outL := rfl
@[simp] theorem State.injectInput_outR (s : State) (v : Sample) : (s.injectInput v).outR = s.outR := rfl
@[simp] theorem State.injectInput_coefs (s : State) (v : Sample) : (s.injectInput v).coefs = s.coefs := rfl
@[simp] theorem State.injectInput_damping (s : State) (v : Sample) : (s.injectInput v).damping = s.damping := rfl
@[simp] theorem State.injectInput_inL (s : State) (v : Sample) : (s.injectInput v).inL = s.inL := rfl
@[simp] theorem State.injectInput_inR (s : State) (v : Sample) : (s.injectInput v).inR = s.inR := rfl
@[simp] theorem State.injectInput_job (s : State) (v : Sample) : (s.injectInput v).job = s.job := rfl
@[simp] theorem State.injectInput_calls (s : State) (v : Sample) : (s.injectInput v).calls = s.calls := rfl
@[simp] theorem State.injectInput_ret (s : State) (v : Sample) : (s.injectInput v).ret = s.ret := rfl

/-! ### resetEngine -/

@[simp] theorem State.resetEngine_params (s : State) : (s.resetEngine).params = s.params := rfl
@[simp] theorem State.resetEngine_cfg (s : State) : (s.resetEngine).cfg = s.cfg := rfl
@[simp] theorem State.resetEngine_x (s : State) : (s.resetEngine).x = Vector.replicate 8 fzero := rfl
@[simp] theorem State.resetEngine_mem (s : State) : (s.resetEngine).mem = [] := rfl
@[simp] theorem State.resetEngine_wp (s : State) : (s.resetEngine).wp = 0 := rfl
@[simp] theorem State.resetEngine_pc (s : State) : (s.resetEngine).pc = 0 := rfl
@[simp] theorem State.resetEngine_lfoPhase (s : State) : (s.resetEngine).lfoPhase = fzero := rfl
@[simp] theorem State.resetEngine_lfoValue (s : State) : (s.resetEngine).lfoValue = fzero := rfl
@[simp] theorem State.resetEngine_outL (s : State) : (s.resetEngine).outL = fzero := rfl
@[simp] theorem State.resetEngine_outR (s : State) : (s.resetEngine).outR = fzero := rfl
@[simp] theorem State.resetEngine_coefs (s : State) : (s.resetEngine).coefs = s.coefs := rfl
@[simp] theorem State.resetEngine_damping (s : State) : (s.resetEngine).damping = s.damping := rfl
@[simp] theorem State.resetEngine_inL (s : State) : (s.resetEngine).inL = s.inL := rfl
@[simp] theorem State.resetEngine_inR (s : State) : (s.resetEngine).inR = s.inR := rfl
@[simp] theorem State.resetEngine_job (s : State) : (s.resetEngine).job = s.job := rfl
@[simp] theorem State.resetEngine_calls (s : State) : (s.resetEngine).calls = s.calls := rfl
@[simp] theorem State.resetEngine_ret (s : State) : (s.resetEngine).ret = s.ret := rfl

/-! ### advanceWp -/

@[simp] theorem State.advanceWp_params (s : State) : (s.advanceWp).params = s.params := rfl
@[simp] theorem State.advanceWp_cfg (s : State) : (s.advanceWp).cfg = s.cfg := rfl
@[simp] theorem State.advanceWp_x (s : State) : (s.advanceWp).x = s.x := rfl
@[simp] theorem State.advanceWp_mem (s : State) : (s.advanceWp).mem = s.mem := rfl
@[simp] theorem State.advanceWp_wp (s : State) : (s.advanceWp).wp = (s.wp + 1) % s.cfg.n := rfl
@[simp] theorem State.advanceWp_pc (s : State) : (s.advanceWp).pc = s.pc := rfl
@[simp] theorem State.advanceWp_lfoPhase (s : State) : (s.advanceWp).lfoPhase = s.lfoPhase := rfl
@[simp] theorem State.advanceWp_lfoValue (s : State) : (s.advanceWp).lfoValue = s.lfoValue := rfl
@[simp] theorem State.advanceWp_outL (s : State) : (s.advanceWp).outL = s.outL := rfl
@[simp] theorem State.advanceWp_outR (s : State) : (s.advanceWp).outR = s.outR := rfl
@[simp] theorem State.advanceWp_coefs (s : State) : (s.advanceWp).coefs = s.coefs := rfl
@[simp] theorem State.advanceWp_damping (s : State) : (s.advanceWp).damping = s.damping := rfl
@[simp] theorem State.advanceWp_inL (s : State) : (s.advanceWp).inL = s.inL := rfl
@[simp] theorem State.advanceWp_inR (s : State) : (s.advanceWp).inR = s.inR := rfl
@[simp] theorem State.advanceWp_job (s : State) : (s.advanceWp).job = s.job := rfl
@[simp] theorem State.advanceWp_calls (s : State) : (s.advanceWp).calls = s.calls := rfl
@[simp] theorem State.advanceWp_ret (s : State) : (s.advanceWp).ret = s.ret := rfl

/-! ### advanceLfo -/

@[simp] theorem State.advanceLfo_params (s : State) : (s.advanceLfo).params = s.params := rfl
@[simp] theorem State.advanceLfo_cfg (s : State) : (s.advanceLfo).cfg = s.cfg := rfl
@[simp] theorem State.advanceLfo_x (s : State) : (s.advanceLfo).x = s.x := rfl
@[simp] theorem State.advanceLfo_mem (s : State) : (s.advanceLfo).mem = s.mem := rfl
@[simp] theorem State.advanceLfo_wp (s : State) : (s.advanceLfo).wp = s.wp := rfl
@[simp] theorem State.advanceLfo_pc (s : State) : (s.advanceLfo).pc = s.pc := rfl
@[simp] theorem State.advanceLfo_lfoPhase (s : State) : (s.advanceLfo).lfoPhase = nextPhase s.lfoPhase s.params.lfoRateHz s.cfg.fs := rfl
@[simp] theorem State.advanceLfo_lfoValue (s : State) : (s.advanceLfo).lfoValue = lfoWave (nextPhase s.lfoPhase s.params.lfoRateHz s.cfg.fs) := rfl
@[simp] theorem State.advanceLfo_outL (s : State) : (s.advanceLfo).outL = s.outL := rfl
@[simp] theorem State.advanceLfo_outR (s : State) : (s.advanceLfo).outR = s.outR := rfl
@[simp] theorem State.advanceLfo_coefs (s : State) : (s.advanceLfo).coefs = s.coefs := rfl
@[simp] theorem State.advanceLfo_damping (s : State) : (s.advanceLfo).damping = s.damping := rfl
@[simp] theorem State.advanceLfo_inL (s : State) : (s.advanceLfo).inL = s.inL := rfl
@[simp] theorem State.advanceLfo_inR (s : State) : (s.advanceLfo).inR = s.inR := rfl
@[simp] theorem State.advanceLfo_job (s : State) : (s.advanceLfo).job = s.job := rfl
@[simp] theorem State.advanceLfo_calls (s : State) : (s.advanceLfo).calls = s.calls := rfl
@[simp] theorem State.advanceLfo_ret (s : State) : (s.advanceLfo).ret = s.ret := rfl

/-! ### endSample -/

@[simp] theorem State.endSample_params (s : State) : (s.endSample).params = s.params := rfl
@[simp] theorem State.endSample_cfg (s : State) : (s.endSample).cfg = s.cfg := rfl
@[simp] theorem State.endSample_x (s : State) : (s.endSample).x = s.x := rfl
@[simp] theorem State.endSample_mem (s : State) : (s.endSample).mem = s.mem := rfl
@[simp] theorem State.endSample_wp (s : State) : (s.endSample).wp = (s.wp + 1) % s.cfg.n := rfl
@[simp] theorem State.endSample_pc (s : State) : (s.endSample).pc = 0 := rfl
@[simp] theorem State.endSample_lfoPhase (s : State) : (s.endSample).lfoPhase = nextPhase s.lfoPhase s.params.lfoRateHz s.cfg.fs := rfl
@[simp] theorem State.endSample_lfoValue (s : State) : (s.endSample).lfoValue = lfoWave (nextPhase s.lfoPhase s.params.lfoRateHz s.cfg.fs) := rfl
@[simp] theorem State.endSample_outL (s : State) : (s.endSample).outL = s.outL := rfl
@[simp] theorem State.endSample_outR (s : State) : (s.endSample).outR = s.outR := rfl
@[simp] theorem State.endSample_coefs (s : State) : (s.endSample).coefs = s.coefs := rfl
@[simp] theorem State.endSample_damping (s : State) : (s.endSample).damping = s.damping := rfl
@[simp] theorem State.endSample_inL (s : State) : (s.endSample).inL = s.inL := rfl
@[simp] theorem State.endSample_inR (s : State) : (s.endSample).inR = s.inR := rfl
@[simp] theorem State.endSample_job (s : State) : (s.endSample).job = s.job := rfl
@[simp] theorem State.endSample_calls (s : State) : (s.endSample).calls = s.calls := rfl
@[simp] theorem State.endSample_ret (s : State) : (s.endSample).ret = s.ret := rfl

/-! ### Reads after updates of other fields -/

@[simp] theorem State.memWrite_reg (s : State) (p : Nat) (v : Sample) (i : RegIx) : (s.memWrite p v).reg i = s.reg i := rfl
@[simp] theorem State.writeBack_reg (s : State) (w : RegIx) (p : Nat) (i : RegIx) :
    (s.writeBack w p).reg i = s.reg i := rfl
@[simp] theorem State.setReg_memRead (s : State) (i : RegIx) (v : Sample) (a : Nat) :
    (s.setReg i v).memRead a = s.memRead a := rfl
@[simp] theorem State.load_memRead (s : State) (w : RegIx) (v : Sample) (a : Nat) :
    (s.load w v).memRead a = s.memRead a := rfl
@[simp] theorem State.setReg_coef (s : State) (i : RegIx) (v : Sample) (k : CoefIx) : (s.setReg i v).coef k = s.coef k := rfl
@[simp] theorem State.memWrite_coef (s : State) (p : Nat) (v : Sample) (k : CoefIx) :
    (s.memWrite p v).coef k = s.coef k := rfl
@[simp] theorem State.load_coef (s : State) (w : RegIx) (v : Sample) (k : CoefIx) : (s.load w v).coef k = s.coef k := rfl
@[simp] theorem State.setReg_clampR (s : State) (i : RegIx) (v u : Sample) : (s.setReg i v).clampR u = s.clampR u := rfl
@[simp] theorem State.memWrite_clampR (s : State) (p : Nat) (v u : Sample) : (s.memWrite p v).clampR u = s.clampR u := rfl
@[simp] theorem State.setReg_stored (s : State) (i : RegIx) (v u : Sample) : (s.setReg i v).stored u = s.stored u := rfl
@[simp] theorem State.load_stored (s : State) (w : RegIx) (v u : Sample) : (s.load w v).stored u = s.stored u := rfl
@[simp] theorem State.setReg_readPos (s : State) (i : RegIx) (v : Sample) (off : Offset) :
    (s.setReg i v).readPos off = s.readPos off := rfl
@[simp] theorem State.load_readPos (s : State) (w : RegIx) (v : Sample) (off : Offset) :
    (s.load w v).readPos off = s.readPos off := rfl
@[simp] theorem State.memWrite_readPos (s : State) (p : Nat) (v : Sample) (off : Offset) :
    (s.memWrite p v).readPos off = s.readPos off := rfl
@[simp] theorem State.resetEngine_memRead (s : State) (a : Nat) : s.resetEngine.memRead a = fzero := rfl

/-! ### inject, capture: each changes one field -/

/-- Injection writes at most the input register. -/
theorem State.inject_eq (s : State) : s.inject = { s with x := s.inject.x } := by
  unfold State.inject; split
  · rfl
  · split <;> rfl

/-- A capture writes at most the two latches. -/
theorem State.capture_eq (s : State) : s.capture = { s with outL := s.capture.outL, outR := s.capture.outR } := by
  unfold State.capture; split <;> split <;> rfl

@[simp] theorem State.inject_params (s : State) : s.inject.params = s.params := by rw [State.inject_eq]
@[simp] theorem State.inject_cfg (s : State) : s.inject.cfg = s.cfg := by rw [State.inject_eq]
@[simp] theorem State.inject_mem (s : State) : s.inject.mem = s.mem := by rw [State.inject_eq]
@[simp] theorem State.inject_wp (s : State) : s.inject.wp = s.wp := by rw [State.inject_eq]
@[simp] theorem State.inject_pc (s : State) : s.inject.pc = s.pc := by rw [State.inject_eq]
@[simp] theorem State.inject_lfoPhase (s : State) : s.inject.lfoPhase = s.lfoPhase := by rw [State.inject_eq]
@[simp] theorem State.inject_lfoValue (s : State) : s.inject.lfoValue = s.lfoValue := by rw [State.inject_eq]
@[simp] theorem State.inject_outL (s : State) : s.inject.outL = s.outL := by rw [State.inject_eq]
@[simp] theorem State.inject_outR (s : State) : s.inject.outR = s.outR := by rw [State.inject_eq]
@[simp] theorem State.inject_coefs (s : State) : s.inject.coefs = s.coefs := by rw [State.inject_eq]
@[simp] theorem State.inject_damping (s : State) : s.inject.damping = s.damping := by rw [State.inject_eq]
@[simp] theorem State.inject_inL (s : State) : s.inject.inL = s.inL := by rw [State.inject_eq]
@[simp] theorem State.inject_inR (s : State) : s.inject.inR = s.inR := by rw [State.inject_eq]
@[simp] theorem State.inject_job (s : State) : s.inject.job = s.job := by rw [State.inject_eq]
@[simp] theorem State.inject_calls (s : State) : s.inject.calls = s.calls := by rw [State.inject_eq]
@[simp] theorem State.inject_ret (s : State) : s.inject.ret = s.ret := by rw [State.inject_eq]
@[simp] theorem State.capture_params (s : State) : s.capture.params = s.params := by rw [State.capture_eq]
@[simp] theorem State.capture_cfg (s : State) : s.capture.cfg = s.cfg := by rw [State.capture_eq]
@[simp] theorem State.capture_x (s : State) : s.capture.x = s.x := by rw [State.capture_eq]
@[simp] theorem State.capture_mem (s : State) : s.capture.mem = s.mem := by rw [State.capture_eq]
@[simp] theorem State.capture_wp (s : State) : s.capture.wp = s.wp := by rw [State.capture_eq]
@[simp] theorem State.capture_pc (s : State) : s.capture.pc = s.pc := by rw [State.capture_eq]
@[simp] theorem State.capture_lfoPhase (s : State) : s.capture.lfoPhase = s.lfoPhase := by rw [State.capture_eq]
@[simp] theorem State.capture_lfoValue (s : State) : s.capture.lfoValue = s.lfoValue := by rw [State.capture_eq]
@[simp] theorem State.capture_coefs (s : State) : s.capture.coefs = s.coefs := by rw [State.capture_eq]
@[simp] theorem State.capture_damping (s : State) : s.capture.damping = s.damping := by rw [State.capture_eq]
@[simp] theorem State.capture_inL (s : State) : s.capture.inL = s.inL := by rw [State.capture_eq]
@[simp] theorem State.capture_inR (s : State) : s.capture.inR = s.inR := by rw [State.capture_eq]
@[simp] theorem State.capture_job (s : State) : s.capture.job = s.job := by rw [State.capture_eq]
@[simp] theorem State.capture_calls (s : State) : s.capture.calls = s.calls := by rw [State.capture_eq]
@[simp] theorem State.capture_ret (s : State) : s.capture.ret = s.ret := by rw [State.capture_eq]

end Sys2Proof.Machine
end

