-- ==== Sys2Proof/Laws/Memory.lean ====
section
/-!
SUPPORT. The laws of the delay memory: a read after a write, and that every memory operation keeps the canonical form and the
bound on the indices.
-/

namespace Sys2Proof.Machine

@[simp] theorem Memory.read_nil (a : Nat) : Memory.read [] a = Memory.unwritten := rfl

theorem Memory.read_cons (b : Nat) (u : Sample) (rest : Memory) (a : Nat) :
    Memory.read ((b, u) :: rest) a = if a = b then u else Memory.read rest a := rfl

theorem Memory.wfFrom_cons {lo a : Nat} {v : Sample} {rest : Memory} :
    Memory.wfFrom lo ((a, v) :: rest) = true ↔
      lo ≤ a ∧ v ≠ Memory.unwritten ∧ Memory.wfFrom (a + 1) rest = true := by
  simp [Memory.wfFrom, and_assoc]

theorem Memory.wfFrom_mono {m : Memory} {lo lo' : Nat} (h : lo' ≤ lo) (hm : Memory.wfFrom lo m = true) :
    Memory.wfFrom lo' m = true := by
  cases m with
  | nil => rfl
  | cons e rest =>
    obtain ⟨a, v⟩ := e
    rw [Memory.wfFrom_cons] at hm ⊢
    exact ⟨h.trans hm.1, hm.2⟩

/-- An index below every listed one reads as unwritten. -/
theorem Memory.read_below {m : Memory} {lo a : Nat} (hm : Memory.wfFrom lo m = true) (h : a < lo) :
    Memory.read m a = Memory.unwritten := by
  induction m generalizing lo with
  | nil => rfl
  | cons e rest ih =>
    obtain ⟨b, u⟩ := e
    rw [Memory.wfFrom_cons] at hm
    rw [Memory.read_cons, if_neg (by omega)]
    exact ih hm.2.2 (by omega)

theorem Memory.read_enter {m : Memory} {lo a : Nat} (hm : Memory.wfFrom lo m = true) (h : a < lo) (v : Sample) (b : Nat) :
    Memory.read (Memory.enter a v m) b = if b = a then v else Memory.read m b := by
  unfold Memory.enter
  split
  · split
    · subst_vars; exact Memory.read_below hm h
    · rfl
  · rw [Memory.read_cons]

theorem Memory.enter_wf {m : Memory} {lo a : Nat} (hm : Memory.wfFrom (a + 1) m = true) (h : lo ≤ a) (v : Sample) :
    Memory.wfFrom lo (Memory.enter a v m) = true := by
  unfold Memory.enter
  split
  · exact Memory.wfFrom_mono (by omega) hm
  · exact Memory.wfFrom_cons.2 ⟨h, ‹_›, hm⟩

theorem Memory.write_cons (b : Nat) (u : Sample) (rest : Memory) (a : Nat) (v : Sample) :
    Memory.write ((b, u) :: rest) a v =
      if a < b then Memory.enter a v ((b, u) :: rest)
      else if a = b then Memory.enter a v rest else (b, u) :: Memory.write rest a v := rfl

theorem Memory.write_wfFrom {m : Memory} {lo a : Nat} (hm : Memory.wfFrom lo m = true) (h : lo ≤ a) (v : Sample) :
    Memory.wfFrom lo (Memory.write m a v) = true := by
  induction m generalizing lo with
  | nil => exact Memory.enter_wf rfl h v
  | cons e rest ih =>
    obtain ⟨b, u⟩ := e
    obtain ⟨h1, h2, h3⟩ := Memory.wfFrom_cons.1 hm
    rw [Memory.write_cons]
    split
    · exact Memory.enter_wf (Memory.wfFrom_cons.2 ⟨by omega, h2, h3⟩) h v
    · split
      · subst_vars; exact Memory.enter_wf h3 h v
      · exact Memory.wfFrom_cons.2 ⟨h1, h2, ih h3 (by omega)⟩

/-- A write keeps the canonical form. -/
theorem Memory.write_wf {m : Memory} (hm : m.wf = true) (a : Nat) (v : Sample) : (m.write a v).wf = true :=
  Memory.write_wfFrom hm (Nat.zero_le a) v

theorem Memory.read_write_from {m : Memory} {lo : Nat} (hm : Memory.wfFrom lo m = true) (a : Nat) (v : Sample) (b : Nat) :
    Memory.read (Memory.write m a v) b = if b = a then v else Memory.read m b := by
  induction m generalizing lo with
  | nil => exact Memory.read_enter (lo := a + 1) rfl (by omega) v b
  | cons e rest ih =>
    obtain ⟨c, u⟩ := e
    obtain ⟨_, h2, h3⟩ := Memory.wfFrom_cons.1 hm
    rw [Memory.write_cons]
    split
    · exact Memory.read_enter (lo := c) (Memory.wfFrom_cons.2 ⟨le_refl c, h2, h3⟩) ‹_› v b
    · split
      · subst_vars
        rw [Memory.read_enter h3 (by omega), Memory.read_cons]
        split <;> rfl
      · rw [Memory.read_cons, ih h3, Memory.read_cons]
        split
        · subst_vars; rw [if_neg (by omega)]
        · rfl

/-- A read after a write gives the value written at its index, and what was there before at every other. -/
theorem Memory.read_write {m : Memory} (hm : m.wf = true) (a : Nat) (v : Sample) (b : Nat) :
    (m.write a v).read b = if b = a then v else m.read b := Memory.read_write_from hm a v b

theorem Memory.mem_enter {a : Nat} {v : Sample} {m : Memory} {e : Nat × Sample} (h : e ∈ Memory.enter a v m) :
    e = (a, v) ∨ e ∈ m := by
  unfold Memory.enter at h; split at h
  · exact .inr h
  · exact List.mem_cons.1 h

/-- An entry after a write is the one written or was there before. -/
theorem Memory.mem_write {m : Memory} {a : Nat} {v : Sample} {e : Nat × Sample} (h : e ∈ Memory.write m a v) :
    e = (a, v) ∨ e ∈ m := by
  induction m with
  | nil => exact Memory.mem_enter h
  | cons c rest ih =>
    obtain ⟨b, u⟩ := c
    rw [Memory.write_cons] at h
    split at h
    · exact Memory.mem_enter h
    · split at h
      · exact (Memory.mem_enter h).imp_right (List.mem_cons_of_mem _)
      · rcases List.mem_cons.1 h with h | h
        · exact .inr (h ▸ List.mem_cons_self)
        · exact (ih h).imp_right (List.mem_cons_of_mem _)

/-- A write inside [0, n) keeps the memory inside it. -/
theorem Memory.write_within {m : Memory} {n a : Nat} (hm : m.within n) (h : a < n) (v : Sample) :
    (m.write a v).within n := by
  intro e he
  rcases Memory.mem_write he with rfl | he
  · exact h
  · exact hm e he

/-- The empty memory is in canonical form. -/
@[simp] theorem Memory.wf_nil : Memory.wf [] = true := rfl

/-- An index that an in-range memory does not reach reads as unwritten. -/
theorem Memory.read_outside {m : Memory} {n a : Nat} (hm : m.within n) (h : n ≤ a) : m.read a = Memory.unwritten := by
  induction m with
  | nil => rfl
  | cons e rest ih =>
    obtain ⟨b, u⟩ := e
    have hb : b < n := hm (b, u) List.mem_cons_self
    rw [Memory.read_cons, if_neg (by omega)]
    exact ih fun e he => hm e (List.mem_cons_of_mem _ he)

/-- In canonical form the list is determined by what it reads as. -/
theorem Memory.ext_from {m m' : Memory} {lo : Nat} (hm : Memory.wfFrom lo m = true) (hm' : Memory.wfFrom lo m' = true)
    (h : ∀ a, m.read a = m'.read a) : m = m' := by
  induction m generalizing m' lo with
  | nil =>
    cases m' with
    | nil => rfl
    | cons e rest =>
      obtain ⟨b, u⟩ := e
      exact absurd (by simpa [Memory.read_cons] using (h b).symm) (Memory.wfFrom_cons.1 hm').2.1
  | cons e rest ih =>
    obtain ⟨a, v⟩ := e
    obtain ⟨h1, h2, h3⟩ := Memory.wfFrom_cons.1 hm
    cases m' with
    | nil => exact absurd (by simpa [Memory.read_cons] using h a) h2
    | cons e' rest' =>
      obtain ⟨b, u⟩ := e'
      obtain ⟨k1, k2, k3⟩ := Memory.wfFrom_cons.1 hm'
      have key : a = b := by
        by_contra hne
        rcases Nat.lt_or_gt_of_ne hne with hlt | hlt
        · have := h a
          rw [Memory.read_cons, if_pos rfl, Memory.read_below (lo := b) (Memory.wfFrom_cons.2 ⟨le_refl b, k2, k3⟩) hlt] at this
          exact h2 this
        · have := h b
          rw [Memory.read_cons (a := b) b u, if_pos rfl,
            Memory.read_below (lo := a) (Memory.wfFrom_cons.2 ⟨le_refl a, h2, h3⟩) hlt] at this
          exact k2 this.symm
      subst key
      have hv : v = u := by simpa [Memory.read_cons] using h a
      subst hv
      refine congrArg _ (ih h3 k3 fun c => ?_)
      have := h c
      rw [Memory.read_cons, Memory.read_cons] at this
      by_cases hc : c = a
      · subst hc
        rw [Memory.read_below h3 (by omega), Memory.read_below k3 (by omega)]
      · simpa [hc] using this

/-- Equal memories are equal data: two memories in canonical form that read alike are the same list. -/
theorem Memory.ext_of_read {m m' : Memory} (hm : m.wf = true) (hm' : m'.wf = true) (h : ∀ a, m.read a = m'.read a) :
    m = m' := Memory.ext_from hm hm' h

end Sys2Proof.Machine
end

