-- ==== Sys2Proof/Laws/Rounding.lean ====
section
/-!
SUPPORT. The laws of rounding to 53 significant bits: the quotient is within half a unit, rounding is monotone, and a value that is
representable rounds to itself.
-/

namespace Sys2Proof.Machine

/-! ### roundDiv -/

/-- The rounded quotient is within half a divisor of the dividend. -/
theorem roundDiv_near (a b : Nat) (hb : 0 < b) :
    2 * (roundDiv a b * b) ≤ 2 * a + b ∧ 2 * a ≤ 2 * (roundDiv a b * b) + b := by
  have h := Nat.div_add_mod a b
  have hr := Nat.mod_lt a hb
  have hc : b * (a / b) = a / b * b := Nat.mul_comm _ _
  unfold roundDiv
  split
  · omega
  · split
    · rw [Nat.add_mul]; omega
    · have : 2 * (a % b) = b := by omega
      rcases Nat.mod_two_eq_zero_or_one (a / b) with h2 | h2 <;> rw [h2]
      · rw [Nat.add_zero]; omega
      · rw [Nat.add_mul]; omega

theorem roundDiv_mul_self (m b : Nat) (hb : 0 < b) : roundDiv (m * b) b = m := by
  unfold roundDiv
  simp [hb, Nat.mul_mod_left, Nat.mul_div_cancel _ hb]

theorem div_le_div_of_cross {a b c d : Nat} (hb : 0 < b) (hd : 0 < d) (h : a * d ≤ c * b) : a / b ≤ c / d := by
  rw [Nat.le_div_iff_mul_le hd]
  by_contra hlt
  push Not at hlt
  have h1 : c * b < a / b * d * b := Nat.mul_lt_mul_of_pos_right hlt hb
  have h3 : a / b * b * d ≤ a * d := Nat.mul_le_mul_right d (Nat.div_mul_le_self a b)
  have h4 : a / b * d * b = a / b * b * d := by ring
  omega

/-- Rounding a quotient is monotone. -/
theorem roundDiv_mono {a b c d : Nat} (hb : 0 < b) (hd : 0 < d) (h : a * d ≤ c * b) : roundDiv a b ≤ roundDiv c d := by
  have ha := Nat.div_add_mod a b
  have hc := Nat.div_add_mod c d
  have hra := Nat.mod_lt a hb
  have hrc := Nat.mod_lt c hd
  have hq : a / b ≤ c / d := div_le_div_of_cross hb hd h
  rcases Nat.lt_or_eq_of_le hq with hlt | heq
  · have h1 : roundDiv a b ≤ a / b + 1 := by unfold roundDiv; split <;> [omega; (split <;> omega)]
    have h2 : c / d ≤ roundDiv c d := by unfold roundDiv; split <;> [omega; (split <;> omega)]
    omega
  · have hm : a % b * d ≤ c % d * b := by
      have e1 : a * d = b * (a / b) * d + a % b * d := by rw [← Nat.add_mul, ha]
      have e2 : c * b = d * (c / d) * b + c % d * b := by rw [← Nat.add_mul, hc]
      have e3 : b * (a / b) * d = d * (c / d) * b := by rw [heq]; ring
      omega
    have k1 : 2 * (c % d) < d → 2 * (a % b) < b := by
      intro hx
      by_contra hy
      push Not at hy
      have : b * d ≤ 2 * (a % b) * d := Nat.mul_le_mul_right d hy
      have : 2 * (c % d) * b < d * b := Nat.mul_lt_mul_of_pos_right hx hb
      nlinarith
    have k2 : b < 2 * (a % b) → d < 2 * (c % d) := by
      intro hx
      by_contra hy
      push Not at hy
      have : b * d < 2 * (a % b) * d := Nat.mul_lt_mul_of_pos_right hx hd
      have : 2 * (c % d) * b ≤ d * b := Nat.mul_le_mul_right b hy
      nlinarith
    unfold roundDiv
    rw [heq]
    split
    · split <;> [omega; (split <;> omega)]
    · rw [if_neg (fun hx => ‹¬2 * (a % b) < b› (k1 hx))]
      split
      · rw [if_pos (k2 ‹_›)]
      · split <;> omega

/-! ### dropBits -/

theorem dropBits_mono {q q' : Nat} (h : q ≤ q') : dropBits q ≤ dropBits q' := by
  unfold dropBits
  have : q.log2 ≤ q'.log2 := by
    rw [Nat.log2_eq_log_two, Nat.log2_eq_log_two]
    exact Nat.log_mono_right h
  omega

theorem lt_pow_dropBits (q : Nat) : q < 2 ^ (dropBits q + 53) := by
  unfold dropBits
  have h := Nat.lt_log2_self (n := q)
  exact lt_of_lt_of_le h (Nat.pow_le_pow_right (by norm_num) (by omega))

theorem pow_dropBits_le {q : Nat} (h : 0 < dropBits q) : 2 ^ (dropBits q + 52) ≤ q := by
  unfold dropBits at *
  have hq : q ≠ 0 := by rintro rfl; simp at h
  have h2 := Nat.log2_self_le hq
  rwa [Nat.sub_add_cancel (by omega)]

/-! ### roundMag -/

/-- The magnitude bits before the cap at infinity. -/
theorem roundMag_def (a b : Nat) :
    roundMag a b = min (dropBits (a / b) * 2 ^ 52 + roundDiv a (b * 2 ^ dropBits (a / b))) infMag := by
  rw [roundMag]

theorem roundMag_le_infMag (a b : Nat) : roundMag a b ≤ infMag := by rw [roundMag_def]; exact min_le_right _ _

/-- A quotient of 2^52 units of `2^k` or more rounds to 2^52 or more. -/
theorem le_roundDiv_pow {c d k : Nat} (hd : 0 < d) (h : 2 ^ (k + 52) ≤ c / d) : 2 ^ 52 ≤ roundDiv c (d * 2 ^ k) := by
  have hp : 0 < d * 2 ^ k := Nat.mul_pos hd (Nat.two_pow_pos k)
  have hc : 2 ^ (k + 52) * d ≤ c := (Nat.mul_le_mul_right d h).trans (Nat.div_mul_le_self c d)
  have he : 2 ^ 52 * (d * 2 ^ k) = 2 ^ (k + 52) * d := by rw [pow_add]; ring
  have := roundDiv_mono hp hp (Nat.mul_le_mul_right (d * 2 ^ k) (he.trans_le hc))
  rwa [roundDiv_mul_self _ _ hp] at this

/-- A quotient below 2^53 units of `2^k` rounds to 2^53 or less. -/
theorem roundDiv_pow_le {a b k : Nat} (hb : 0 < b) (h : a / b < 2 ^ (k + 53)) : roundDiv a (b * 2 ^ k) ≤ 2 ^ 53 := by
  have hp : 0 < b * 2 ^ k := Nat.mul_pos hb (Nat.two_pow_pos k)
  have ha : a < (a / b + 1) * b := by
    have h1 := Nat.div_add_mod a b
    have h2 := Nat.mod_lt a hb
    rw [Nat.add_mul, Nat.mul_comm (a / b) b]; omega
  have hc : a ≤ 2 ^ (k + 53) * b := ha.le.trans (Nat.mul_le_mul_right b h)
  have he : 2 ^ 53 * (b * 2 ^ k) = 2 ^ (k + 53) * b := by rw [pow_add]; ring
  have := roundDiv_mono hp hp (hc.trans he.symm.le |> fun h' => Nat.mul_le_mul_right (b * 2 ^ k) h')
  rwa [roundDiv_mul_self _ _ hp] at this

/-- Rounding to a binary64 magnitude is monotone. -/
theorem roundMag_mono {a b c d : Nat} (hb : 0 < b) (hd : 0 < d) (h : a * d ≤ c * b) : roundMag a b ≤ roundMag c d := by
  rw [roundMag_def, roundMag_def]
  refine min_le_min_right _ ?_
  have hs := dropBits_mono (div_le_div_of_cross hb hd h)
  have hl := lt_pow_dropBits (a / b)
  have hg : 0 < dropBits (c / d) → _ := pow_dropBits_le (q := c / d)
  generalize dropBits (a / b) = k at *
  generalize dropBits (c / d) = l at *
  rcases Nat.lt_or_eq_of_le hs with hlt | rfl
  · have hlow := le_roundDiv_pow hd (hg (by omega))
    have hhigh := roundDiv_pow_le hb hl
    have : (k + 1) * 2 ^ 52 ≤ l * 2 ^ 52 := Nat.mul_le_mul_right _ hlt
    generalize roundDiv a _ = x at *
    generalize roundDiv c _ = y at *
    omega
  · refine Nat.add_le_add_left (roundDiv_mono (Nat.mul_pos hb (Nat.two_pow_pos _)) (Nat.mul_pos hd (Nat.two_pow_pos _)) ?_) _
    calc a * (d * 2 ^ k) = a * d * 2 ^ k := by ring
      _ ≤ c * b * 2 ^ k := Nat.mul_le_mul_right _ h
      _ = c * (b * 2 ^ k) := by ring

theorem log2_sig (f k : Nat) (hf : f < 2 ^ 52) : ((2 ^ 52 + f) * 2 ^ k).log2 = 52 + k := by
  have hne : (2 ^ 52 + f) * 2 ^ k ≠ 0 := by positivity
  rw [Nat.log2_eq_iff hne]
  constructor
  · rw [pow_add]; exact Nat.mul_le_mul_right _ (by omega)
  · rw [show 52 + k + 1 = 53 + k from by omega, pow_add]
    exact Nat.mul_lt_mul_of_pos_right (by omega) (Nat.two_pow_pos k)

/-- A representable magnitude rounds to itself. -/
theorem roundMag_exact {m : Nat} (hm : m ≤ infMag) (b : Nat) (hb : 0 < b) : roundMag (magUnits m * b) b = m := by
  rw [roundMag_def, Nat.mul_div_cancel _ hb]
  have hdm := Nat.div_add_mod m (2 ^ 52)
  have hf : m % 2 ^ 52 < 2 ^ 52 := Nat.mod_lt _ (by norm_num)
  unfold magUnits
  split
  · rename_i h0
    have hl : (m % 2 ^ 52).log2 ≤ 52 := by
      rcases Nat.eq_zero_or_pos (m % 2 ^ 52) with h | h
      · rw [h]; simp
      · have := Nat.log2_lt (n := m % 2 ^ 52) (k := 52) (by omega) |>.2 hf
        omega
    have hd : dropBits (m % 2 ^ 52) = 0 := by unfold dropBits; omega
    have e : m % 2 ^ 52 = m := by rw [h0] at hdm; omega
    rw [hd, pow_zero, Nat.mul_one, roundDiv_mul_self _ _ hb, Nat.zero_mul, Nat.zero_add, e, min_eq_left hm]
  · rename_i h0
    have hd : dropBits ((2 ^ 52 + m % 2 ^ 52) * 2 ^ (m / 2 ^ 52 - 1)) = m / 2 ^ 52 - 1 := by
      unfold dropBits; rw [log2_sig _ _ hf]; omega
    rw [hd, show (2 ^ 52 + m % 2 ^ 52) * 2 ^ (m / 2 ^ 52 - 1) * b = (2 ^ 52 + m % 2 ^ 52) * (b * 2 ^ (m / 2 ^ 52 - 1)) by ring,
      roundDiv_mul_self _ _ (Nat.mul_pos hb (Nat.two_pow_pos _))]
    have e : (m / 2 ^ 52 - 1) * 2 ^ 52 + (2 ^ 52 + m % 2 ^ 52) = m := by omega
    rw [e, min_eq_left hm]

/-- What is at most a representable magnitude rounds to at most it. -/
theorem roundMag_le {a b m : Nat} (hb : 0 < b) (hm : m ≤ infMag) (h : a ≤ magUnits m * b) : roundMag a b ≤ m := by
  have := roundMag_mono (a := a) (b := b) (c := magUnits m * b) (d := b) hb hb (Nat.mul_le_mul_right b h)
  rwa [roundMag_exact hm b hb] at this

/-- What is at least a representable magnitude rounds to at least it. -/
theorem le_roundMag {a b m : Nat} (hb : 0 < b) (hm : m ≤ infMag) (h : magUnits m * b ≤ a) : m ≤ roundMag a b := by
  have := roundMag_mono (a := magUnits m * b) (b := b) (c := a) (d := b) hb hb (Nat.mul_le_mul_right b h)
  rwa [roundMag_exact hm b hb] at this

/-! ### magUnits -/

@[simp] theorem magUnits_zero : magUnits 0 = 0 := rfl

/-- Larger magnitude bits are a larger value. -/
theorem magUnits_strictMono {m m' : Nat} (h : m < m') : magUnits m < magUnits m' := by
  have h1 := Nat.div_add_mod m (2 ^ 52)
  have h2 := Nat.div_add_mod m' (2 ^ 52)
  have hf1 : m % 2 ^ 52 < 2 ^ 52 := Nat.mod_lt _ (by norm_num)
  have hf2 : m' % 2 ^ 52 < 2 ^ 52 := Nat.mod_lt _ (by norm_num)
  have hq : m / 2 ^ 52 ≤ m' / 2 ^ 52 := Nat.div_le_div_right h.le
  unfold magUnits
  by_cases h0 : m / 2 ^ 52 = 0
  · rw [if_pos h0]
    by_cases h0' : m' / 2 ^ 52 = 0
    · rw [if_pos h0']; rw [h0] at h1; rw [h0'] at h2; omega
    · rw [if_neg h0']
      have : 2 ^ 52 + m' % 2 ^ 52 ≤ (2 ^ 52 + m' % 2 ^ 52) * 2 ^ (m' / 2 ^ 52 - 1) :=
        Nat.le_mul_of_pos_right _ (Nat.two_pow_pos _)
      omega
  · rw [if_neg h0, if_neg (by omega)]
    rcases Nat.lt_or_eq_of_le hq with hlt | heq
    · calc (2 ^ 52 + m % 2 ^ 52) * 2 ^ (m / 2 ^ 52 - 1) < 2 ^ 53 * 2 ^ (m / 2 ^ 52 - 1) :=
            Nat.mul_lt_mul_of_pos_right (by omega) (Nat.two_pow_pos _)
        _ = 2 ^ 52 * 2 ^ (m / 2 ^ 52 - 1 + 1) := by rw [pow_succ]; ring
        _ ≤ 2 ^ 52 * 2 ^ (m' / 2 ^ 52 - 1) := Nat.mul_le_mul_left _ (Nat.pow_le_pow_right (by norm_num) (by omega))
        _ ≤ _ := Nat.mul_le_mul_right _ (by omega)
    · rw [heq] at h1 ⊢
      exact Nat.mul_lt_mul_of_pos_right (by omega) (Nat.two_pow_pos _)

theorem magUnits_mono {m m' : Nat} (h : m ≤ m') : magUnits m ≤ magUnits m' := by
  rcases Nat.lt_or_eq_of_le h with h | rfl
  · exact (magUnits_strictMono h).le
  · exact le_refl _

theorem magUnits_le_iff {m m' : Nat} : magUnits m ≤ magUnits m' ↔ m ≤ m' :=
  ⟨fun h => by by_contra hlt; push Not at hlt; exact absurd (magUnits_strictMono hlt) (by omega), magUnits_mono⟩

theorem magUnits_pos {m : Nat} (h : 0 < m) : 0 < magUnits m := magUnits_strictMono h

end Sys2Proof.Machine
end

