-- ==== Sys2Proof/Laws/Numeric.lean ====
section
/-!
SUPPORT. The laws of binary64 arithmetic the statements rest on: sign and magnitude of an encoding, the order, the clamp, and what
a sum, a product or a difference of finite values can be.
-/

namespace Sys2Proof.Machine

/-! ### Sign and magnitude -/

theorem infMag_lt : infMag < 2 ^ 63 := by norm_num [infMag]

theorem mag_lt (v : Sample) : mag v < 2 ^ 63 := Nat.mod_lt _ (by norm_num)

theorem isNeg_eq (v : Sample) : isNeg v = decide (2 ^ 63 ≤ v.toNat) := by
  unfold isNeg; rw [BitVec.msb_eq_decide]

theorem toNat_ofMag (neg : Bool) {m : Nat} (hm : m < 2 ^ 63) :
    (ofMag neg m).toNat = (if neg then 2 ^ 63 + m else m) := by
  unfold ofMag; rw [BitVec.toNat_ofNat, Nat.mod_eq_of_lt]; split <;> omega

theorem mag_ofMag (neg : Bool) {m : Nat} (hm : m < 2 ^ 63) : mag (ofMag neg m) = m := by
  unfold mag; rw [toNat_ofMag neg hm]; split <;> omega

theorem isNeg_ofMag (neg : Bool) {m : Nat} (hm : m < 2 ^ 63) : isNeg (ofMag neg m) = neg := by
  rw [isNeg_eq, toNat_ofMag neg hm]; cases neg <;> simp; omega

/-- A value is its sign and its magnitude bits. -/
theorem ofMag_mag (v : Sample) : ofMag (isNeg v) (mag v) = v := by
  apply BitVec.eq_of_toNat_eq
  rw [toNat_ofMag _ (mag_lt v), isNeg_eq]
  unfold mag
  have := v.isLt
  by_cases h : 2 ^ 63 ≤ v.toNat
  · rw [if_pos (by simpa using h)]; omega
  · rw [if_neg (by simpa using h)]; omega

theorem sample_ext {u v : Sample} (hs : isNeg u = isNeg v) (hm : mag u = mag v) : u = v := by
  rw [← ofMag_mag u, ← ofMag_mag v, hs, hm]

@[simp] theorem mag_fneg (v : Sample) : mag (fneg v) = mag v := mag_ofMag _ (mag_lt v)

@[simp] theorem isNeg_fneg (v : Sample) : isNeg (fneg v) = !isNeg v := isNeg_ofMag _ (mag_lt v)

@[simp] theorem isNaN_fneg (v : Sample) : isNaN (fneg v) = isNaN v := by unfold isNaN; rw [mag_fneg]

@[simp] theorem isFinite_fneg (v : Sample) : isFinite (fneg v) = isFinite v := by unfold isFinite; rw [mag_fneg]

@[simp] theorem mag_fabs (v : Sample) : mag (fabs v) = mag v := mag_ofMag false (mag_lt v)

@[simp] theorem isNeg_fabs (v : Sample) : isNeg (fabs v) = false := isNeg_ofMag false (mag_lt v)

@[simp] theorem ordKey_fneg (v : Sample) : ordKey (fneg v) = -ordKey v := by
  unfold ordKey; rw [mag_fneg, isNeg_fneg]; cases isNeg v <;> simp

theorem ordKey_fabs (v : Sample) : ordKey (fabs v) = mag v := by unfold ordKey; simp

@[simp] theorem units_fneg (v : Sample) : units (fneg v) = -units v := by
  unfold units; rw [mag_fneg, isNeg_fneg]; cases isNeg v <;> simp

theorem mag_eq_natAbs_ordKey (v : Sample) : mag v = (ordKey v).natAbs := by
  unfold ordKey; split <;> simp

theorem isFinite_iff (v : Sample) : isFinite v = true ↔ mag v < infMag := by simp [isFinite]

theorem isNaN_iff (v : Sample) : isNaN v = true ↔ infMag < mag v := by simp [isNaN]

theorem not_isNaN_iff (v : Sample) : isNaN v = false ↔ mag v ≤ infMag := by simp [isNaN]

theorem isNaN_of_finite {v : Sample} (h : isFinite v = true) : isNaN v = false := by
  rw [not_isNaN_iff]; exact ((isFinite_iff v).1 h).le

theorem isInf_of_finite {v : Sample} (h : isFinite v = true) : isInf v = false := by
  have := (isFinite_iff v).1 h; simp [isInf]; omega

theorem fle_iff (a b : Sample) : fle a b = true ↔ isNaN a = false ∧ isNaN b = false ∧ ordKey a ≤ ordKey b := by
  simp [fle, and_assoc]

theorem flt_iff (a b : Sample) : flt a b = true ↔ isNaN a = false ∧ isNaN b = false ∧ ordKey a < ordKey b := by
  simp [flt, and_assoc]

theorem ofMag_fzero : fzero = ofMag false 0 := rfl

@[simp] theorem mag_fzero : mag fzero = 0 := mag_ofMag false (by norm_num)

@[simp] theorem ordKey_fzero : ordKey fzero = 0 := by unfold ordKey; rw [mag_fzero]; split <;> rfl

@[simp] theorem isFinite_fzero : isFinite fzero = true := by
  rw [isFinite_iff, mag_fzero]; norm_num [infMag]

/-! ### Constants -/

theorem oneUnits_pos : 0 < oneUnits := Nat.two_pow_pos _

/-- 1.0 is 2^1074 units. -/
theorem mag_fone : mag fone = 1023 * 2 ^ 52 := by decide +kernel

theorem magUnits_mag_fone : magUnits (mag fone) = oneUnits := by
  rw [mag_fone]
  have h1 : 1023 * 2 ^ 52 / 2 ^ 52 = 1023 := by norm_num
  have h2 : 1023 * 2 ^ 52 % 2 ^ 52 = 0 := by norm_num
  unfold magUnits oneUnits
  rw [h1, h2, if_neg (by norm_num), Nat.add_zero, ← pow_add]

theorem isNeg_fone : isNeg fone = false := by decide +kernel

/-! ### Bounds and the clamp -/

theorem withinBound_iff (l v : Sample) :
    withinBound l v = true ↔ isNaN l = false ∧ isNaN v = false ∧ -ordKey l ≤ ordKey v ∧ ordKey v ≤ ordKey l := by
  simp only [withinBound, Bool.and_eq_true, fle_iff, isNaN_fneg, ordKey_fneg]
  tauto

/-- What is within a finite bound is finite. -/
theorem isFinite_of_withinBound {l v : Sample} (hl : isFinite l = true) (h : withinBound l v = true) : isFinite v = true := by
  rw [withinBound_iff] at h
  rw [isFinite_iff] at hl ⊢
  rw [mag_eq_natAbs_ordKey] at hl ⊢
  omega

/-- The clamp of a number is within its bound. -/
theorem clamp_withinBound {v l : Sample} (hv : isNaN v = false) (hl : isNaN l = false) (h0 : 0 ≤ ordKey l) :
    withinBound l (clamp v l) = true := by
  have hn : isNaN (fneg l) = false := by simpa using hl
  unfold clamp
  rw [if_neg (by simp [hv, hl])]
  rw [withinBound_iff]
  unfold fmin fmax
  by_cases h1 : flt v (fneg l) = true
  · rw [if_pos h1]
    rw [if_neg (by rw [flt_iff, ordKey_fneg]; omega)]
    exact ⟨hl, hn, by rw [ordKey_fneg], by rw [ordKey_fneg]; omega⟩
  · rw [if_neg h1]
    rw [flt_iff, ordKey_fneg] at h1
    have h1' : -ordKey l ≤ ordKey v := by by_contra hc; exact h1 ⟨hv, hn, by omega⟩
    by_cases h2 : flt l v = true
    · rw [if_pos h2]; exact ⟨hl, hl, by omega, le_refl _⟩
    · rw [if_neg h2]
      rw [flt_iff] at h2
      refine ⟨hl, hv, h1', ?_⟩
      by_contra hc; exact h2 ⟨hl, hv, by omega⟩

/-- The clamp leaves a value within the bound as it is. -/
theorem clamp_of_withinBound {v l : Sample} (h : withinBound l v = true) : clamp v l = v := by
  rw [withinBound_iff] at h
  unfold clamp fmin fmax
  have h1 : ¬flt v (fneg l) = true := by rw [flt_iff, ordKey_fneg]; omega
  have h2 : ¬flt l v = true := by rw [flt_iff]; omega
  rw [if_neg (by simp [h.1, h.2.1]), if_neg h1, if_neg h2]

theorem positive_iff (v : Sample) : positive v = true ↔ isFinite v = true ∧ 0 < ordKey v := by
  simp only [positive, Bool.and_eq_true, flt_iff, ordKey_fzero]
  constructor
  · rintro ⟨h1, _, _, h2⟩; exact ⟨h1, h2⟩
  · rintro ⟨h1, h2⟩; exact ⟨h1, isNaN_of_finite isFinite_fzero, isNaN_of_finite h1, h2⟩

/-! ### Products -/

/-- A product of finite values: sign by the rule of signs, magnitude rounded once. -/
theorem fmul_finite {a b : Sample} (ha : isFinite a = true) (hb : isFinite b = true) :
    fmul a b = ofMag (isNeg a != isNeg b) (roundMag (magUnits (mag a) * magUnits (mag b)) oneUnits) := by
  rw [fmul, if_neg (by simp [isNaN_of_finite ha, isNaN_of_finite hb]),
    if_neg (by simp [isInf_of_finite ha, isInf_of_finite hb])]

theorem roundMag_lt (a b : Nat) : roundMag a b < 2 ^ 63 := lt_of_le_of_lt (roundMag_le_infMag a b) infMag_lt

theorem mag_fmul {a b : Sample} (ha : isFinite a = true) (hb : isFinite b = true) :
    mag (fmul a b) = roundMag (magUnits (mag a) * magUnits (mag b)) oneUnits := by
  rw [fmul_finite ha hb, mag_ofMag _ (roundMag_lt _ _)]

/-- A product of finite values is no NaN. -/
theorem isNaN_fmul {a b : Sample} (ha : isFinite a = true) (hb : isFinite b = true) : isNaN (fmul a b) = false := by
  rw [not_isNaN_iff, mag_fmul ha hb]; exact roundMag_le_infMag _ _

/-- A product grows in magnitude with its first factor. -/
theorem mag_fmul_mono {a b c : Sample} (ha : isFinite a = true) (hb : isFinite b = true) (hc : isFinite c = true)
    (h : mag a ≤ mag b) : mag (fmul a c) ≤ mag (fmul b c) := by
  rw [mag_fmul ha hc, mag_fmul hb hc]
  exact roundMag_mono oneUnits_pos oneUnits_pos
    (Nat.mul_le_mul_right _ (Nat.mul_le_mul_right _ (magUnits_mono h)))

/-- A product with a factor of magnitude at most 1 is no larger than the other factor. -/
theorem mag_fmul_le {a b : Sample} (ha : isFinite a = true) (hb : isFinite b = true) (h : mag b ≤ mag fone) :
    mag (fmul a b) ≤ mag a := by
  rw [mag_fmul ha hb]
  refine roundMag_le oneUnits_pos ((isFinite_iff a).1 ha).le (Nat.mul_le_mul_left _ ?_)
  rw [← magUnits_mag_fone]; exact magUnits_mono h

/-! ### Sums -/

/-- A sum of finite values: exact, then rounded once. -/
theorem fadd_finite {a b : Sample} (ha : isFinite a = true) (hb : isFinite b = true) :
    fadd a b = if units a + units b = 0 then ofMag (isNeg a && isNeg b) 0
      else ofMag (decide (units a + units b < 0)) (roundMag (units a + units b).natAbs 1) := by
  rw [fadd, if_neg (by simp [isNaN_of_finite ha, isNaN_of_finite hb]), if_neg (by simp [isInf_of_finite ha]),
    if_neg (by simp [isInf_of_finite hb])]

theorem mag_fadd {a b : Sample} (ha : isFinite a = true) (hb : isFinite b = true) :
    mag (fadd a b) = roundMag (units a + units b).natAbs 1 := by
  rw [fadd_finite ha hb]
  split
  · rename_i h
    rw [h, mag_ofMag _ (by norm_num), Int.natAbs_zero]
    have := roundMag_exact (m := 0) (Nat.zero_le _) 1 Nat.one_pos
    simpa using this.symm
  · rw [mag_ofMag _ (roundMag_lt _ _)]

/-- A sum of finite values is no NaN. -/
theorem isNaN_fadd {a b : Sample} (ha : isFinite a = true) (hb : isFinite b = true) : isNaN (fadd a b) = false := by
  rw [not_isNaN_iff, mag_fadd ha hb]; exact roundMag_le_infMag _ _

/-- A difference that is no NaN is the sum of `a` and `-b`. -/
theorem fsub_of_not_isNaN {a b : Sample} (h : isNaN (fadd a (fneg b)) = false) : fsub a b = fadd a (fneg b) := by
  unfold fsub; rw [if_neg (by simp [h])]

/-- A difference of finite values is the sum of `a` and `-b`. -/
theorem fsub_finite {a b : Sample} (ha : isFinite a = true) (hb : isFinite b = true) : fsub a b = fadd a (fneg b) :=
  fsub_of_not_isNaN (isNaN_fadd ha (by simpa using hb))

/-- The sign of a number above 0, below 0, and of a zero. -/
theorem sgn_of_number {v : Sample} (h : isNaN v = false) :
    sgn v = if flt fzero v then fone else if flt v fzero then fneg fone else fzero := by
  unfold sgn; rw [if_neg (by simp [h])]

theorem units_nonneg {v : Sample} (h : isNeg v = false) : units v = magUnits (mag v) := by unfold units; simp [h]

/-- A sum of two values that are not negative is at least the first. -/
theorem mag_le_fadd {a b : Sample} (ha : isFinite a = true) (hb : isFinite b = true) (hna : isNeg a = false)
    (hnb : isNeg b = false) : mag a ≤ mag (fadd a b) := by
  rw [mag_fadd ha hb, units_nonneg hna, units_nonneg hnb]
  refine le_roundMag Nat.one_pos ((isFinite_iff a).1 ha).le ?_
  omega

/-- A sum of values that are not negative grows with its second term. -/
theorem mag_fadd_mono {a b c : Sample} (ha : isFinite a = true) (hb : isFinite b = true) (hc : isFinite c = true)
    (hna : isNeg a = false) (hnb : isNeg b = false) (hnc : isNeg c = false) (h : mag b ≤ mag c) :
    mag (fadd a b) ≤ mag (fadd a c) := by
  rw [mag_fadd ha hb, mag_fadd ha hc, units_nonneg hna, units_nonneg hnb, units_nonneg hnc]
  refine roundMag_mono Nat.one_pos Nat.one_pos ?_
  have := magUnits_mono h
  omega

end Sys2Proof.Machine
end

