-- ==== Sys2Proof/Laws/Ops.lean ====
section
/-!
SUPPORT. One lemma per shared operation that says all it can do: register and memory access, the read position, the coefficient path,
the write-back, and what any instruction can do to the state.
-/

namespace Sys2Proof.Machine

/-! ### Registers -/

theorem RegIx.toNat_lt (i : RegIx) : i.toNat < 8 := i.isLt

/-- Writing a register changes that register alone. -/
theorem State.reg_setReg (s : State) (i : RegIx) (v : Sample) (j : RegIx) :
    (s.setReg i v).reg j = if j = i then v else s.reg j := by
  unfold State.reg State.setReg
  simp only [Vector.getElem_set]
  by_cases h : j = i
  · subst h; simp
  · rw [if_neg h, if_neg (fun hc => h (BitVec.eq_of_toNat_eq hc.symm))]

/-- A load writes the clamped value (R115). -/
theorem State.reg_load (s : State) (w : RegIx) (v : Sample) (j : RegIx) :
    (s.load w v).reg j = if j = w then s.clampR v else s.reg j := State.reg_setReg s w _ j

@[simp] theorem State.reg_load_self (s : State) (w : RegIx) (v : Sample) : (s.load w v).reg w = s.clampR v := by
  rw [State.reg_load, if_pos rfl]

theorem State.reg_load_ne (s : State) {w j : RegIx} (h : j ≠ w) (v : Sample) : (s.load w v).reg j = s.reg j := by
  rw [State.reg_load, if_neg h]

@[simp] theorem State.reg_resetEngine (s : State) (i : RegIx) : s.resetEngine.reg i = fzero := by
  unfold State.reg State.resetEngine; simp

/-- Two states with equal registers have equal register files. -/
theorem State.x_ext {s t : State} (h : ∀ i, s.reg i = t.reg i) : s.x = t.x := by
  apply Vector.ext
  intro i hi
  have := h (BitVec.ofNat 3 i)
  unfold State.reg at this
  simpa [Nat.mod_eq_of_lt hi] using this

/-! ### Delay memory -/

/-- A read after a write. -/
theorem State.memRead_memWrite {s : State} (h : s.mem.wf = true) (p : Nat) (v : Sample) (a : Nat) :
    (s.memWrite p v).memRead a = if a = p then v else s.memRead a := Memory.read_write h p v a

/-- A write-back stores `SoftLimit(x[w]) × damping` at its index and nothing else (R53). -/
theorem State.memRead_writeBack {s : State} (h : s.mem.wf = true) (w : RegIx) (p a : Nat) :
    (s.writeBack w p).memRead a = if a = p then s.stored (s.reg w) else s.memRead a := Memory.read_write h p _ a

/-- A read position is an index of the delay memory (R50, R57). -/
theorem wrapPos_lt {n : Nat} (hn : 0 < n) (wp : Nat) (off : Int) : wrapPos n wp off < n := by
  unfold wrapPos
  have h1 := Int.emod_nonneg ((wp : Int) - off) (show (n : Int) ≠ 0 by omega)
  have h2 := Int.emod_lt_of_pos ((wp : Int) - off) (show (0 : Int) < n by omega)
  omega

/-! ### What an instruction can do -/

/-- An instruction changes nothing, loads one register, stores one register's value, or loads a register and then stores it. -/
theorem exec_shape (i : Instr) (s : State) :
    ∃ t, exec i s = .next t ∧
      (t = s ∨ (∃ w v, t = s.load w v) ∨ (∃ w off, t = s.writeBack w (s.readPos off)) ∨
        ∃ w v off, t = (s.load w v).writeBack w (s.readPos off)) := by
  cases i with
  | nop => exact ⟨_, rfl, .inl rfl⟩
  | skip => exact ⟨_, rfl, .inl rfl⟩
  | wrt _ w off => exact ⟨_, rfl, .inr (.inr (.inl ⟨w, off, rfl⟩))⟩
  | rdt _ w off => exact ⟨_, rfl, .inr (.inl ⟨w, _, rfl⟩)⟩
  | mulM _ w _ k off => exact ⟨_, rfl, .inr (.inl ⟨w, _, rfl⟩)⟩
  | mulMSentinel w _ k off => exact ⟨_, rfl, .inr (.inl ⟨w, _, rfl⟩)⟩
  | mulwM _ w _ k off => exact ⟨_, rfl, .inr (.inr (.inr ⟨w, _, off, rfl⟩))⟩
  | macM _ w _ k off => exact ⟨_, rfl, .inr (.inl ⟨w, _, rfl⟩)⟩
  | macMSentinel w _ k off => exact ⟨_, rfl, .inr (.inl ⟨w, _, rfl⟩)⟩
  | macwM _ w _ k off => exact ⟨_, rfl, .inr (.inr (.inr ⟨w, _, off, rfl⟩))⟩
  | mulR _ w r k off => exact ⟨_, rfl, .inr (.inl ⟨w, _, rfl⟩)⟩
  | mulRSentinel w r k off => exact ⟨_, rfl, .inr (.inl ⟨w, _, rfl⟩)⟩
  | mulwR _ w r k off => exact ⟨_, rfl, .inr (.inr (.inr ⟨w, _, off, rfl⟩))⟩
  | macR _ w r k off => exact ⟨_, rfl, .inr (.inl ⟨w, _, rfl⟩)⟩
  | macRSentinel w r k off => exact ⟨_, rfl, .inr (.inl ⟨w, _, rfl⟩)⟩
  | macwR _ w r k off => exact ⟨_, rfl, .inr (.inr (.inr ⟨w, _, off, rfl⟩))⟩

/-- The state an instruction leaves differs in registers and delay memory at most. -/
theorem exec_touches {i : Instr} {s t : State} (h : exec i s = .next t) : t = { s with x := t.x, mem := t.mem } := by
  obtain ⟨u, hu, hs⟩ := exec_shape i s
  rw [hu] at h
  cases h
  rcases hs with rfl | ⟨w, v, rfl⟩ | ⟨w, off, rfl⟩ | ⟨w, v, off, rfl⟩ <;> rfl

end Sys2Proof.Machine
end

