-- ==== Sys2Proof/Laws/Step.lean ====
section
/-!
SUPPORT. What a step can do: the running engine executes one microcode step and never stops; the idle engine accepts a call or
does nothing. Runs of several steps compose.
-/

namespace Sys2Proof.Machine

/-! ### Steps -/

/-- A running engine's step is one microcode step. -/
theorem step_running {s : State} (h : s.job ≠ .idle) : step s = s.programStep := by
  unfold step State.run; rw [if_neg h]

/-- An idle engine's step is the idle step. -/
theorem step_idle {s : State} (h : s.job = .idle) : step s = s.idleStep := by
  unfold step State.run; rw [if_pos h]

/-- A microcode step: some state `t` follows the instruction, and the capture and the advance follow it. -/
theorem programStep_next (s : State) :
    ∃ t, exec s.fetch s.inject = .next t ∧ s.programStep = .next t.capture.advance := by
  obtain ⟨t, ht, _⟩ := exec_shape s.fetch s.inject
  exact ⟨t, ht, by unfold State.programStep; rw [ht]⟩

/-- All a running engine's step can do. -/
theorem step_running_cases {s s' : State} (h : s.job ≠ .idle) (hs : step s = .next s') :
    ∃ t, exec s.fetch s.inject = .next t ∧ s' = t.capture.advance := by
  obtain ⟨t, ht, hp⟩ := programStep_next s
  rw [step_running h, hp] at hs
  cases hs
  exact ⟨t, ht, rfl⟩

/-- All an idle engine's step can do. -/
theorem step_idle_cases {s s' : State} (h : s.job = .idle) (hs : step s = .next s') :
    (s.calls = [] ∧ s' = s) ∨ ∃ c rest, s.calls = c :: rest ∧ State.call c { s with calls := rest } = .next s' := by
  rw [step_idle h] at hs
  unfold State.idleStep at hs
  split at hs
  · cases hs; exact .inl ⟨‹_›, rfl⟩
  · exact .inr ⟨_, _, ‹_›, hs⟩

/-! ### Advance -/

/-- Before step 127 the advance only moves the step index. -/
theorem State.advance_of_ne {s : State} (h : s.pc ≠ 127) : s.advance = { s with pc := s.pc + 1 } := by
  unfold State.advance; rw [if_neg h]

/-- After step 127 the sample ends and the job goes on. -/
theorem State.advance_of_eq {s : State} (h : s.pc = 127) : s.advance = s.endSample.jobNext := by
  unfold State.advance; rw [if_pos h]

/-- What follows the end of a sample changes the job, the inputs and the returned value at most. -/
theorem State.jobNext_eq (s : State) :
    s.jobNext = { s with job := s.jobNext.job, inL := s.jobNext.inL, inR := s.jobNext.inR, ret := s.jobNext.ret } := by
  unfold State.jobNext
  split
  · rfl
  · rfl
  · unfold State.impulseNext; split <;> rfl
  · unfold State.sweepNext; split <;> rfl

/-! ### Runs -/

theorem After.zero (s : State) : After 0 s s := rfl

theorem After.zero_iff {s t : State} : After 0 s t ↔ t = s := by
  constructor
  · intro h; cases h; rfl
  · rintro rfl; rfl

/-- A run of one step more, its first step apart. -/
theorem After.succ_iff {k : Nat} {s t : State} : After (k + 1) s t ↔ ∃ u, step s = .next u ∧ After k u t := by
  unfold After
  rw [Host.Core.run.eq_2 Sys2Proof.core s k, show Sys2Proof.core.step s = step s from rfl]
  generalize step s = o
  cases o with
  | next v => exact ⟨fun h => ⟨v, rfl, h⟩, fun ⟨u, hu, h⟩ => by cases hu; exact h⟩
  | fault r => exact ⟨fun h => (by cases h), fun ⟨u, hu, _⟩ => by cases hu⟩
  | refused r => exact ⟨fun h => (by cases h), fun ⟨u, hu, _⟩ => by cases hu⟩

/-- A run of one step. -/
theorem After.one_iff {s t : State} : After 1 s t ↔ step s = .next t := by
  rw [After.succ_iff]
  constructor
  · rintro ⟨u, hu, h⟩; rw [After.zero_iff] at h; rw [h]; exact hu
  · intro h; exact ⟨t, h, rfl⟩

/-- Runs compose. -/
theorem After.add {j k : Nat} {s t u : State} (h1 : After j s t) (h2 : After k t u) : After (j + k) s u := by
  induction j generalizing s with
  | zero => rw [After.zero_iff] at h1; subst h1; rwa [Nat.zero_add]
  | succ j ih =>
    obtain ⟨v, hv, hrest⟩ := After.succ_iff.1 h1
    rw [Nat.succ_add, After.succ_iff]
    exact ⟨v, hv, ih hrest⟩

/-- A run has one end. -/
theorem After.unique {k : Nat} {s t u : State} (h1 : After k s t) (h2 : After k s u) : t = u := by
  unfold After at h1 h2; rw [h1] at h2; cases h2; rfl

/-- An invariant every step keeps holds after every run. -/
theorem After.invariant {P : State → Prop} (hstep : ∀ s t, P s → step s = .next t → P t) {k : Nat} {s t : State} (hs : P s)
    (h : After k s t) : P t := by
  induction k generalizing s with
  | zero => rw [After.zero_iff] at h; exact h ▸ hs
  | succ k ih =>
    obtain ⟨u, hu, hrest⟩ := After.succ_iff.1 h
    exact ih (hstep s u hs hu) hrest

end Sys2Proof.Machine
end

