-- ==== Sys2Proof/Laws/HostOps.lean ====
section
/-!
SUPPORT. What the checks of the host operations answer, and that a machine with no call pending never stops.
-/

namespace Sys2Proof.Machine

/-! ### The checks of Construct -/

/-- A finite value of `z` whole units of 1.0 rounds to `z`. -/
theorem roundHalfEven_of_units {v : Sample} {z : Int} (hv : isFinite v = true) (h : units v = z * oneUnits) :
    roundHalfEven v = z := by
  have hmag : magUnits (mag v) = z.natAbs * oneUnits := by
    have := congrArg Int.natAbs h
    rw [Int.natAbs_mul, Int.natAbs_natCast] at this
    rw [← this]; unfold units; split <;> simp
  have hpos : (0 : Int) < oneUnits := by exact_mod_cast oneUnits_pos
  rw [roundHalfEven, if_pos hv, hmag, roundDiv_mul_self _ _ oneUnits_pos]
  cases hn : isNeg v
  · have : 0 ≤ z := by
      by_contra hz
      have := mul_neg_of_neg_of_pos (not_le.1 hz) hpos
      rw [← h, units_nonneg hn] at this; omega
    rw [if_neg (by decide)]; omega
  · have : z ≤ 0 := by
      by_contra hz
      have := mul_pos (not_le.1 hz) hpos
      rw [← h] at this; unfold units at this; rw [hn] at this; simp at this; omega
    rw [if_pos rfl]; omega

/-- A Sample is the integer `z` exactly when it is finite and has that value. -/
theorem exactInt_eq_some_iff (v : Sample) (z : Int) :
    exactInt v = some z ↔ isFinite v = true ∧ units v = z * oneUnits := by
  unfold exactInt
  constructor
  · intro h
    split at h
    · next hc =>
      rw [Bool.and_eq_true, decide_eq_true_iff] at hc
      cases h; exact hc
    · cases h
  · rintro ⟨hv, h⟩
    rw [roundHalfEven_of_units hv h, if_pos (by rw [hv, decide_eq_true h]; rfl)]

/-- A program index names the program `p` exactly when it is the integer `p`. -/
theorem ProgramIndex.program_eq_some_iff (i : ProgramIndex) (p : Fin 6) :
    i.program = some p ↔ i.integer = some (p.val : Int) := by
  unfold ProgramIndex.program
  cases i.integer with
  | none => simp
  | some z =>
    simp only [Option.some.injEq]
    split
    · next h => rw [Option.some.injEq, Fin.ext_iff, Fin.val_ofNat]; omega
    · next h => have := p.isLt; constructor
                · intro h'; cases h'
                · intro h'; omega

/-- All the checks of Construct can answer. -/
theorem constructCheck_cases (i : ProgramIndex) (fs : Sample) :
    (i.program = none ∧ constructCheck i fs = .error (.programIndex i)) ∨
    ∃ p, i.program = some p ∧
      ((notPositive fs = true ∧ constructCheck i fs = .error (.sampleRate fs)) ∨
        (notPositive fs = false ∧ constructCheck i fs = .ok p)) := by
  unfold constructCheck
  cases i.program with
  | none => exact .inl ⟨rfl, rfl⟩
  | some p => refine .inr ⟨p, rfl, ?_⟩; cases notPositive fs <;> simp

/-! ### Runs without pending calls -/

/-- A step of a machine with no call pending has a next state, with no call pending. -/
theorem step_of_no_calls {s : State} (h : s.calls = []) : ∃ t, step s = .next t ∧ t.calls = [] := by
  by_cases hj : s.job = .idle
  · refine ⟨s, ?_, h⟩
    rw [step_idle hj]; unfold State.idleStep; rw [h]
  · obtain ⟨t, ht, hp⟩ := programStep_next s
    refine ⟨t.capture.advance, by rw [step_running hj, hp], ?_⟩
    have hinj : s.inject.calls = s.calls := by
      unfold State.inject; split
      · rfl
      · split <;> rfl
    have hcap : t.capture.calls = t.calls := by unfold State.capture; split <;> split <;> rfl
    have hadv : t.capture.advance.calls = t.capture.calls := by
      unfold State.advance; split
      · rw [State.jobNext_eq]; rfl
      · rfl
    rw [hadv, hcap, show t.calls = s.inject.calls by rw [exec_touches ht], hinj, h]

/-- A machine with no call pending runs for any number of steps. -/
theorem After.exists_of_no_calls (k : Nat) {s : State} (h : s.calls = []) : ∃ t, After k s t := by
  induction k generalizing s with
  | zero => exact ⟨s, After.zero s⟩
  | succ k ih =>
    obtain ⟨u, hu, hc⟩ := step_of_no_calls h
    obtain ⟨t, ht⟩ := ih hc
    exact ⟨t, After.succ_iff.2 ⟨u, hu, ht⟩⟩

end Sys2Proof.Machine
end

