-- ==== Sys2Proof/Laws/PerInstr.lean ====
section
/-!
SUPPORT. Per-instruction families: statements about the instruction as syntax, one lemma per constructor.
-/

namespace Sys2Proof.Laws

/-- The encoding keeps the raw offset in bits 15:0 and, but for a NOP, the write address in bits 26:24 (R71, R72, R75). -/
def EncodeFields.Statement (i : Instr) : Prop :=
  ∀ q : DecodeParams, Word.offset (encode q i) = (match i with
    | .nop o | .skip _ _ o | .wrt _ _ o | .rdt _ _ o => o
    | .mulM _ _ _ _ o | .mulMSentinel _ _ _ o | .mulwM _ _ _ _ o | .macM _ _ _ _ o | .macMSentinel _ _ _ o
    | .macwM _ _ _ _ o | .mulR _ _ _ _ o | .mulRSentinel _ _ _ o | .mulwR _ _ _ _ o | .macR _ _ _ _ o
    | .macRSentinel _ _ _ o | .macwR _ _ _ _ o => o) ∧
    Word.waddr (encode q i) = (match i with
    | .nop _ => 7#3
    | .skip _ w _ | .wrt _ w _ | .rdt _ w _ => w
    | .mulM _ w _ _ _ | .mulMSentinel w _ _ _ | .mulwM _ w _ _ _ | .macM _ w _ _ _ | .macMSentinel w _ _ _
    | .macwM _ w _ _ _ | .mulR _ w _ _ _ | .mulRSentinel w _ _ _ | .mulwR _ w _ _ _ | .macR _ w _ _ _
    | .macRSentinel w _ _ _ | .macwR _ w _ _ _ => w)

theorem EncodeFields.nop (off : Offset) :
    EncodeFields.Statement (.nop off) := fun _ => ⟨joinWord_offset .., joinWord_waddr ..⟩

theorem EncodeFields.skip (c : Ctrl) (w : RegIx) (off : Offset) :
    EncodeFields.Statement (.skip c w off) := fun _ => ⟨joinWord_offset .., joinWord_waddr ..⟩

theorem EncodeFields.wrt (c : Ctrl) (w : RegIx) (off : Offset) :
    EncodeFields.Statement (.wrt c w off) := fun _ => ⟨joinWord_offset .., joinWord_waddr ..⟩

theorem EncodeFields.rdt (c : Ctrl) (w : RegIx) (off : Offset) :
    EncodeFields.Statement (.rdt c w off) := fun _ => ⟨joinWord_offset .., joinWord_waddr ..⟩

theorem EncodeFields.mulM (c : Ctrl) (w : RegIx) (r : SrcIx) (k : CoefIx) (off : Offset) :
    EncodeFields.Statement (.mulM c w r k off) := fun _ => ⟨joinWord_offset .., joinWord_waddr ..⟩

theorem EncodeFields.mulMSentinel (w : RegIx) (r : SrcIx) (k : CoefIx) (off : Offset) :
    EncodeFields.Statement (.mulMSentinel w r k off) := fun _ => ⟨joinWord_offset .., joinWord_waddr ..⟩

theorem EncodeFields.mulwM (c : Ctrl) (w : RegIx) (r : SrcIx) (k : CoefIx) (off : Offset) :
    EncodeFields.Statement (.mulwM c w r k off) := fun _ => ⟨joinWord_offset .., joinWord_waddr ..⟩

theorem EncodeFields.macM (c : Ctrl) (w : RegIx) (r : SrcIx) (k : CoefIx) (off : Offset) :
    EncodeFields.Statement (.macM c w r k off) := fun _ => ⟨joinWord_offset .., joinWord_waddr ..⟩

theorem EncodeFields.macMSentinel (w : RegIx) (r : SrcIx) (k : CoefIx) (off : Offset) :
    EncodeFields.Statement (.macMSentinel w r k off) := fun _ => ⟨joinWord_offset .., joinWord_waddr ..⟩

theorem EncodeFields.macwM (c : Ctrl) (w : RegIx) (r : SrcIx) (k : CoefIx) (off : Offset) :
    EncodeFields.Statement (.macwM c w r k off) := fun _ => ⟨joinWord_offset .., joinWord_waddr ..⟩

theorem EncodeFields.mulR (c : Ctrl) (w : RegIx) (r : SrcIx) (k : CoefIx) (off : Offset) :
    EncodeFields.Statement (.mulR c w r k off) := fun _ => ⟨joinWord_offset .., joinWord_waddr ..⟩

theorem EncodeFields.mulRSentinel (w : RegIx) (r : SrcIx) (k : CoefIx) (off : Offset) :
    EncodeFields.Statement (.mulRSentinel w r k off) := fun _ => ⟨joinWord_offset .., joinWord_waddr ..⟩

theorem EncodeFields.mulwR (c : Ctrl) (w : RegIx) (r : SrcIx) (k : CoefIx) (off : Offset) :
    EncodeFields.Statement (.mulwR c w r k off) := fun _ => ⟨joinWord_offset .., joinWord_waddr ..⟩

theorem EncodeFields.macR (c : Ctrl) (w : RegIx) (r : SrcIx) (k : CoefIx) (off : Offset) :
    EncodeFields.Statement (.macR c w r k off) := fun _ => ⟨joinWord_offset .., joinWord_waddr ..⟩

theorem EncodeFields.macRSentinel (w : RegIx) (r : SrcIx) (k : CoefIx) (off : Offset) :
    EncodeFields.Statement (.macRSentinel w r k off) := fun _ => ⟨joinWord_offset .., joinWord_waddr ..⟩

theorem EncodeFields.macwR (c : Ctrl) (w : RegIx) (r : SrcIx) (k : CoefIx) (off : Offset) :
    EncodeFields.Statement (.macwR c w r k off) := fun _ => ⟨joinWord_offset .., joinWord_waddr ..⟩

end Sys2Proof.Laws
end

