-- ==== Sys2Proof/Laws/Procedures.lean ====
section
/-!
SUPPORT. What the spec's procedures do: a `Tick` neither reads nor writes the host's side of the state, each turn of a render's loop
adds one Sample to each of its results, and the configuration conditions of R233 decide what Construct's checks answer.
-/

namespace Sys2Proof.Machine

/-! ### A Tick and the host's side of the state -/

/-- `s` with the host's side of `h`: the job, the calls, the returned value and the inputs held. -/
def State.withHost (s h : State) : State :=
  { s with job := h.job, calls := h.calls, ret := h.ret, inL := h.inL, inR := h.inR }

@[simp] theorem State.withHost_self (s : State) : s.withHost s = s := rfl

@[simp] theorem State.withHost_outL (s h : State) : (s.withHost h).outL = s.outL := rfl

@[simp] theorem State.withHost_outR (s h : State) : (s.withHost h).outR = s.outR := rfl

@[simp] theorem State.withHost_withHost (s h k : State) : (s.withHost h).withHost k = s.withHost k := rfl

theorem State.execStep_withHost (d : DecodedStep) (s h : State) :
    State.execStep d (s.withHost h) = (State.execStep d s).withHost h := by
  unfold State.execStep
  cases d.isNop <;> cases d.hasCoefficient <;> cases d.acc <;> cases d.rsrc <;> cases d.memWrite <;> cases d.readTap <;> rfl

theorem State.capture_withHost (s h : State) : (s.withHost h).capture = s.capture.withHost h := by
  unfold State.capture
  change (if s.pc.val < 64 then (if s.pc = s.cfg.outSteps.left then _ else _)
    else (if s.pc = s.cfg.outSteps.right then _ else _)) = _
  split <;> split <;> rfl

theorem State.stepAt_withHost (s h : State) (i : Fin 128) : (s.withHost h).stepAt i = (s.stepAt i).withHost h := by
  unfold State.stepAt
  rw [← State.capture_withHost, ← State.execStep_withHost]
  rfl

theorem State.runSteps_withHost (i n : Nat) (s h : State) :
    State.runSteps i n (s.withHost h) = (State.runSteps i n s).withHost h := by
  induction n generalizing i s with
  | zero => rfl
  | succ n ih => unfold State.runSteps; rw [State.stepAt_withHost, ih]

/-- A Tick neither reads nor writes the host's side of the state. -/
theorem State.tick_withHost (inL inR : Sample) (s h : State) :
    State.tick inL inR (s.withHost h) = (State.tick inL inR s).withHost h := by
  have hin : ∀ (u : State) (v : Sample), (u.withHost h).injectInput v = (u.injectInput v).withHost h := fun _ _ => rfl
  simp only [State.tick, hin, State.runSteps_withHost]
  rfl

/-! ### Lengths -/

@[simp] theorem ImpulseVars.length_turn_left (dcR a g : Sample) (dpre k : Nat) (v : ImpulseVars) :
    (v.turn dcR a g dpre k).left.length = v.left.length + 1 := by simp [ImpulseVars.turn]

@[simp] theorem ImpulseVars.length_turn_right (dcR a g : Sample) (dpre k : Nat) (v : ImpulseVars) :
    (v.turn dcR a g dpre k).right.length = v.right.length + 1 := by simp [ImpulseVars.turn]

@[simp] theorem ImpulseVars.length_turn_lps (dcR a g : Sample) (dpre k : Nat) (v : ImpulseVars) :
    (v.turn dcR a g dpre k).lps.length = v.lps.length + 1 := by simp [ImpulseVars.turn]

@[simp] theorem SweepVars.length_turn_yL (b : SweepBand) (a g : Sample) (k : Nat) (v : SweepVars) :
    (v.turn b a g k).yL.length = v.yL.length + 1 := by simp [SweepVars.turn]

@[simp] theorem SweepVars.length_turn_yR (b : SweepBand) (a g : Sample) (k : Nat) (v : SweepVars) :
    (v.turn b a g k).yR.length = v.yR.length + 1 := by simp [SweepVars.turn]

@[simp] theorem SweepBand.length_channel (b : SweepBand) (nout : Nat) (g : Sample) (y : List Sample) :
    (b.channel nout g y).length = nout := by simp [SweepBand.channel]

/-! ### The configuration conditions -/

/-- A list of checks answers none exactly when no condition holds. -/
theorem firstHit_eq_none_iff {α : Type} (l : List (Bool × α)) : firstHit l = none ↔ ∀ e ∈ l, e.1 = false := by
  induction l with
  | nil => simp [firstHit]
  | cons e rest ih => obtain ⟨b, a⟩ := e; cases b <;> simp [firstHit, ih]

/-- What a list of checks answers is the answer of a condition that holds. -/
theorem mem_of_firstHit {α : Type} {l : List (Bool × α)} {a : α} (h : firstHit l = some a) : (true, a) ∈ l := by
  induction l with
  | nil => cases h
  | cons e rest ih =>
    obtain ⟨b, c⟩ := e
    cases b
    · exact List.mem_cons_of_mem _ (ih h)
    · cases h; exact List.mem_cons_self

end Sys2Proof.Machine
end

