-- ==== Sys2Proof/Tests/Slice0.lean ====
section
/-!
SUPPORT. The model's own tests: ill-formed instructions, decoding of words written out from spec/30_encoding.md, one-step results
from the tables of spec/95_test_vectors.md, and for every statement with hypotheses a state and operands that meet them.
-/

-- one theorem at a time: the kernel evaluations of all of them at once need more threads than the memory limit gives
set_option Elab.async false

namespace Sys2Proof.Tests

open Sys2Proof Sys2Proof.Machine

/-! ### WellFormed refuses -/

/-- R85: SKIP needs the control field of a routing sentinel. -/
theorem test_wf_skip_ctrl : (Instr.skip 0 3 10).wellFormed DecodeParams.default = false := by decide

/-- R78: SKIP with both bytes all ones would be a NOP. -/
theorem test_wf_skip_nop : (Instr.skip 31 7 10).wellFormed DecodeParams.default = false := by decide

/-- R76: SKIP with a control field that writes would be a WRT. -/
theorem test_wf_skip_writes :
    (Instr.skip 1 0 0).wellFormed { DecodeParams.default with routingSentinels := [1] } = false := by decide

/-- R85: WRT needs write-enable. -/
theorem test_wf_wrt_we : (Instr.wrt 2 0 0).wellFormed DecodeParams.default = false := by decide

/-- R74: WRT with the no-op sentinel writes nothing. -/
theorem test_wf_wrt_sentinel : (Instr.wrt 31 0 0).wellFormed DecodeParams.default = false := by decide

/-- R78: WRT with both bytes all ones would be a NOP, where 31 is not the no-op sentinel. -/
theorem test_wf_wrt_nop :
    (Instr.wrt 31 7 0).wellFormed { DecodeParams.default with nopSentinel := 1 } = false := by decide

/-- R85: RDT with write-enable would be a WRT. -/
theorem test_wf_rdt_writes : (Instr.rdt 1 1 10).wellFormed DecodeParams.default = false := by decide

/-- R74: RDT with a routing sentinel would be a SKIP. -/
theorem test_wf_rdt_routes : (Instr.rdt 31 1 10).wellFormed DecodeParams.default = false := by decide

/-- R78: RDT with both bytes all ones would be a NOP, where 31 is no routing sentinel. -/
theorem test_wf_rdt_nop :
    (Instr.rdt 31 7 10).wellFormed { DecodeParams.default with routingSentinels := [] } = false := by decide

/-- R85: a we0 form has write-enable clear. -/
theorem test_wf_we0 :
    (Instr.mulM 1 0 0 0 0).wellFormed DecodeParams.default = false ∧
    (Instr.macM 3 0 0 0 0).wellFormed DecodeParams.default = false ∧
    (Instr.mulR 31 0 0 0 0).wellFormed DecodeParams.default = false ∧
    (Instr.macR 1 0 0 0 0).wellFormed DecodeParams.default = false := by decide

/-- R74, R85: a sentinel form exists only where the sentinel has write-enable set. -/
theorem test_wf_sentinel :
    (Instr.mulMSentinel 0 0 0 0).wellFormed { DecodeParams.default with nopSentinel := 30 } = false ∧
    (Instr.macMSentinel 0 0 0 0).wellFormed { DecodeParams.default with nopSentinel := 30 } = false ∧
    (Instr.mulRSentinel 0 0 0 0).wellFormed { DecodeParams.default with nopSentinel := 30 } = false ∧
    (Instr.macRSentinel 0 0 0 0).wellFormed { DecodeParams.default with nopSentinel := 30 } = false := by decide

/-- R85: a write-back form has write-enable set, and is not the sentinel. -/
theorem test_wf_write_back :
    (Instr.mulwM 0 0 0 0 0).wellFormed DecodeParams.default = false ∧
    (Instr.macwM 31 0 0 0 0).wellFormed DecodeParams.default = false ∧
    (Instr.mulwR 31 0 0 0 0).wellFormed DecodeParams.default = false ∧
    (Instr.macwR 0 0 0 0 0).wellFormed DecodeParams.default = false := by decide

/-- R86: no MAC.R and no MACW.R has x3 and c15. -/
theorem test_wf_unencodable :
    (Instr.macR 0 2 3 15 0).wellFormed DecodeParams.default = false ∧
    (Instr.macRSentinel 2 3 15 0).wellFormed DecodeParams.default = false ∧
    (Instr.macwR 1 2 3 15 0).wellFormed DecodeParams.default = false := by decide

/-- R73: four fields that do not fill the coefficient byte are no layout. -/
theorem test_wf_layout : ({ coefLo := 0, accLo := 3, raddrLo := 5, rsrcLo := 7 } : Byte2Layout).valid = false := by decide

/-! ### Decoding: the words of spec/95_test_vectors.md section 2 and the worked examples -/

/-- 2.2. -/
theorem test_decode_nop : decodeTableWord 32 0xFFFF1234 = some (.nop 4660) := by decide

/-- 2.6. -/
theorem test_decode_skip : decodeTableWord 32 0xFBFF000A = some (.skip 31 3 10) := by decide

/-- 2.16. -/
theorem test_decode_wrt : decodeTableWord 32 0x09FF0001 = some (.wrt 1 1 1) := by decide

/-- 2.4, 2.18 and 2.19: a control byte of 0xF7 is not all ones, and 30 is no sentinel. -/
theorem test_decode_rdt :
    decodeTableWord 32 0x01FF000A = some (.rdt 0 1 10) ∧ decodeTableWord 32 0xF0FF0000 = some (.rdt 30 0 0) ∧
    decodeTableWord 32 0xF7FF0000 = some (.rdt 30 7 0) := by decide

/-- R120. -/
theorem test_decode_mulM : decodeTableWord 32 0x02030064 = some (.mulM 0 2 0 3 100) := by decide

/-- 2.12 and 2.7: a control byte of all ones alone makes no NOP. -/
theorem test_decode_mulMSentinel :
    decodeTableWord 32 0xF8030064 = some (.mulMSentinel 0 0 3 100) ∧
    decodeTableWord 32 0xFF000010 = some (.mulMSentinel 7 0 0 16) := by decide

/-- R121. -/
theorem test_decode_mulwM : decodeTableWord 32 0x0A030064 = some (.mulwM 1 2 0 3 100) := by decide

/-- R122. -/
theorem test_decode_macM : decodeTableWord 32 0x02130064 = some (.macM 0 2 0 3 100) := by decide

/-- R85, the sentinel row of MAC.M: 1111_1010 0001_0011, offset 100. -/
theorem test_decode_macMSentinel : decodeTableWord 32 0xFA130064 = some (.macMSentinel 2 0 3 100) := by decide

/-- 2.8. -/
theorem test_decode_macwM : decodeTableWord 32 0x0A1B0005 = some (.macwM 1 2 0 11 5) := by decide

/-- 2.9: a coefficient byte of 0xEF is not all ones. -/
theorem test_decode_mulR : decodeTableWord 32 0x02EF0000 = some (.mulR 0 2 3 15 0) := by decide

/-- R85, the sentinel row of MUL.R: 1111_1010 1010_0011, offset 0. -/
theorem test_decode_mulRSentinel : decodeTableWord 32 0xFAA30000 = some (.mulRSentinel 2 1 3 0) := by decide

/-- R125. -/
theorem test_decode_mulwR : decodeTableWord 32 0x0AA30064 = some (.mulwR 1 2 1 3 100) := by decide

/-- 2.10. -/
theorem test_decode_macR : decodeTableWord 32 0x02FE0000 = some (.macR 0 2 3 14 0) := by decide

/-- 3.10 and 2.11. -/
theorem test_decode_macRSentinel :
    decodeTableWord 32 0xFAB30064 = some (.macRSentinel 2 1 3 100) ∧
    decodeTableWord 32 0xFFFE0000 = some (.macRSentinel 7 3 14 0) := by decide

/-- 2.13. -/
theorem test_decode_macwR : decodeTableWord 32 0x0AB30064 = some (.macwR 1 2 1 3 100) := by decide

/-- R70: a number of more than 32 bits is rejected by name. -/
theorem test_decode_too_long :
    (match decodeNat DecodeParams.default (2 ^ 32) with | .error e => some e | .ok _ => none) = some .notAWord := by decide

/-- R73: under another layout (rsrc, raddr, acc, coef from the low end) the same fields stand elsewhere. -/
theorem test_decode_other_layout :
    decode { DecodeParams.default with layout := { coefLo := 4, accLo := 3, raddrLo := 1, rsrcLo := 0 } } 0x023B0000#32 =
      .macR 0 2 1 3 0 := by decide

/-- The word a line assembles to, or why it is rejected. -/
def asmWord (l : AsmLine) : Option Word × Option AsmError :=
  match l.assemble with
  | .ok v => (some v, none)
  | .error e => (none, some e)

/-- R91: a NOP has the control value 31; 5 (WE = 1) and 4 (WE = 0) are rejected. -/
theorem test_assemble_nop :
    asmWord { op := .nop none, ctrl := some 31 } = (some 0xFFFFFFFF#32, none) ∧
    asmWord { op := .nop (some 4660) } = (some 0xFFFF1234#32, none) ∧
    asmWord { op := .nop none, ctrl := some 5 } = (none, some .unencodable) ∧
    asmWord { op := .nop none, ctrl := some 4 } = (none, some .unencodable) := by decide

/-- Control values of each clause: 31 and an even one on WRT and MULW.M, an odd one on NOP, RDT and MUL.R. -/
theorem test_witness_AssemblerRejectsUnencodable :
    (AsmOp.wrt 0 0).canonicalCtrl = 1 ∧ (AsmOp.mem false true 0 0 0).canonicalCtrl = 1 ∧ 0 % 2 = 0 ∧
    (AsmOp.nop none).canonicalCtrl ≠ 1 ∧ (AsmOp.rdt 0 0).canonicalCtrl ≠ 1 ∧
    (AsmOp.reg false 0 0 0 none).canonicalCtrl ≠ 1 ∧ 29 ≠ 31 ∧ 29 % 2 = 1 := by decide

/-! ### Values and states -/

def half : Sample := 0x3FE0000000000000#64

def quarter : Sample := 0x3FD0000000000000#64

def four : Sample := 0x4010000000000000#64

/-- 10.0 -/
def ten : Sample := 0x4024000000000000#64

/-- 0.9 -/
def nineTenths : Sample := 0x3FECCCCCCCCCCCCD#64

def qnan : Sample := 0x7FF8000000000000#64

/-- S0 of spec/95_test_vectors.md section 3, with M[100], x2 and C3 given. -/
def startS0 (m x2 c3 : Sample) : State :=
  { State.reset with
    wp := 200
    mem := [(100, m)]
    x := (State.reset.x.set 1 half).set 2 x2
    coefs := State.reset.coefs.set 3 c3 }

/-- What `f` reads of the next state; `none` where there is none. -/
def ofNext {α : Type} (f : State → α) : Outcome → Option α
  | .next t => some (f t)
  | _ => none

/-- The fault, if the outcome is one. -/
def ofFault : Outcome → Option Fault
  | .fault f => some f
  | _ => none

/-- The refusal, if the outcome is one. -/
def ofRefused : Outcome → Option Refusal
  | .refused r => some r
  | _ => none

theorem exists_next {o : Outcome} (h : ofNext (fun _ => true) o = some true) : ∃ t, o = .next t := by
  cases o <;> simp_all [ofNext]

theorem exists_fault {o : Outcome} {f : Fault} (h : ofFault o = some f) : o = .fault f := by
  cases o <;> simp_all [ofFault]

theorem exists_refused {o : Outcome} {r : Refusal} (h : ofRefused o = some r) : o = .refused r := by
  cases o <;> simp_all [ofRefused]

/-! ### One instruction (spec/95_test_vectors.md sections 3 and 4) -/

/-- 3.1 and 3.11. -/
theorem test_mulM :
    ofNext (fun t => (t.reg 2, t.mem)) (exec (.mulM 0 2 0 3 100) (startS0 half quarter half)) =
      some (quarter, [(100, half)]) ∧
    ofNext (fun t => t.reg 2) (exec (.mulM 0 2 0 3 100) (startS0 nineTenths quarter ten)) = some four := by decide +kernel

/-- 3.9. -/
theorem test_mulMSentinel :
    ofNext (fun t => (t.reg 0, t.mem)) (exec (.mulMSentinel 0 0 3 100) (startS0 half quarter half)) =
      some (quarter, [(100, half)]) := by decide +kernel

/-- 3.2. -/
theorem test_mulwM :
    ofNext (fun t => (t.reg 2, t.mem)) (exec (.mulwM 1 2 0 3 100) (startS0 half quarter half)) =
      some (quarter, [(100, quarter)]) := by decide +kernel

/-- 3.3, and 3.13: -3.5 + ClampP(9.0) is 0.5. -/
theorem test_macM :
    ofNext (fun t => (t.reg 2, t.mem)) (exec (.macM 0 2 0 3 100) (startS0 half quarter half)) = some (half, [(100, half)]) ∧
    ofNext (fun t => t.reg 2) (exec (.macM 0 2 0 3 100) (startS0 nineTenths 0xC00C000000000000#64 ten)) =
      some half := by decide +kernel

/-- 3.12 in the sentinel form: 3.5 + ClampP(9.0) is clamped to 4.0. -/
theorem test_macMSentinel :
    ofNext (fun t => t.reg 2) (exec (.macMSentinel 2 0 3 100) (startS0 nineTenths 0x400C000000000000#64 ten)) =
      some four := by decide +kernel

/-- 3.4. -/
theorem test_macwM :
    ofNext (fun t => (t.reg 2, t.mem)) (exec (.macwM 1 2 0 3 100) (startS0 half quarter half)) =
      some (half, [(100, half)]) := by decide +kernel

/-- 3.5. -/
theorem test_mulR :
    ofNext (fun t => (t.reg 2, t.mem)) (exec (.mulR 0 2 1 3 0) (startS0 half quarter half)) =
      some (quarter, [(100, half)]) := by decide +kernel

/-- R124 in the sentinel form, into x1 itself. -/
theorem test_mulRSentinel :
    ofNext (fun t => (t.reg 1, t.mem)) (exec (.mulRSentinel 1 1 3 100) (startS0 half quarter half)) =
      some (quarter, [(100, half)]) := by decide +kernel

/-- 3.6. -/
theorem test_mulwR :
    ofNext (fun t => (t.reg 2, t.mem)) (exec (.mulwR 1 2 1 3 100) (startS0 half quarter half)) =
      some (quarter, [(100, quarter)]) := by decide +kernel

/-- 3.7, and 3.17: the source is read before the write. -/
theorem test_macR :
    ofNext (fun t => t.reg 2) (exec (.macR 0 2 1 3 0) (startS0 half quarter half)) = some half ∧
    ofNext (fun t => t.reg 1) (exec (.macR 0 1 1 3 0) (startS0 half quarter half)) =
      some 0x3FE8000000000000#64 := by decide +kernel

/-- 3.10. -/
theorem test_macRSentinel :
    ofNext (fun t => (t.reg 2, t.mem)) (exec (.macRSentinel 2 1 3 100) (startS0 half quarter half)) =
      some (half, [(100, half)]) := by decide +kernel

/-- 3.8. -/
theorem test_macwR :
    ofNext (fun t => (t.reg 2, t.mem)) (exec (.macwR 1 2 1 3 100) (startS0 half quarter half)) =
      some (half, [(100, half)]) := by decide +kernel

/-- 4.2 and 4.3. -/
theorem test_nop_skip :
    ofNext id (exec (.nop 100) (startS0 half quarter half)) = some (startS0 half quarter half) ∧
    ofNext id (exec (.skip 31 3 10) (startS0 half quarter half)) = some (startS0 half quarter half) := by decide +kernel

/-- 4.5. -/
theorem test_rdt : ofNext (fun t => t.reg 1) (exec (.rdt 0 1 100) (startS0 half quarter half)) = some half := by
  decide +kernel

/-- 4.9: from wp = 5 an offset of 10 reads index 65595. -/
theorem test_rdt_wraps :
    ofNext (fun t => t.reg 1) (exec (.rdt 0 1 10) { State.reset with wp := 5, mem := [(65595, half)] }) = some half := by
  decide +kernel

/-- 4.6: storing 0.0 leaves nothing listed at 200; and 4.7. -/
theorem test_wrt :
    ofNext State.mem (exec (.wrt 1 0 0) (startS0 half quarter half)) = some [(100, half)] ∧
    ofNext State.mem (exec (.wrt 1 2 100) (startS0 half quarter half)) = some [(100, quarter)] := by decide +kernel

/-! ### Operations (spec/95_test_vectors.md sections 1, 5 and 6) -/

/-- 5.2. -/
theorem test_clamp :
    clamp 0x4012000000000000#64 four = four ∧ clamp 0xC012000000000000#64 four = fneg four ∧ clamp four four = four ∧
    clamp 0xC022000000000000#64 four = fneg four := by decide +kernel

/-- 1.5. -/
theorem test_delay_sizes :
    (engineConfig defaultParams 0 (ofNat 20480)).n = 65600 ∧ (engineConfig defaultParams 0 (ofNat 44100)).n = 141184 ∧
    (engineConfig defaultParams 0 (ofNat 48000)).n = 153664 := by decide +kernel

/-- 5.3: at SCALE = 1.5 the offsets 1, 3 and 5 round to 2, 4 and 8. -/
theorem test_offset_ties :
    let s : State := { State.reset with cfg := engineConfig defaultParams 0 (ofNat 30720) }
    s.effOffset 1 = 2 ∧ s.effOffset 3 = 4 ∧ s.effOffset 5 = 8 := by decide +kernel

/-- 5.4: offset 8192 is no long tap; 8193 is, and its ties go to the even neighbour. -/
theorem test_long_tap :
    let s : State := { State.reset with lfoValue := half }
    s.effOffset 8192 = 8192 ∧ s.effOffset 8193 = 8194 ∧
    State.effOffset { State.reset with lfoValue := fneg half } 8193 = 8192 := by decide +kernel

/-- 5.1: the identity up to and including the threshold. -/
theorem test_soft_limit : softLimit defaultParams.softT defaultParams.softC defaultParams.softT = ofRatio 8 10 := by
  decide +kernel

/-- 6.1: the phase after the first sample is 2.44140625e-05. -/
theorem test_lfo_phase : nextPhase fzero half (ofNat 20480) = 0x3EF999999999999A#64 := by decide +kernel

/-! ### Host calls (spec/95_test_vectors.md section 7.6) -/

/-- An idle engine as reset leaves it, with one call pending. -/
def calling (c : HostCall) : State := { State.reset with calls := [c] }

/-- RenderImpulse(d, 16 zeros, 1000.0, 0.0, g). -/
def impulseArgs (d g : Sample) : ImpulseArgs :=
  { durationSeconds := d
    coefficients := List.replicate 16 fzero
    rolloffHz := ofNat 1000
    preDelayMs := fzero
    inputGain := g
    damping := none }

/-- RenderSweepDeconvolved(1.0, 16 zeros, 1000.0, d, g, 1.0). -/
def sweepArgs (d g : Sample) : SweepArgs :=
  { durationSeconds := fone
    coefficients := List.replicate 16 fzero
    rolloffHz := ofNat 1000
    sweepDurationSeconds := d
    sweepLevel := g
    damping := fone }

/-- 7.6.1 to 7.6.4. -/
theorem test_construct_faults :
    ofFault (step (calling (.construct (.int 6) (ofNat 44100)))) = some (.programIndex (.int 6)) ∧
    ofFault (step (calling (.construct (.int (-1)) (ofNat 44100)))) = some (.programIndex (.int (-1))) ∧
    ofFault (step (calling (.construct (.int 0) fzero))) = some (.sampleRate fzero) ∧
    ofFault (step (calling (.construct (.int 9) qnan))) = some (.programIndex (.int 9)) := by decide +kernel

/-- R180, R210: 2.5 and a NaN are no integers and are recorded; 2.0 is the integer 2, and 6.0 is above 5. -/
theorem test_construct_not_an_integer :
    ofFault (step (calling (.construct (.float (ofRatio 5 2)) (ofNat 44100)))) =
      some (.programIndex (.float (ofRatio 5 2))) ∧
    ofFault (step (calling (.construct (.float qnan) (ofNat 44100)))) = some (.programIndex (.float qnan)) ∧
    ofFault (step (calling (.construct (.float (ofNat 6)) (ofNat 44100)))) = some (.programIndex (.float (ofNat 6))) ∧
    ofNext (fun t => t.cfg.programIndex) (step (calling (.construct (.float (ofNat 2)) (ofNat 44100)))) = some 2 := by
  decide +kernel

/-- 7.6.5 and 7.6.11: the coefficients are checked before the gain. -/
theorem test_coef_length :
    ofFault (step (calling (.renderImpulse { impulseArgs fone fzero with coefficients := List.replicate 15 fzero }))) =
      some (.coefLength 15) := by decide +kernel

/-- 7.6.6. -/
theorem test_coef_value :
    ofFault (step (calling (.renderImpulse
      { impulseArgs fone quarter with coefficients := (List.replicate 16 fzero).set 4 qnan }))) =
      some (.coefValue 4) := by decide +kernel

/-- 7.6.7 and 7.6.10. -/
theorem test_impulse_faults :
    ofFault (step (calling (.renderImpulse (impulseArgs (fneg fone) quarter)))) = some (.duration (fneg fone)) ∧
    ofFault (step (calling (.renderImpulse (impulseArgs fone fzero)))) = some (.gain fzero) := by decide +kernel

/-- 7.6.13 and 7.6.14: a sweep of one sample, and a level of 0.0. -/
theorem test_sweep_faults :
    ofFault (step (calling (.renderSweep (sweepArgs (ofRatio 1 20480) quarter)))) = some (.sweep 1) ∧
    ofFault (step (calling (.renderSweep (sweepArgs fone fzero)))) = some (.sweepLevel fzero) := by decide +kernel

/-- 7.6.15: a render of no samples returns two empty channels. -/
theorem test_empty_render :
    ofNext State.ret (step (calling (.renderImpulse (impulseArgs fzero quarter)))) = some (some (.buffers [] [])) := by
  decide +kernel

/-! ### The step -/

/-- The host's way to run one word: `RDT x1, m[0]` runs as the first instruction after reset, and pc moves on. -/
theorem test_fetch_word :
    (State.reset.withFetchWord 32 0x01FF0000).fetch = .rdt 0 1 0 ∧
    ofNext State.pc (step (State.reset.withFetchWord 32 0x01FF0000)) = some 1 := by decide +kernel

/-- 6.4, one half: the left input 5.0 is injected as 4.0. -/
theorem test_injection :
    ofNext (fun t => t.reg 0) (step { State.reset with job := .tick, inL := 0x4014000000000000#64 }) = some four := by
  decide +kernel

/-! ### The hypotheses of the statements can be met -/

/-- An engine in a Tick, at the step `i`. -/
def running (i : Fin 128) : State := { State.reset with job := .tick, pc := i, wp := 5 }

theorem running_steps (i : Fin 128) : (running i).job ≠ .idle := by simp [running]

theorem test_witness_DecodeOfEncodeIsIdentity :
    DecodeParams.default.layout.valid = true ∧ (Instr.macwR 1 2 1 3 100).wellFormed DecodeParams.default = true := by decide

theorem test_witness_EncodeOfDecodeIsIdentity :
    ({ coefLo := 4, accLo := 3, raddrLo := 1, rsrcLo := 0 } : Byte2Layout).valid = true := by decide

theorem test_witness_AllOnesConventions :
    (decodeStep DecodeParams.default 0xFFFF1234#32).isNop = true ∧
    (decodeStep DecodeParams.default 0xFFFE0000#32).isNop = false ∧
    (decodeStep DecodeParams.default 0xF7FF0000#32).isNop = false := by decide

theorem test_witness_DisassemblyIsLossless :
    (Instr.macRSentinel 7 3 14 65535).wellFormed DecodeParams.default = true := by decide

/-- The canonical memory that MULW.M, MACW.M, MULW.R, MACW.R, WRT and the statements on stores ask for. -/
theorem test_witness_stores : (startS0 half quarter half).mem.wf = true := by decide +kernel

/-- An engine that has moved its write pointer and its LFO and stored nothing. -/
theorem test_witness_ColdMemoryReadsZero :
    positive State.reset.params.regClamp = true ∧
    ∀ a, State.memRead { State.reset with wp := 7, lfoValue := half } a = fzero :=
  ⟨by decide +kernel, fun _ => rfl⟩

theorem test_witness_StoresAreLimitedAndDamped :
    (startS0 half quarter half).mem.wf = true ∧
    ∃ t, exec (decode (startS0 half quarter half).params.decode 0x0AFF0064#32) (startS0 half quarter half) = .next t :=
  ⟨by decide +kernel, exists_next (by decide +kernel)⟩

theorem test_witness_RegisterWritesClamp :
    ∃ t, exec (decode (startS0 half quarter half).params.decode 0x02030064#32) (startS0 half quarter half) = .next t :=
  exists_next (by decide +kernel)

theorem test_witness_ReadPositionIsEuclidean : 0 < State.reset.cfg.n := by decide +kernel

/-- Both clauses at the threshold. -/
theorem test_witness_LfoMovesOnlyLongTaps :
    State.reset.params.longThreshold.toNat < (8193#16 : Offset).toNat ∧
    (8192#16 : Offset).toNat ≤ State.reset.params.longThreshold.toNat := by decide +kernel

theorem test_witness_HardwareRateOffsetsAreExact :
    State.reset.cfg.scale = fone ∧ (8192#16 : Offset).toNat ≤ State.reset.params.longThreshold.toNat := by decide +kernel

theorem test_witness_RoundHalfEvenIsNearest : isFinite (ofRatio 5 2) = true := by decide +kernel

/-- A tie at half a unit: 3/2 units round to 2, as near as 1. -/
theorem test_witness_RoundingIsToNearestEven :
    0 < 2 ∧ roundMag 3 2 < infMag ∧ 1 < infMag ∧ 1 ≠ roundMag 3 2 ∧
    ((3 : Int) - magUnits (roundMag 3 2) * 2).natAbs = ((3 : Int) - magUnits 1 * 2).natAbs := by decide +kernel

theorem test_witness_ArithmeticIsNearest :
    isFinite half = true ∧ isFinite ten = true ∧ isFinite nineTenths = true ∧ isFinite (fadd half ten) = true ∧
    isFinite (fmul half ten) = true ∧ isZero ten = false ∧ isFinite (fdiv half ten) = true := by decide +kernel

/-- The threshold itself, and a value above it. -/
theorem test_witness_SoftLimitIsOddAndIdentityBelowThreshold :
    isFinite defaultParams.softT = true ∧ isFinite defaultParams.softC = true ∧ fle fzero defaultParams.softT = true ∧
    flt defaultParams.softT defaultParams.softC = true ∧ isNaN defaultParams.softT = false ∧
    fle (fabs defaultParams.softT) defaultParams.softT = true ∧ isNaN ten = false := by decide +kernel

theorem test_witness_SoftLimitIsAtMostCeiling : isNaN (ofMag true infMag) = false := by decide +kernel

theorem test_witness_StepRunsDecodedInstruction :
    (running 0).job ≠ .idle ∧ decode (running 0).params.decode (running 0).cfg.program[(running 0).pc] = .nop 65535 ∧
    exec (.nop 65535) (running 0).inject = .next (running 0).inject :=
  ⟨running_steps 0, by decide +kernel, rfl⟩

/-- The steps at the ends of both halves answer a next state; so do NoStepOfAProgramStops, StepIndexAdvancesByOne,
WritePointerAdvancesOncePerSample and LfoAdvancesOncePerSample have their cases. -/
theorem test_witness_running_steps :
    (∃ t, step (running 0) = .next t) ∧ (∃ t, step (running 63) = .next t) ∧ ∃ t, step (running 127) = .next t :=
  ⟨exists_next (by decide +kernel), exists_next (by decide +kernel), exists_next (by decide +kernel)⟩

theorem test_witness_StepIndexAdvancesByOne : ∃ t, exec (.nop 0) (running 127) = .next t := ⟨_, rfl⟩

/-- The phase just below 1.0, and a rate just below fs. -/
theorem test_witness_LfoStaysInRange :
    inUnitInterval 0x3FEFFFFFFFFFFFFF#64 = true ∧ isFinite (ofNat 20480) = true ∧ fle fzero half = true ∧
    flt half (ofNat 20480) = true := by decide +kernel

/-- A state for each clause. -/
theorem test_witness_InputInjection :
    (running 0).pc = 0 ∧ (running 64).pc = 64 ∧ (3#3 : RegIx) ≠ (running 0).params.inputReg ∧ (running 63).pc ≠ 0 ∧
    (running 63).pc ≠ 64 := by decide +kernel

/-- The output steps of both halves, and the first step, which is none. -/
theorem test_witness_OutputCapture :
    (∃ t u, exec (running 63).fetch (running 63).inject = .next t ∧ step (running 63) = .next u) ∧
    (∃ t u, exec (running 127).fetch (running 127).inject = .next t ∧ step (running 127) = .next u) ∧
    ((running 63).pc = (running 63).cfg.outSteps.left ∧ (running 127).pc = (running 127).cfg.outSteps.right) ∧
    (running 0).pc ≠ (running 0).cfg.outSteps.left :=
  ⟨(exists_next (by decide +kernel)).elim fun t ht => (exists_next (by decide +kernel)).elim fun u hu => ⟨t, u, ht, hu⟩,
    (exists_next (by decide +kernel)).elim fun t ht => (exists_next (by decide +kernel)).elim fun u hu => ⟨t, u, ht, hu⟩,
    by decide +kernel, by decide +kernel⟩

/-- A NOP as output step, and the other capture mode. -/
theorem test_witness_CaptureRegisterOfOutputStep :
    State.reset.params.captureMode = .stepWaddr ∧ (State.reset.decoded 63).isNop = true ∧
    ({ defaultParams with captureMode := .fixed 2 } : Params).captureMode = .fixed 2 := by decide +kernel

/-- A Tick in progress, and a Tick call pending. -/
theorem test_witness_TickIsOneHundredTwentyEightSteps :
    ((running 0).job ≠ .idle ∧ (running 0).pc = 0 ∧ (running 0).job = .tick) ∧
    (calling (.tick half ten)).job = .idle ∧ (calling (.tick half ten)).calls = [.tick half ten] :=
  ⟨⟨running_steps 0, rfl, rfl⟩, rfl, rfl⟩

/-- At the last step of a sample, with the write pointer at N - 1. -/
theorem test_witness_StepKeepsMemoryAndPointerSound :
    State.Sound { running 127 with wp := 65599, mem := [(100, half)] } ∧
    ∃ t, step { running 127 with wp := 65599, mem := [(100, half)] } = .next t :=
  ⟨⟨by decide +kernel, by intro e he; simp at he; subst he; decide +kernel, by decide +kernel⟩,
    exists_next (by decide +kernel)⟩

theorem test_witness_StepKeepsValuesBounded :
    (running 0).job ≠ .idle ∧ (running 0).Bounded ∧ isFinite (running 0).inL = true ∧ isFinite (running 0).inR = true ∧
    ∃ t, step (running 0) = .next t :=
  ⟨running_steps 0,
    ⟨⟨by decide +kernel, by decide +kernel, by decide +kernel, by decide +kernel, by decide +kernel, by decide +kernel⟩,
      by decide +kernel, by decide +kernel, by decide +kernel, by decide +kernel,
      by unfold State.RegsBounded; decide +kernel,
      fun a => (by decide +kernel : isFinite (Memory.read [] 0) = true)⟩,
    by decide +kernel, by decide +kernel, exists_next (by decide +kernel)⟩

/-- A running step, and a Construct call accepted. -/
theorem test_witness_ConfigurationAndRenderInputsAreHeld :
    (∃ t, step (running 0) = .next t) ∧ ∃ t, step (calling (.construct (.int 5) (ofNat 44100))) = .next t :=
  ⟨exists_next (by decide +kernel), exists_next (by decide +kernel)⟩

theorem test_witness_IdleEngineDoesNothing : State.reset.job = .idle ∧ State.reset.calls = [] := ⟨rfl, rfl⟩

theorem test_witness_ResetClearsEngine :
    State.job { startS0 half quarter half with calls := [.reset] } = .idle ∧
    State.calls { startS0 half quarter half with calls := [.reset] } = [.reset] := ⟨rfl, rfl⟩

/-- The default parameters at 44100 Hz meet every condition of R233, and those of logs 13 and 16. -/
theorem default_not_violates (r : Refusal) : ¬Violates defaultParams (ofNat 44100) r := by
  cases r
  case outSteps =>
    intro h
    apply h
    intro i o ho
    have : defaultParams.outSteps[i] = none := by simp [defaultParams]
    rw [this] at ho
    cases ho
  all_goals first | exact id | (unfold Violates; decide +kernel)

/-- Indices outside (6, -1, 2.5) and inside (5, 5.0) the integers of [0, 5], a rate of 0.0 and a good one, under parameters that
meet every condition. -/
theorem test_witness_ConstructPreconditions :
    (∀ r, ¬Violates State.reset.params (ofNat 44100) r) ∧
    (ProgramIndex.int 6).program = none ∧ (ProgramIndex.int (-1)).program = none ∧
    (ProgramIndex.float (ofRatio 5 2)).program = none ∧ exactInt (ofRatio 5 2) = none ∧
    (0 ≤ (5 : Int) ∧ (5 : Int) ≤ 5 ∧ isFinite (ofNat 5) = true ∧ units (ofNat 5) = 5 * oneUnits) ∧
    ¬(isFinite fzero = true ∧ flt fzero fzero = true) ∧
    (isFinite (ofNat 44100) = true ∧ flt fzero (ofNat 44100) = true) ∧
    (calling (.construct (.int 5) (ofNat 44100))).job = .idle ∧
    (calling (.construct (.int 5) (ofNat 44100))).calls = [.construct (.int 5) (ofNat 44100)] :=
  ⟨default_not_violates, by decide +kernel⟩

/-- A Construct call of program 0 at `fs` under the parameters `p`. -/
def constructUnder (p : Params) (fs : Sample) : State := { calling (.construct (.int 0) fs) with params := p }

/-- Each condition fails at a boundary value, and its refusal is answered: a clamp of 0.0, SOFT_T = SOFT_C, a negative depth, a pole
of 1.0, a left output step of 64, a layout that overlaps; and an index of 6 beside one of them is not looked at. -/
theorem test_construct_refuses_parameters :
    ofRefused (step (constructUnder { defaultParams with regClamp := fzero } (ofNat 44100))) = some .regClamp ∧
    ofRefused (step (constructUnder { defaultParams with prodClamp := fzero } (ofNat 44100))) = some .prodClamp ∧
    ofRefused (step (constructUnder { defaultParams with softT := fone } (ofNat 44100))) = some .softLimiter ∧
    ofRefused (step (constructUnder { defaultParams with lfoDepth := fneg half } (ofNat 44100))) = some .lfoDepth ∧
    ofRefused (step (constructUnder { defaultParams with dcR := fone } (ofNat 44100))) = some .dcPole ∧
    ofRefused (step (constructUnder
      { defaultParams with outSteps := defaultParams.outSteps.set 3 (some ⟨64, 127⟩) } (ofNat 44100))) = some .outSteps ∧
    ofRefused (step (constructUnder
      { defaultParams with decode := { DecodeParams.default with layout := ⟨0, 3, 5, 7⟩ } } (ofNat 44100))) =
        some .byte2Layout ∧
    ofRefused (step { calling (.construct (.int 6) fzero) with params := { defaultParams with regClamp := fzero } }) =
      some .regClamp := by decide +kernel

/-- The conditions that depend on fs: LFO_RATE_HZ = fs, a SWEEP_F1 of 20 above 0.45 × fs, and an N of 0. -/
theorem test_construct_refuses_rate :
    ofRefused (step (constructUnder defaultParams half)) = some .lfoRate ∧
    ofRefused (step (constructUnder defaultParams (ofNat 44))) = some .sweepBand ∧
    ofRefused (step (constructUnder
      { defaultParams with margin := 0, lfoRateHz := fzero, sweepF1 := ofRatio 1 100 } (ofRatio 1 10))) =
        some .emptyDelayMemory := by decide +kernel

/-- A parameter that violates a condition of each of the two lists. -/
theorem test_witness_refusals :
    (∃ r ∈ parameterRefusals, Violates { defaultParams with regClamp := fzero } (ofNat 44100) r) ∧
    ∃ r ∈ rateRefusals, Violates defaultParams half r :=
  ⟨⟨.regClamp, by decide, by unfold Violates; decide +kernel⟩, .lfoRate, by decide, by unfold Violates; decide +kernel⟩

theorem test_witness_ConstructMakesResetEngine :
    (calling (.construct (.int (5 : Fin 6).val) (ofNat 44100))).job = .idle ∧
    (isFinite (ofNat 5) = true ∧ units (ofNat 5) = ((5 : Fin 6).val : Int) * oneUnits) ∧
    isFinite (ofNat 44100) = true ∧ flt fzero (ofNat 44100) = true ∧
    ∀ r, ¬Violates State.reset.params (ofNat 44100) r :=
  ⟨rfl, by decide +kernel, by decide +kernel, by decide +kernel, default_not_violates⟩

/-- Calls for the clauses: 15 coefficients; the fourth coefficient the first that is not finite; 16 finite ones. -/
theorem test_witness_ImpulsePreconditionsInOrder :
    (calling (.renderImpulse (impulseArgs fone quarter))).job = .idle ∧
    (List.replicate 15 fzero : List Sample).length ≠ 16 ∧
    (((List.replicate 16 fzero).set 15 qnan).length = 16 ∧
      isFinite (sampleAt ((List.replicate 16 fzero).set 15 qnan) 15) = false ∧
      ∀ j, j < 15 → isFinite (sampleAt ((List.replicate 16 fzero).set 15 qnan) j) = true) ∧
    ((impulseArgs fone quarter).coefficients.length = 16 ∧
      ∀ k, k < 16 → isFinite (sampleAt (impulseArgs fone quarter).coefficients k) = true) := by decide +kernel

/-- The sweep call meets the same hypotheses; what it then answers is shown for each fault that needs no free function. -/
theorem test_witness_SweepPreconditionsInOrder :
    (calling (.renderSweep (sweepArgs fone quarter))).job = .idle ∧
    ((sweepArgs fone quarter).coefficients.length = 16 ∧
      ∀ k, k < 16 → isFinite (sampleAt (sweepArgs fone quarter).coefficients k) = true) ∧
    ofFault (step (calling (.renderSweep { sweepArgs fone fzero with rolloffHz := fzero, damping := qnan }))) =
      some (.rolloff fzero) ∧
    ofFault (step (calling (.renderSweep { sweepArgs fone fzero with damping := qnan }))) = some (.sweepLevel fzero) ∧
    ofFault (step (calling (.renderSweep { sweepArgs fone quarter with damping := qnan }))) = some (.damping qnan) := by
  decide +kernel

/-- A fault of each host operation that has one, and a refused configuration. -/
theorem test_witness_OnlyHostCallsStop :
    step (calling (.construct (.int 6) (ofNat 44100))) = .fault (.programIndex (.int 6)) ∧
    step (calling (.renderImpulse (impulseArgs fone fzero))) = .fault (.gain fzero) ∧
    step (calling (.renderSweep (sweepArgs fone fzero))) = .fault (.sweepLevel fzero) ∧
    step { calling (.construct (.int 0) (ofNat 44100)) with params := { defaultParams with regClamp := fzero } } =
      .refused .regClamp :=
  ⟨exists_fault (by decide +kernel), exists_fault (by decide +kernel), exists_fault (by decide +kernel),
    exists_refused (by decide +kernel)⟩

/-- An impulse render accepted. Whether a sweep render is depends on the free functions of log 6, so none is shown. -/
theorem test_witness_RenderBeginsWithReset :
    (calling (.renderImpulse (impulseArgs fzero quarter))).job = .idle ∧
    ∃ t, step (calling (.renderImpulse (impulseArgs fzero quarter))) = .next t :=
  ⟨rfl, exists_next (by decide +kernel)⟩

/-- Renders of no sample and of 16 samples. -/
theorem test_witness_ImpulseRenderReturnsTwoChannels :
    (calling (.renderImpulse (impulseArgs (ofRatio 16 20480) quarter))).job = .idle ∧
    (impulseArgs (ofRatio 16 20480) quarter).fault = none ∧ (impulseArgs fzero quarter).fault = none ∧
    roundHalfEven (fmul (ofRatio 16 20480) State.reset.cfg.fs) = 16 := by decide +kernel

theorem test_witness_SweepRenderReturnsTwoChannels :
    (calling (.renderSweep (sweepArgs fone quarter))).job = .idle ∧
    (calling (.renderSweep (sweepArgs fone quarter))).calls = [.renderSweep (sweepArgs fone quarter)] := ⟨rfl, rfl⟩

/-- An engine as reset leaves it, and one that has run and holds other inputs, registers and memory: a render of 16 samples, for
every number of steps, and a render of no sample, which is done with its first step. -/
theorem test_witness_RendersAreRepeatable :
    SameEngine (calling (.renderImpulse (impulseArgs (ofRatio 16 20480) quarter)))
      { startS0 half quarter half with calls := [.renderImpulse (impulseArgs (ofRatio 16 20480) quarter)], inL := ten } ∧
    (∀ k, ∃ s', After (k + 1) (calling (.renderImpulse (impulseArgs (ofRatio 16 20480) quarter))) s') ∧
    ofNext (fun t => decide (t.job = .idle)) (step (calling (.renderImpulse (impulseArgs (ofRatio 16 20480) quarter)))) =
      some false ∧
    ofNext (fun t => decide (t.job = .idle)) (step (calling (.renderImpulse (impulseArgs fzero quarter)))) = some true := by
  refine ⟨⟨rfl, rfl⟩, fun k => ?_, by decide +kernel, by decide +kernel⟩
  have hn : ofNext (fun t => decide (t.calls = [])) (step (calling (.renderImpulse (impulseArgs (ofRatio 16 20480) quarter)))) =
      some true := by decide +kernel
  cases hs : step (calling (.renderImpulse (impulseArgs (ofRatio 16 20480) quarter))) with
  | next u =>
    rw [hs] at hn
    obtain ⟨t, ht⟩ := After.exists_of_no_calls k (s := u) (by simpa [ofNext] using hn)
    exact ⟨t, After.succ_iff.2 ⟨u, hs, ht⟩⟩
  | fault f => rw [hs] at hn; cases hn
  | refused r => rw [hs] at hn; cases hn

/-- Two signals that agree on the one sample read and differ after it. -/
theorem test_witness_DeconvolveSumsCapturedSamples :
    0 < 1 ∧ ∀ i, i < 1 + 1 - 1 → sampleAt [half] i = sampleAt [half, ten] i := by decide +kernel

end Sys2Proof.Tests
end

