-- ==== Sys2Proof/Proofs/Scope.lean ====
section
/-!
PROOFS. The statements about numbers (spec/00_scope.md R9). First the rounding to an integer, then the rounding to a binary64
magnitude as the rounding to a multiple of `2 ^ k`, then the operations, which give that magnitude the sign of the exact result.
-/

namespace Sys2Proof.Proofs

open Sys2Proof Sys2Proof.Machine

/-! ### Rounding to an integer -/

/-- `roundDiv_near` as a distance. -/
theorem two_mul_dist_roundDiv_le (a : Nat) {d : Nat} (hd : 0 < d) :
    2 * ((a : Int) - roundDiv a d * d).natAbs ≤ d := by
  obtain ⟨hle, hge⟩ := roundDiv_near a d hd
  rw [← Nat.cast_mul]
  omega

/-- Half a divisor away means a tie, and of a tie the even quotient is taken. -/
theorem roundDiv_even_of_tie {a d : Nat} (hd : 0 < d) (h : 2 * ((a : Int) - roundDiv a d * d).natAbs = d) :
    roundDiv a d % 2 = 0 := by
  have hdm := Nat.div_add_mod' a d
  have hr := Nat.mod_lt a hd
  rw [← Nat.cast_mul] at h
  unfold roundDiv at h ⊢
  by_cases hlow : 2 * (a % d) < d
  · rw [if_pos hlow] at h
    omega
  by_cases hhigh : d < 2 * (a % d)
  · rw [if_neg hlow, if_pos hhigh, Nat.succ_mul (a / d)] at h
    omega
  · rw [if_neg hlow, if_neg hhigh]
    omega

/-- Two different multiples of `d` lie at least `d` apart. -/
theorem le_dist_mul {p q : Nat} (h : p ≠ q) (d : Nat) : d ≤ ((q : Int) * d - p * d).natAbs := by
  rw [← Int.sub_mul, Int.natAbs_mul, Int.natAbs_natCast]
  exact Nat.le_mul_of_pos_left d (by omega)

/-- No other multiple of the divisor is nearer than the rounded one, and only an even quotient has an equally near rival. -/
theorem roundDiv_nearest {a d p : Nat} (hd : 0 < d) (hp : p ≠ roundDiv a d) :
    ((a : Int) - roundDiv a d * d).natAbs ≤ ((a : Int) - p * d).natAbs ∧
    (((a : Int) - roundDiv a d * d).natAbs = ((a : Int) - p * d).natAbs → roundDiv a d % 2 = 0) := by
  have hnear := two_mul_dist_roundDiv_le a hd
  have hfar := le_dist_mul hp d
  have heven := roundDiv_even_of_tie (a := a) hd
  generalize (roundDiv a d : Int) * d = x at *
  generalize (p : Int) * d = y at *
  exact ⟨by omega, fun heq => heven (by omega)⟩

theorem dist_roundDiv_le (a : Nat) {d : Nat} (hd : 0 < d) (p : Nat) :
    ((a : Int) - roundDiv a d * d).natAbs ≤ ((a : Int) - p * d).natAbs := by
  by_cases hp : p = roundDiv a d
  · rw [hp]
  · exact (roundDiv_nearest hd hp).1

/-! ### Rounding to a binary64 magnitude -/

/-- `q` units of `2 ^ k`, `q` of 53 bits or just beyond, are encoded by `k * 2 ^ 52 + q`: the implicit bit of `q` is the one that
`k` leaves out of the exponent field. -/
theorem magUnits_of_scaled {k q : Nat} (hq : q ≤ 2 ^ 53) (hk : 0 < k → 2 ^ 52 ≤ q) :
    magUnits (k * 2 ^ 52 + q) = q * 2 ^ k := by
  unfold magUnits
  rcases Nat.lt_or_ge q (2 ^ 52) with hlow | hlow
  · obtain rfl : k = 0 := by omega
    rw [if_pos (by omega)]
    omega
  rcases Nat.lt_or_eq_of_le hq with hlt | rfl
  · have hdiv : (k * 2 ^ 52 + q) / 2 ^ 52 = k + 1 := by omega
    have hmod : 2 ^ 52 + (k * 2 ^ 52 + q) % 2 ^ 52 = q := by omega
    rw [hdiv, hmod, if_neg (Nat.succ_ne_zero k), Nat.add_sub_cancel]
  · have hdiv : (k * 2 ^ 52 + 2 ^ 53) / 2 ^ 52 = k + 2 := by omega
    have hmod : (k * 2 ^ 52 + 2 ^ 53) % 2 ^ 52 = 0 := by omega
    rw [hdiv, hmod, if_neg (Nat.succ_ne_zero _), Nat.add_zero, Nat.succ_sub_one]
    ring

/-- A magnitude is a whole number of units of `2 ^ k`, or lies below the `2 ^ 52` units that 53 significant bits start from. -/
theorem magUnits_multiple_or_lt (m k : Nat) :
    (∃ p, magUnits m = p * 2 ^ k) ∨ 0 < k ∧ magUnits m < 2 ^ 52 * 2 ^ k := by
  have hf : m % 2 ^ 52 < 2 ^ 52 := Nat.mod_lt _ (by norm_num)
  unfold magUnits
  rcases Nat.eq_zero_or_pos k with rfl | hk
  · exact .inl ⟨_, (Nat.mul_one _).symm⟩
  split
  · exact .inr ⟨hk, hf.trans_le (Nat.le_mul_of_pos_right _ (Nat.two_pow_pos k))⟩
  · generalize m / 2 ^ 52 - 1 = e
    rcases Nat.lt_or_ge e k with he | he
    · refine .inr ⟨hk, ?_⟩
      calc (2 ^ 52 + m % 2 ^ 52) * 2 ^ e < 2 ^ 53 * 2 ^ e := Nat.mul_lt_mul_of_pos_right (by omega) (Nat.two_pow_pos e)
        _ = 2 ^ 52 * 2 ^ (e + 1) := by ring
        _ ≤ 2 ^ 52 * 2 ^ k := Nat.mul_le_mul_left _ (Nat.pow_le_pow_right (by norm_num) he)
    · refine .inl ⟨(2 ^ 52 + m % 2 ^ 52) * 2 ^ (e - k), ?_⟩
      rw [Nat.mul_assoc, ← pow_add, Nat.sub_add_cancel he]

/-- Below overflow, the cap at infinity changes nothing. -/
theorem roundMag_of_lt_infMag {a b : Nat} (h : roundMag a b < infMag) :
    roundMag a b = dropBits (a / b) * 2 ^ 52 + roundDiv a (b * 2 ^ dropBits (a / b)) := by
  rw [roundMag_def] at h ⊢
  exact min_eq_left (by omega)

/-- Below overflow, rounding keeps a whole number of units of `2 ^ k`, where `k` is the number of bits dropped. -/
theorem magUnits_roundMag {a b : Nat} (hb : 0 < b) (h : roundMag a b < infMag) :
    magUnits (roundMag a b) = roundDiv a (b * 2 ^ dropBits (a / b)) * 2 ^ dropBits (a / b) := by
  rw [roundMag_of_lt_infMag h]
  exact magUnits_of_scaled (roundDiv_pow_le hb (lt_pow_dropBits _)) fun hk => le_roundDiv_pow hb (pow_dropBits_le hk)

theorem roundMag_mod_two {a b : Nat} (h : roundMag a b < infMag) :
    roundMag a b % 2 = roundDiv a (b * 2 ^ dropBits (a / b)) % 2 := by
  rw [roundMag_of_lt_infMag h]
  omega

theorem magUnits_injective {m m' : Nat} (h : magUnits m = magUnits m') : m = m' :=
  le_antisymm (magUnits_le_iff.1 h.le) (magUnits_le_iff.1 h.ge)

/-- The dividend is at least `2 ^ 52` of the units it is rounded to, where bits are dropped. -/
theorem scaled_le_of_dropBits_pos {a b : Nat} (hk : 0 < dropBits (a / b)) :
    2 ^ 52 * (b * 2 ^ dropBits (a / b)) ≤ a := by
  calc 2 ^ 52 * (b * 2 ^ dropBits (a / b)) = 2 ^ (dropBits (a / b) + 52) * b := by ring
    _ ≤ a / b * b := Nat.mul_le_mul_right b (pow_dropBits_le hk)
    _ ≤ a := Nat.div_mul_le_self a b

/-- No other magnitude is nearer than the rounded one, and only an even one has an equally near rival. -/
theorem roundMag_nearest {a b m : Nat} (hb : 0 < b) (h : roundMag a b < infMag) (hm : m ≠ roundMag a b) :
    ((a : Int) - magUnits (roundMag a b) * b).natAbs ≤ ((a : Int) - magUnits m * b).natAbs ∧
    (((a : Int) - magUnits (roundMag a b) * b).natAbs = ((a : Int) - magUnits m * b).natAbs → roundMag a b % 2 = 0) := by
  have hval := magUnits_roundMag hb h
  rw [roundMag_mod_two h, hval]
  have hscaled := scaled_le_of_dropBits_pos (a := a) (b := b)
  generalize dropBits (a / b) = k at *
  have hd : 0 < b * 2 ^ k := Nat.mul_pos hb (Nat.two_pow_pos k)
  have hregroup (p : Nat) : ((p * 2 ^ k : Nat) : Int) * b = p * (b * 2 ^ k : Nat) := by push_cast; ring
  rcases magUnits_multiple_or_lt m k with ⟨p, hp⟩ | ⟨hk, hlow⟩
  · have hne : p ≠ roundDiv a (b * 2 ^ k) := by
      rintro rfl
      exact hm (magUnits_injective (hp.trans hval.symm))
    rw [hp, hregroup, hregroup]
    exact roundDiv_nearest hd hne
  · have hnear := dist_roundDiv_le a hd (2 ^ 52)
    have hlt : magUnits m * b < 2 ^ 52 * (b * 2 ^ k) := by
      calc magUnits m * b < 2 ^ 52 * 2 ^ k * b := Nat.mul_lt_mul_of_pos_right hlow hb
        _ = 2 ^ 52 * (b * 2 ^ k) := by ring
    have hle := hscaled hk
    rw [hregroup, ← Nat.cast_mul (magUnits m)]
    rw [← Nat.cast_mul (2 ^ 52)] at hnear
    generalize (2 ^ 52 * (b * 2 ^ k)) = x at *
    generalize magUnits m * b = y at *
    omega

theorem dist_roundMag_le {a b : Nat} (hb : 0 < b) (h : roundMag a b < infMag) (m : Nat) :
    ((a : Int) - magUnits (roundMag a b) * b).natAbs ≤ ((a : Int) - magUnits m * b).natAbs := by
  by_cases hm : m = roundMag a b
  · rw [hm]
  · exact (roundMag_nearest hb h hm).1

/-! ### The sign of a result -/

/-- The integer of sign `neg` and magnitude `n`: what `units` makes of a value's sign and magnitude. -/
def signed (neg : Bool) (n : Nat) : Int := if neg then -(n : Int) else n

theorem units_eq_signed (v : Sample) : units v = signed (isNeg v) (magUnits (mag v)) := rfl

@[simp] theorem signed_true (n : Nat) : signed true n = -(n : Int) := rfl

@[simp] theorem signed_false (n : Nat) : signed false n = n := rfl

@[simp] theorem signed_zero (neg : Bool) : signed neg 0 = 0 := by cases neg <;> rfl

theorem signed_natAbs (t : Int) : signed (decide (t < 0)) t.natAbs = t := by
  by_cases h : t < 0
  · rw [decide_eq_true h, signed_true]
    omega
  · rw [decide_eq_false h, signed_false]
    omega

/-- The rule of signs. -/
theorem signed_mul (s t : Bool) (m n : Nat) : signed s m * signed t n = signed (s != t) (m * n) := by
  cases s <;> cases t <;> simp

theorem units_ofMag (neg : Bool) {m : Nat} (hm : m < 2 ^ 63) : units (ofMag neg m) = signed neg (magUnits m) := by
  rw [units_eq_signed, isNeg_ofMag neg hm, mag_ofMag neg hm]

/-- Values of one sign are as far apart as their magnitudes. -/
theorem dist_signed_same (neg : Bool) (n d x : Nat) :
    (signed neg n - signed neg x * d).natAbs = ((n : Int) - x * d).natAbs := by
  cases neg
  · rfl
  · rw [signed_true, signed_true, Int.neg_mul]
    omega

/-- A value of the other sign is no nearer than 0. -/
theorem le_dist_signed_of_ne {s t : Bool} (h : s ≠ t) (n d x : Nat) : n ≤ (signed s n - signed t x * d).natAbs := by
  have hx : (0 : Int) ≤ x * d := by positivity
  obtain rfl : t = !s := Bool.eq_not_of_ne h.symm
  cases s
  · rw [Bool.not_false, signed_false, signed_true, Int.neg_mul]
    omega
  · rw [Bool.not_true, signed_false, signed_true]
    omega

/-- The magnitude nearest to `n / d` with the sign of the exact result is the nearest value of either sign. -/
theorem dist_ofMag_roundMag_le (neg : Bool) {n d : Nat} (hd : 0 < d) (hfin : isFinite (ofMag neg (roundMag n d)) = true)
    (c : Sample) :
    (signed neg n - units (ofMag neg (roundMag n d)) * d).natAbs ≤ (signed neg n - units c * d).natAbs := by
  have hlt : roundMag n d < infMag := by rwa [isFinite_iff, mag_ofMag neg (roundMag_lt n d)] at hfin
  rw [units_ofMag neg (roundMag_lt n d), dist_signed_same, units_eq_signed c]
  by_cases hs : neg = isNeg c
  · rw [← hs, dist_signed_same]
    exact dist_roundMag_le hd hlt _
  · calc ((n : Int) - magUnits (roundMag n d) * d).natAbs ≤ ((n : Int) - magUnits 0 * d).natAbs := dist_roundMag_le hd hlt 0
      _ = n := by simp
      _ ≤ _ := le_dist_signed_of_ne hs n d _

/-! ### The operations -/

theorem dist_fadd_le {a b : Sample} (ha : isFinite a = true) (hb : isFinite b = true) (hfin : isFinite (fadd a b) = true)
    (c : Sample) : (units a + units b - units (fadd a b)).natAbs ≤ (units a + units b - units c).natAbs := by
  rw [fadd_finite ha hb] at hfin ⊢
  split at hfin
  · next hzero =>
    rw [if_pos hzero, hzero, units_ofMag _ (by norm_num), magUnits_zero, signed_zero, Int.sub_zero]
    exact Nat.zero_le _
  · next hzero =>
    have := dist_ofMag_roundMag_le _ Nat.one_pos hfin c
    rw [signed_natAbs] at this
    rw [if_neg hzero]
    simpa using this

theorem dist_fmul_le {a b : Sample} (ha : isFinite a = true) (hb : isFinite b = true) (hfin : isFinite (fmul a b) = true)
    (c : Sample) :
    (units a * units b - units (fmul a b) * oneUnits).natAbs ≤ (units a * units b - units c * oneUnits).natAbs := by
  rw [fmul_finite ha hb] at hfin ⊢
  rw [units_eq_signed a, units_eq_signed b, signed_mul]
  exact dist_ofMag_roundMag_le _ oneUnits_pos hfin c

/-- A quotient of finite values with a divisor that is not zero: sign by the rule of signs, magnitude rounded once. -/
theorem fdiv_finite {a b : Sample} (ha : isFinite a = true) (hb : isFinite b = true) (hz : isZero b = false) :
    fdiv a b = ofMag (isNeg a != isNeg b) (roundMag (magUnits (mag a) * oneUnits) (magUnits (mag b))) := by
  rw [fdiv, if_neg (by simp [isNaN_of_finite ha, isNaN_of_finite hb]), if_neg (by simp [isInf_of_finite ha]),
    if_neg (by simp [isInf_of_finite hb]), if_neg (by simp [hz])]

theorem magUnits_mag_pos {v : Sample} (hz : isZero v = false) : 0 < magUnits (mag v) := by
  have hne : mag v ≠ 0 := by simpa [isZero] using hz
  exact magUnits_pos (Nat.pos_of_ne_zero hne)

/-- Giving the dividend the divisor's sign moves no distance. -/
theorem dist_signed_divisor (s t : Bool) (n d : Nat) (x : Int) :
    (signed s n - x * signed t d).natAbs = (signed (s != t) n - x * d).natAbs := by
  cases t
  · rw [signed_false, Bool.bne_false]
  · rw [signed_true, Bool.bne_true, Int.mul_neg]
    cases s <;> simp only [Bool.not_true, Bool.not_false, signed_true, signed_false] <;> omega

theorem dist_fdiv_le {a b : Sample} (ha : isFinite a = true) (hb : isFinite b = true) (hz : isZero b = false)
    (hfin : isFinite (fdiv a b) = true) (c : Sample) :
    (units a * oneUnits - units (fdiv a b) * units b).natAbs ≤ (units a * oneUnits - units c * units b).natAbs := by
  have hone : (oneUnits : Int) = signed false oneUnits := rfl
  rw [fdiv_finite ha hb hz] at hfin ⊢
  rw [units_eq_signed a, hone, signed_mul, Bool.bne_false, units_eq_signed b, dist_signed_divisor, dist_signed_divisor]
  exact dist_ofMag_roundMag_le _ (magUnits_mag_pos hz) hfin c

/-! ### round_half_even -/

/-- Of a finite value, `round_half_even` rounds the magnitude and keeps the sign. -/
theorem roundHalfEven_finite {v : Sample} (hv : isFinite v = true) :
    roundHalfEven v = signed (isNeg v) (roundDiv (magUnits (mag v)) oneUnits) := by
  rw [roundHalfEven, if_pos hv]
  rfl

theorem signed_mod_two (neg : Bool) {n : Nat} (h : n % 2 = 0) : signed neg n % 2 = 0 := by
  cases neg
  · rw [signed_false]; omega
  · rw [signed_true]; omega

/-! ### The obligations -/

/-- Settles O28: the magnitude is rounded by `roundDiv`, and the sign moves no distance. -/
theorem roundHalfEvenIsNearest : Obligations.RoundHalfEvenIsNearest := by
  intro v hv
  rw [roundHalfEven_finite hv, units_eq_signed, dist_signed_same]
  exact ⟨two_mul_dist_roundDiv_le _ oneUnits_pos, fun htie => signed_mod_two _ (roundDiv_even_of_tie oneUnits_pos htie)⟩

/-- Settles O29: a rival magnitude is a multiple of the same unit, or lies below all magnitudes of the rounded one's binade. -/
theorem roundingIsToNearestEven : Obligations.RoundingIsToNearestEven :=
  fun _ _ hb hlt _ _ hm => roundMag_nearest hb hlt hm

/-- Settles O30: each operation gives the nearest magnitude the sign of the exact result. -/
theorem arithmeticIsNearest : Obligations.ArithmeticIsNearest :=
  fun _ _ c ha hb _ =>
    ⟨fun h => dist_fadd_le ha hb h c, fun h => dist_fmul_le ha hb h c, fun hz h => dist_fdiv_le ha hb hz h c⟩

end Sys2Proof.Proofs
end

