-- ==== Sys2Proof/Proofs/State.lean ====
section
/-!
PROOFS. The statements about the engine's state (spec/10_state.md). First what each part of a step leaves unchanged, from which the
invariants follow; then the LFO's range, one sample as 128 steps, Construct, and the bounds after reset.
-/

namespace Sys2Proof.Proofs

open Sys2Proof Sys2Proof.Machine

/-! ### What the parts of a running step leave unchanged -/

@[simp] theorem jobNext_params (s : State) : s.jobNext.params = s.params := by rw [State.jobNext_eq]
@[simp] theorem jobNext_cfg (s : State) : s.jobNext.cfg = s.cfg := by rw [State.jobNext_eq]
@[simp] theorem jobNext_mem (s : State) : s.jobNext.mem = s.mem := by rw [State.jobNext_eq]
@[simp] theorem jobNext_wp (s : State) : s.jobNext.wp = s.wp := by rw [State.jobNext_eq]
@[simp] theorem jobNext_pc (s : State) : s.jobNext.pc = s.pc := by rw [State.jobNext_eq]
@[simp] theorem jobNext_coefs (s : State) : s.jobNext.coefs = s.coefs := by rw [State.jobNext_eq]
@[simp] theorem jobNext_damping (s : State) : s.jobNext.damping = s.damping := by rw [State.jobNext_eq]
@[simp] theorem jobNext_calls (s : State) : s.jobNext.calls = s.calls := by rw [State.jobNext_eq]

@[simp] theorem advance_params (s : State) : s.advance.params = s.params := by unfold State.advance; split <;> simp
@[simp] theorem advance_cfg (s : State) : s.advance.cfg = s.cfg := by unfold State.advance; split <;> simp
@[simp] theorem advance_mem (s : State) : s.advance.mem = s.mem := by unfold State.advance; split <;> simp
@[simp] theorem advance_coefs (s : State) : s.advance.coefs = s.coefs := by unfold State.advance; split <;> simp
@[simp] theorem advance_damping (s : State) : s.advance.damping = s.damping := by unfold State.advance; split <;> simp
@[simp] theorem advance_calls (s : State) : s.advance.calls = s.calls := by unfold State.advance; split <;> simp

/-- The advance adds 1 to the step index, modulo 128. -/
@[simp] theorem advance_pc (s : State) : s.advance.pc = s.pc + 1 := by
  by_cases hlast : s.pc = 127
  · rw [State.advance_of_eq hlast, jobNext_pc, State.endSample_pc, hlast]
    rfl
  · rw [State.advance_of_ne hlast]

/-- The advance moves the write pointer at the end of a sample only (R169). -/
theorem advance_wp (s : State) : s.advance.wp = if s.pc = 127 then (s.wp + 1) % s.cfg.n else s.wp := by
  unfold State.advance
  split <;> simp

theorem exec_params {i : Instr} {s t : State} (h : exec i s = .next t) : t.params = s.params := by rw [exec_touches h]
theorem exec_cfg {i : Instr} {s t : State} (h : exec i s = .next t) : t.cfg = s.cfg := by rw [exec_touches h]
theorem exec_pc {i : Instr} {s t : State} (h : exec i s = .next t) : t.pc = s.pc := by rw [exec_touches h]
theorem exec_coefs {i : Instr} {s t : State} (h : exec i s = .next t) : t.coefs = s.coefs := by rw [exec_touches h]
theorem exec_damping {i : Instr} {s t : State} (h : exec i s = .next t) : t.damping = s.damping := by rw [exec_touches h]
theorem exec_calls {i : Instr} {s t : State} (h : exec i s = .next t) : t.calls = s.calls := by rw [exec_touches h]

/-! ### What the acceptance of a call can do -/

/-- An idle engine's step answers what its oldest pending call does. -/
theorem step_call {s : State} {c : HostCall} {rest : List HostCall} (hidle : s.job = .idle) (hcalls : s.calls = c :: rest) :
    step s = State.call c { s with calls := rest } := by
  rw [step_idle hidle, State.idleStep, hcalls]

/-- Beginning a sample of a render, or returning its channels, changes the job, the inputs and the returned value at most. -/
theorem impulseNext_eq (s : State) (r : ImpulseRender) :
    ∃ job inL inR ret, s.impulseNext r = { s with job := job, inL := inL, inR := inR, ret := ret } := by
  unfold State.impulseNext
  split <;> exact ⟨_, _, _, _, rfl⟩

theorem sweepNext_eq (s : State) (r : SweepRender) :
    ∃ job inL inR ret, s.sweepNext r = { s with job := job, inL := inL, inR := inR, ret := ret } := by
  unfold State.sweepNext
  split <;> exact ⟨_, _, _, _, rfl⟩

/-- The engine a Construct of program `p` at `fs` makes (R181): the reset state under the new configuration. -/
def constructed (s : State) (p : Fin 6) (fs : Sample) : State :=
  { s.resetEngine with cfg := engineConfig s.params p fs, coefs := noCoefs, damping := fone, ret := some .engine }

/-- Construct completes exactly when its three checks pass: the parameters, the arguments, the rate. -/
theorem construct_next_iff {i : ProgramIndex} {fs : Sample} {s t : State} :
    s.construct i fs = .next t ↔ paramsRefusal s.params = none ∧ ∃ p, constructCheck i fs = .ok p ∧
      configRefusal s.params (engineConfig s.params p fs) = none ∧ t = constructed s p fs := by
  unfold State.construct
  cases paramsRefusal s.params with
  | some r => simp
  | none =>
    cases constructCheck i fs with
    | error f => simp
    | ok p => cases hconfig : configRefusal s.params (engineConfig s.params p fs) <;> simp [hconfig, constructed, eq_comm]

/-- A render that is accepted begins with a Reset under its coefficients and damping (R183). -/
theorem renderImpulse_next {a : ImpulseArgs} {s t : State} (h : s.renderImpulse a = .next t) :
    ∃ job inL inR ret, t =
      { s.beginRender a.coefficients a.dampingValue with job := job, inL := inL, inR := inR, ret := ret } := by
  unfold State.renderImpulse at h
  split at h
  · cases h
  · cases h
    exact impulseNext_eq _ _

theorem renderSweep_next {a : SweepArgs} {s t : State} (h : s.renderSweep a = .next t) :
    ∃ job inL inR ret, t = { s.beginRender a.coefficients a.damping with job := job, inL := inL, inR := inR, ret := ret } := by
  unfold State.renderSweep at h
  split at h
  · cases h
  · cases h
    exact sweepNext_eq _ _

/-! ### The structural invariant -/

/-- The structural invariant reads the delay memory, the write pointer and N alone. -/
theorem sound_of_eq {s t : State} (h : s.Sound) (hmem : t.mem = s.mem) (hcfg : t.cfg = s.cfg) (hwp : t.wp = s.wp) : t.Sound :=
  ⟨hmem ▸ h.memWf, hcfg ▸ hmem ▸ h.memWithin, hcfg ▸ hwp ▸ h.wpLt⟩

/-- An empty delay memory with the write pointer at 0 is sound wherever N is not 0. -/
theorem sound_of_empty {s : State} (hmem : s.mem = []) (hwp : s.wp = 0) (hn : 0 < s.cfg.n) : s.Sound :=
  ⟨by rw [hmem, Memory.wf_nil], by rw [hmem]; exact List.forall_mem_nil _, by rw [hwp]; exact hn⟩

theorem sound_size_pos {s : State} (h : s.Sound) : 0 < s.cfg.n := Nat.zero_lt_of_lt h.wpLt

theorem readPos_lt {s : State} (h : s.Sound) (off : Offset) : s.readPos off < s.cfg.n :=
  wrapPos_lt (sound_size_pos h) _ _

theorem sound_load {s : State} (h : s.Sound) (w : RegIx) (v : Sample) : (s.load w v).Sound := sound_of_eq h rfl rfl rfl

theorem sound_writeBack {s : State} (h : s.Sound) (w : RegIx) {p : Nat} (hp : p < s.cfg.n) : (s.writeBack w p).Sound :=
  ⟨Memory.write_wf h.memWf _ _, Memory.write_within h.memWithin hp _, h.wpLt⟩

/-- An instruction stores at its read position at most, which is inside [0, N). -/
theorem sound_exec {i : Instr} {s t : State} (hs : s.Sound) (h : exec i s = .next t) : t.Sound := by
  obtain ⟨u, hu, hshape⟩ := exec_shape i s
  rw [hu] at h
  cases h
  rcases hshape with rfl | ⟨w, v, rfl⟩ | ⟨w, off, rfl⟩ | ⟨w, v, off, rfl⟩
  · exact hs
  · exact sound_load hs w v
  · exact sound_writeBack hs w (readPos_lt hs off)
  · exact sound_writeBack (sound_load hs w v) w (readPos_lt hs off)

/-- The advance moves the write pointer modulo N. -/
theorem sound_advance {s : State} (h : s.Sound) : s.advance.Sound := by
  refine ⟨by simpa using h.memWf, by simpa using h.memWithin, ?_⟩
  rw [advance_wp, advance_cfg]
  split
  · exact Nat.mod_lt _ (sound_size_pos h)
  · exact h.wpLt

theorem sound_resetEngine {s : State} (h : s.Sound) : s.resetEngine.Sound :=
  sound_of_empty (s := s.resetEngine) rfl rfl (sound_size_pos (s := s) h)

/-- A configuration that is not refused has an N that is not 0 (log 16). -/
theorem size_pos_of_configRefusal {p : Params} {c : EngineConfig} (h : configRefusal p c = none) : 0 < c.n := by
  have hn : (c.n == 0) = false := (firstHit_eq_none_iff _).1 h (c.n == 0, .emptyDelayMemory) (by simp)
  exact Nat.pos_of_ne_zero (by simpa using hn)

/-- A call that is accepted leaves the engine reset, or starts a Tick on it. -/
theorem sound_call {c : HostCall} {s t : State} (hs : s.Sound) (h : State.call c s = .next t) : t.Sound := by
  cases c with
  | construct i fs =>
    obtain ⟨_, p, _, hp, rfl⟩ := construct_next_iff.1 h
    exact sound_of_empty rfl rfl (size_pos_of_configRefusal hp)
  | reset =>
    cases h
    exact sound_of_eq (sound_resetEngine hs) rfl rfl rfl
  | tick inL inR =>
    cases h
    exact sound_of_eq hs rfl rfl rfl
  | renderImpulse a =>
    obtain ⟨_, _, _, _, rfl⟩ := renderImpulse_next h
    exact sound_of_eq (sound_resetEngine hs) rfl rfl rfl
  | renderSweep a =>
    obtain ⟨_, _, _, _, rfl⟩ := renderSweep_next h
    exact sound_of_eq (sound_resetEngine hs) rfl rfl rfl

/-- Settles O43: each part of a running step and each call keeps the invariant. -/
theorem stepKeepsMemoryAndPointerSound : Obligations.StepKeepsMemoryAndPointerSound := by
  intro s t hs hstep
  by_cases hidle : s.job = .idle
  · rcases step_idle_cases hidle hstep with ⟨_, rfl⟩ | ⟨c, rest, _, hcall⟩
    · exact hs
    · exact sound_call (s := { s with calls := rest }) (sound_of_eq hs rfl rfl rfl) hcall
  · obtain ⟨u, hu, rfl⟩ := step_running_cases hidle hstep
    have hinject : s.inject.Sound := sound_of_eq hs (by simp) (by simp) (by simp)
    have hcapture : u.capture.Sound := sound_of_eq (sound_exec hinject hu) (by simp) (by simp) (by simp)
    exact sound_advance hcapture

/-- Settles O44: the default MARGIN alone makes N positive. -/
theorem resetIsSound : Obligations.ResetIsSound :=
  sound_of_empty rfl rfl (Nat.lt_of_lt_of_le (by decide) (Nat.le_add_left 64 _))

/-! ### The sequencer -/

/-- Settles O33: the fetch is the decode of the program word at `pc`. -/
theorem stepRunsDecodedInstruction : Obligations.StepRunsDecodedInstruction := by
  intro s t i hrun hdecode hexec
  have hfetch : s.fetch = i := hdecode
  rw [step_running hrun, State.programStep, hfetch, hexec]

/-- Settles O35: injection, instruction and capture leave `pc`, and the advance adds 1 to it. -/
theorem stepIndexAdvancesByOne : Obligations.StepIndexAdvancesByOne := by
  refine ⟨fun s t hrun hstep => ?_, fun i s t h => exec_pc h⟩
  obtain ⟨u, hu, rfl⟩ := step_running_cases hrun hstep
  rw [advance_pc, State.capture_pc, exec_pc hu, State.inject_pc]
  exact Fin.val_add s.pc 1

/-! ### What is held -/

/-- A call writes the configuration only if it is a Construct. -/
theorem call_params_cfg {c : HostCall} {s t : State} (h : State.call c s = .next t) :
    t.params = s.params ∧ (t.cfg = s.cfg ∨ ∃ i fs, c = .construct i fs) := by
  cases c with
  | construct i fs =>
    obtain ⟨_, p, _, _, rfl⟩ := construct_next_iff.1 h
    exact ⟨rfl, .inr ⟨i, fs, rfl⟩⟩
  | reset => cases h; exact ⟨rfl, .inl rfl⟩
  | tick inL inR => cases h; exact ⟨rfl, .inl rfl⟩
  | renderImpulse a => obtain ⟨_, _, _, _, rfl⟩ := renderImpulse_next h; exact ⟨rfl, .inl rfl⟩
  | renderSweep a => obtain ⟨_, _, _, _, rfl⟩ := renderSweep_next h; exact ⟨rfl, .inl rfl⟩

/-- Settles O47: no part of a running step writes what is held, and of the calls Construct alone writes the configuration. -/
theorem configurationAndRenderInputsAreHeld : Obligations.ConfigurationAndRenderInputsAreHeld := by
  intro s t hstep
  by_cases hidle : s.job = .idle
  · rcases step_idle_cases hidle hstep with ⟨_, rfl⟩ | ⟨c, rest, hcalls, hcall⟩
    · exact ⟨rfl, .inl rfl, fun h => absurd hidle h⟩
    · obtain ⟨hparams, hcfg⟩ := call_params_cfg hcall
      refine ⟨hparams, hcfg.imp_right ?_, fun h => absurd hidle h⟩
      rintro ⟨i, fs, rfl⟩
      exact ⟨hidle, i, fs, rest, hcalls⟩
  · obtain ⟨u, hu, rfl⟩ := step_running_cases hidle hstep
    simp [exec_params hu, exec_cfg hu, exec_coefs hu, exec_damping hu, exec_calls hu]

/-! ### The order of Samples and the order of their values -/

theorem ordKey_eq_signed (v : Sample) : ordKey v = signed (isNeg v) (mag v) := rfl

/-- The order of encodings is the order of the values they stand for. -/
theorem units_le_units_iff (a b : Sample) : units a ≤ units b ↔ ordKey a ≤ ordKey b := by
  have hle := magUnits_le_iff (m := mag a) (m' := mag b)
  have hge := magUnits_le_iff (m := mag b) (m' := mag a)
  have ha := magUnits_le_iff (m := mag a) (m' := 0)
  have hb := magUnits_le_iff (m := mag b) (m' := 0)
  rw [magUnits_zero] at ha hb
  rw [units_eq_signed, units_eq_signed, ordKey_eq_signed, ordKey_eq_signed]
  cases isNeg a <;> cases isNeg b <;> simp only [signed_true, signed_false] <;> omega

/-- The place in the order that a sum of `t` units rounds to. -/
def roundKey (t : Int) : Int := signed (decide (t < 0)) (roundMag t.natAbs 1)

theorem roundMag_zero (b : Nat) (hb : 0 < b) : roundMag 0 b = 0 := by
  simpa using roundMag_exact (Nat.zero_le infMag) b hb

theorem roundKey_mono {t u : Int} (h : t ≤ u) : roundKey t ≤ roundKey u := by
  unfold roundKey
  by_cases ht : t < 0
  · rw [decide_eq_true ht, signed_true]
    by_cases hu : u < 0
    · rw [decide_eq_true hu, signed_true]
      have := roundMag_mono (a := u.natAbs) (c := t.natAbs) Nat.one_pos Nat.one_pos (by omega)
      omega
    · rw [decide_eq_false hu, signed_false]
      omega
  · rw [decide_eq_false ht, decide_eq_false (by omega), signed_false, signed_false]
    have := roundMag_mono (a := t.natAbs) (c := u.natAbs) Nat.one_pos Nat.one_pos (by omega)
    omega

/-- A value that is representable rounds to itself. -/
theorem roundKey_units {c : Sample} (hc : isNaN c = false) : roundKey (units c) = ordKey c := by
  have hexact := roundMag_exact ((not_isNaN_iff c).1 hc) 1 Nat.one_pos
  rw [Nat.mul_one] at hexact
  unfold roundKey
  rw [units_eq_signed, ordKey_eq_signed]
  cases isNeg c
  · rw [signed_false, signed_false, decide_eq_false (by omega), Int.natAbs_natCast, hexact, signed_false]
  · rw [signed_true, signed_true, Int.natAbs_neg, Int.natAbs_natCast, hexact]
    rcases Nat.eq_zero_or_pos (mag c) with hzero | hpos
    · rw [hzero, signed_zero]
      rfl
    · have := magUnits_pos hpos
      rw [decide_eq_true (by omega), signed_true]

theorem ordKey_ofMag (neg : Bool) {m : Nat} (hm : m < 2 ^ 63) : ordKey (ofMag neg m) = signed neg m := by
  rw [ordKey_eq_signed, isNeg_ofMag neg hm, mag_ofMag neg hm]

theorem ordKey_fadd {a b : Sample} (ha : isFinite a = true) (hb : isFinite b = true) :
    ordKey (fadd a b) = roundKey (units a + units b) := by
  rw [fadd_finite ha hb]
  split
  · next hzero =>
    rw [ordKey_ofMag _ (by norm_num), signed_zero, hzero, roundKey, Int.natAbs_zero, roundMag_zero 1 Nat.one_pos, signed_zero]
  · rw [ordKey_ofMag _ (roundMag_lt _ _), roundKey]

/-- A sum that is at most a value rounds to at most it. -/
theorem ordKey_fadd_le {a b c : Sample} (ha : isFinite a = true) (hb : isFinite b = true) (hc : isNaN c = false)
    (h : units a + units b ≤ units c) : ordKey (fadd a b) ≤ ordKey c := by
  rw [ordKey_fadd ha hb, ← roundKey_units hc]
  exact roundKey_mono h

/-- A sum that is at least a value rounds to at least it. -/
theorem le_ordKey_fadd {a b c : Sample} (ha : isFinite a = true) (hb : isFinite b = true) (hc : isNaN c = false)
    (h : units c ≤ units a + units b) : ordKey c ≤ ordKey (fadd a b) := by
  rw [ordKey_fadd ha hb, ← roundKey_units hc]
  exact roundKey_mono h

/-! ### The quotient of the LFO's increment -/

/-- A magnitude is `q` units of `2 ^ k`, with `q` of at most 53 bits, and of exactly 53 where `k` is not 0. -/
theorem exists_scaled (m : Nat) : ∃ k q, m = k * 2 ^ 52 + q ∧ q < 2 ^ 53 ∧ (0 < k → 2 ^ 52 ≤ q) :=
  ⟨m / 2 ^ 52 - 1, m - (m / 2 ^ 52 - 1) * 2 ^ 52, by omega, by omega, by omega⟩

/-- Two magnitudes are at least one part in 2^53 of the larger apart. -/
theorem magUnits_gap {m m' : Nat} (h : m < m') : 2 ^ 53 * magUnits m ≤ (2 ^ 53 - 1) * magUnits m' := by
  refine le_trans ?_ (Nat.mul_le_mul_left _ (magUnits_mono (Nat.succ_le_of_lt h)))
  obtain ⟨k, q, rfl, hq, hk⟩ := exists_scaled m
  have hsucc : magUnits (k * 2 ^ 52 + q).succ = (q + 1) * 2 ^ k :=
    magUnits_of_scaled hq fun h => (hk h).trans (Nat.le_succ q)
  rw [magUnits_of_scaled hq.le hk, hsucc, ← Nat.mul_assoc, ← Nat.mul_assoc]
  exact Nat.mul_le_mul_right _ (by omega)

/-- The largest Sample below 1.0. -/
def belowOne : Sample := 0x3FEFFFFFFFFFFFFF#64

/-- The largest Sample below 2.0. -/
def belowTwo : Sample := 0x3FFFFFFFFFFFFFFF#64

theorem inUnitInterval_iff (v : Sample) :
    inUnitInterval v = true ↔ isNaN v = false ∧ 0 ≤ ordKey v ∧ ordKey v ≤ ordKey belowOne := by
  have hone : isNaN fone = false ∧ ordKey fone = ordKey belowOne + 1 := by decide +kernel
  rw [inUnitInterval, Bool.and_eq_true, fle_iff, flt_iff, ordKey_fzero, hone.2]
  have hzero := isNaN_of_finite isFinite_fzero
  constructor
  · rintro ⟨⟨_, hv, hlow⟩, _, _, hhigh⟩
    exact ⟨hv, hlow, by omega⟩
  · rintro ⟨hv, hlow, hhigh⟩
    exact ⟨⟨hzero, hv, hlow⟩, hv, hone.1, by omega⟩

/-- A Sample from 0 to a finite bound is finite. -/
theorem isFinite_of_ordKey_le {v b : Sample} (hb : isFinite b = true) (h0 : 0 ≤ ordKey v) (h : ordKey v ≤ ordKey b) :
    isFinite v = true := by
  rw [isFinite_iff, mag_eq_natAbs_ordKey] at *
  omega

/-- A quotient of a value that is not negative by a larger one rounds to below 1.0: the gap between the two is larger than the
rounding. -/
theorem fdiv_inUnitInterval {a b : Sample} (hb : isFinite b = true) (h0 : fle fzero a = true) (h : flt a b = true) :
    inUnitInterval (fdiv a b) = true := by
  obtain ⟨_, _, h0⟩ := (fle_iff _ _).1 h0
  obtain ⟨_, _, h⟩ := (flt_iff _ _).1 h
  rw [ordKey_fzero] at h0
  have ha : isFinite a = true := isFinite_of_ordKey_le hb h0 h.le
  have hmag : mag a < mag b := by
    rw [mag_eq_natAbs_ordKey, mag_eq_natAbs_ordKey]
    omega
  have hzero : isZero b = false := by
    rw [isZero, beq_eq_false_iff_ne]
    omega
  have hbelow : roundMag (magUnits (mag a) * oneUnits) (magUnits (mag b)) ≤ mag belowOne := by
    refine roundMag_le (magUnits_mag_pos hzero) (by decide +kernel) ?_
    obtain ⟨e, hone, hbelow⟩ : ∃ e, oneUnits = 2 ^ 53 * e ∧ magUnits (mag belowOne) = (2 ^ 53 - 1) * e :=
      ⟨2 ^ 1021, by decide +kernel⟩
    rw [hone, hbelow]
    calc magUnits (mag a) * (2 ^ 53 * e) = 2 ^ 53 * magUnits (mag a) * e := by ring
      _ ≤ (2 ^ 53 - 1) * magUnits (mag b) * e := Nat.mul_le_mul_right _ (magUnits_gap hmag)
      _ = (2 ^ 53 - 1) * e * magUnits (mag b) := by ring
  have hsign : ordKey (fdiv a b) = roundMag (magUnits (mag a) * oneUnits) (magUnits (mag b)) := by
    have hnb : isNeg b = false := by
      by_contra hneg
      rw [ordKey_eq_signed b, Bool.of_not_eq_false hneg, signed_true] at h
      omega
    rw [fdiv_finite ha hb hzero, ordKey_ofMag _ (roundMag_lt _ _), hnb, Bool.bne_false]
    rw [ordKey_eq_signed] at h0
    cases hna : isNeg a
    · rw [signed_false]
    · rw [hna, signed_true] at h0
      rw [show mag a = 0 by omega, magUnits_zero, Nat.zero_mul, roundMag_zero _ (magUnits_mag_pos hzero), signed_zero]
      rfl
  have hone : ordKey belowOne = mag belowOne ∧ mag belowOne ≤ infMag := by decide +kernel
  rw [inUnitInterval_iff, not_isNaN_iff, mag_eq_natAbs_ordKey, hsign, hone.1]
  omega

/-! ### The LFO -/

/-- The sum of two values of [0, 1) is at most the largest Sample below 2.0. -/
theorem fadd_of_inUnitInterval {a b : Sample} (ha : inUnitInterval a = true) (hb : inUnitInterval b = true) :
    0 ≤ ordKey (fadd a b) ∧ ordKey (fadd a b) ≤ ordKey belowTwo := by
  have hconst : isFinite belowOne = true ∧ isFinite belowTwo = true ∧ units belowOne + units belowOne = units belowTwo ∧
      units fzero = 0 := by decide +kernel
  obtain ⟨hfinOne, hfinTwo, hdouble, hzero⟩ := hconst
  obtain ⟨_, ha0, ha1⟩ := (inUnitInterval_iff a).1 ha
  obtain ⟨_, hb0, hb1⟩ := (inUnitInterval_iff b).1 hb
  have hafin := isFinite_of_ordKey_le hfinOne ha0 ha1
  have hbfin := isFinite_of_ordKey_le hfinOne hb0 hb1
  rw [← ordKey_fzero, ← units_le_units_iff] at ha0 hb0
  rw [← units_le_units_iff] at ha1 hb1
  rw [← ordKey_fzero]
  exact ⟨le_ordKey_fadd hafin hbfin (isNaN_of_finite isFinite_fzero) (by omega),
    ordKey_fadd_le hafin hbfin (isNaN_of_finite hfinTwo) (by omega)⟩

/-- What is left of a value of [0, 2) when 1.0 is taken off it from 1.0 on. -/
theorem wrap_inUnitInterval {ph : Sample} (h0 : 0 ≤ ordKey ph) (h2 : ordKey ph ≤ ordKey belowTwo) :
    inUnitInterval (if fle fone ph then fsub ph fone else ph) = true := by
  have hconst : isFinite belowOne = true ∧ isFinite belowTwo = true ∧ isFinite fone = true ∧ units fzero = 0 ∧
      units belowTwo - units fone ≤ units belowOne ∧ ordKey fone = ordKey belowOne + 1 := by decide +kernel
  obtain ⟨hfinOne, hfinTwo, hone, hzero, hrest, hsucc⟩ := hconst
  have hph := isFinite_of_ordKey_le hfinTwo h0 h2
  have hnan := isNaN_of_finite hph
  rw [inUnitInterval_iff]
  split
  · next hge =>
    obtain ⟨_, _, hge⟩ := (fle_iff _ _).1 hge
    have hneg : isFinite (fneg fone) = true := by rwa [isFinite_fneg]
    rw [← units_le_units_iff] at hge h2
    rw [fsub_finite hph hone, ← ordKey_fzero]
    have hunits := units_fneg fone
    exact ⟨isNaN_fadd hph hneg, le_ordKey_fadd hph hneg (isNaN_of_finite isFinite_fzero) (by omega),
      ordKey_fadd_le hph hneg (isNaN_of_finite hfinOne) (by omega)⟩
  · next hlt =>
    have hbelow : ¬ordKey fone ≤ ordKey ph := fun h => hlt ((fle_iff _ _).2 ⟨isNaN_of_finite hone, hnan, h⟩)
    exact ⟨hnan, h0, by omega⟩

theorem nextPhase_inUnitInterval {phase rate fs : Sample} (hphase : inUnitInterval phase = true) (hfs : isFinite fs = true)
    (hrate : fle fzero rate = true) (hlt : flt rate fs = true) : inUnitInterval (nextPhase phase rate fs) = true := by
  obtain ⟨h0, h2⟩ := fadd_of_inUnitInterval hphase (fdiv_inUnitInterval hfs hrate hlt)
  exact wrap_inUnitInterval h0 h2

/-- A magnitude of at most 1.0 is in [-1, 1]. -/
theorem withinBound_fone_of_mag {v : Sample} (h : mag v ≤ mag fone) : withinBound fone v = true := by
  have hone : isNaN fone = false ∧ ordKey fone = mag fone := by decide +kernel
  have hv := mag_eq_natAbs_ordKey v
  rw [withinBound_iff, hone.2]
  refine ⟨hone.1, ?_, by omega, by omega⟩
  rw [not_isNaN_iff]
  exact h.trans ((not_isNaN_iff _).1 hone.1)

/-- The model keeps `sin` of a finite value in [-1, 1] (log 6). -/
theorem fsin_withinBound {v : Sample} (hv : isFinite v = true) : withinBound fone (fsin v) = true := by
  apply withinBound_fone_of_mag
  rw [fsin, if_pos hv]
  split
  · next hzero =>
    rw [isZero, beq_iff_eq] at hzero
    omega
  · have hmin : min (mag (Config.sin v)) (mag fone) ≤ mag fone := min_le_right _ _
    rwa [unitBound, mag_ofMag _ (hmin.trans_lt (mag_lt fone))]

theorem lfoWave_withinBound {phase : Sample} (h : inUnitInterval phase = true) : withinBound fone (lfoWave phase) = true := by
  obtain ⟨_, h0, h1⟩ := (inUnitInterval_iff phase).1 h
  have hconst : isFinite twoPi = true ∧ isFinite belowOne = true ∧ mag belowOne ≤ mag fone ∧
      ordKey belowOne = mag belowOne := by decide +kernel
  obtain ⟨hpi, hone, hle, hkey⟩ := hconst
  have hmag : mag phase ≤ mag fone := by
    rw [mag_eq_natAbs_ordKey phase]
    omega
  refine fsin_withinBound ((isFinite_iff _).2 ?_)
  exact (mag_fmul_le hpi (isFinite_of_ordKey_le hone h0 h1) hmag).trans_lt ((isFinite_iff _).1 hpi)

/-- Settles O38: the increment is below 1.0, so the sum is below 2.0, and the sine is taken of a finite value. -/
theorem lfoStaysInRange : Obligations.LfoStaysInRange := by
  intro phase rate fs hphase hfs hrate hlt
  have hnext := nextPhase_inUnitInterval hphase hfs hrate hlt
  exact ⟨hnext, lfoWave_withinBound hnext⟩

/-! ### One sample -/

/-- R110: the instruction of a decoded step means what the spec's `Exec` does with the step, if no coefficient step has a read
tap. -/
theorem exec_toInstr {d : DecodedStep} (hd : d.hasCoefficient = true → d.readTap = false) (s : State) :
    exec d.toInstr s = .next (State.execStep d s) := by
  unfold DecodedStep.toInstr DecodedStep.classOf State.execStep
  cases d.isNop with
  | true => rfl
  | false =>
    cases hcoef : d.hasCoefficient with
    | false => cases d.memWrite <;> cases d.readTap <;> rfl
    | true => rw [hd hcoef]; cases d.rsrc <;> cases d.acc <;> cases d.memWrite <;> cases d.we <;> rfl

theorem readTap_of_hasCoefficient {q : DecodeParams} {w : Word} (h : (decodeStep q w).hasCoefficient = true) :
    (decodeStep q w).readTap = false := by
  simp only [decodeStep] at h ⊢
  simp [h]

theorem exec_decode (q : DecodeParams) (w : Word) (s : State) :
    exec (decode q w) s = .next (State.execStep (decodeStep q w) s) :=
  exec_toInstr readTap_of_hasCoefficient s

/-- A running engine's step is one turn of the procedure's loop, between the injection and the advance. -/
theorem step_running_stepAt {s : State} (h : s.job ≠ .idle) : step s = .next (s.inject.stepAt s.pc).advance := by
  have hfetch : s.fetch = decode s.inject.params.decode (s.inject.programWord s.inject.pc) := by
    rw [State.inject_eq]
    rfl
  rw [step_running h, State.programStep, hfetch, exec_decode, ← State.inject_pc s]
  rfl

/-- A turn of the loop sets the step index, so it starts from any. -/
theorem stepAt_setPc (s : State) (p i : Fin 128) : State.stepAt { s with pc := p } i = s.stepAt i := rfl

theorem stepAt_pc (s : State) (i : Fin 128) : (s.stepAt i).pc = i := by
  rw [State.stepAt, State.capture_pc]
  exact exec_pc (s := { s with pc := i }) (exec_decode s.params.decode (s.programWord i) _)

theorem runSteps_setPc (i n : Nat) (s : State) (p : Fin 128) :
    State.runSteps i (n + 1) { s with pc := p } = State.runSteps i (n + 1) s := rfl

theorem runSteps_succ (i n : Nat) (s : State) :
    State.runSteps i (n + 1) s = (State.runSteps i n s).stepAt (Fin.ofNat 128 (i + n)) := by
  induction n generalizing i s with
  | zero => rfl
  | succ n ih =>
    rw [State.runSteps, ih, State.runSteps, Nat.add_right_comm, Nat.add_assoc]

/-- The turns of the loop keep the host's side of the state. -/
theorem runSteps_eq_withHost (i n : Nat) (s : State) : State.runSteps i n s = (State.runSteps i n s).withHost s :=
  State.runSteps_withHost i n s s

theorem runSteps_job (i n : Nat) (s : State) : (State.runSteps i n s).job = s.job := by
  rw [runSteps_eq_withHost]
  rfl

theorem runSteps_inR (i n : Nat) (s : State) : (State.runSteps i n s).inR = s.inR := by
  rw [runSteps_eq_withHost]
  rfl

/-- The engine at step `i`, before it. -/
def atStep (i : Nat) (s : State) : State := { s with pc := Fin.ofNat 128 i }

/-- Before step 127 a step leads from the index to the next. -/
theorem step_of_lt {s : State} {i : Nat} (hrun : s.job ≠ .idle) (hpc : s.pc = Fin.ofNat 128 i) (hi : i < 127) :
    step s = .next (atStep (i + 1) (s.inject.stepAt (Fin.ofNat 128 i))) := by
  have hne : Fin.ofNat 128 i ≠ 127 := by
    rw [Ne, Fin.ext_iff, Fin.val_ofNat]
    omega
  have hsucc : Fin.ofNat 128 i + 1 = Fin.ofNat 128 (i + 1) := by
    rw [Fin.ext_iff, Fin.val_add, Fin.val_ofNat, Fin.val_ofNat]
    simp
  rw [step_running_stepAt hrun, hpc, State.advance_of_ne (by rwa [stepAt_pc]), stepAt_pc, hsucc]
  rfl

/-- Step 127 ends the sample. -/
theorem step_last {s : State} (hrun : s.job ≠ .idle) (hpc : s.pc = 127) :
    step s = .next (s.inject.stepAt 127).endSample.jobNext := by
  rw [step_running_stepAt hrun, hpc, State.advance_of_eq (stepAt_pc _ _)]

/-- No input is injected but before the steps 0 and 64. -/
theorem inject_atStep {i : Nat} (s : State) (h0 : 0 < i) (h64 : i ≠ 64) (hi : i < 128) : (atStep i s).inject = atStep i s := by
  have hpc : (atStep i s).pc.val = i := Nat.mod_eq_of_lt hi
  have hne0 : (atStep i s).pc ≠ 0 := fun hc => by rw [hc] at hpc; exact h0.ne hpc
  have hne64 : (atStep i s).pc ≠ 64 := fun hc => by rw [hc] at hpc; exact h64 hpc.symm
  rw [State.inject, if_neg hne0, if_neg hne64]

/-- From step `i` on, until the next injection, steps of the machine are turns of the procedure's loop. -/
theorem after_runSteps {s : State} {i n : Nat} (hrun : s.job ≠ .idle) (hpc : s.pc = Fin.ofNat 128 i) (hn : 1 ≤ n)
    (hlast : i + n < 128) (hinner : 64 ≤ i ∨ i + n ≤ 64) : After n s (atStep (i + n) (State.runSteps i n s.inject)) := by
  induction n, hn using Nat.le_induction with
  | base => exact After.one_iff.2 (step_of_lt hrun hpc (by omega))
  | succ n hn ih =>
    refine After.add (ih (by omega) (by omega)) (After.one_iff.2 ?_)
    have hjob : (atStep (i + n) (State.runSteps i n s.inject)).job ≠ .idle := by
      rw [atStep, runSteps_job, State.inject_job]
      exact hrun
    rw [step_of_lt hjob rfl (by omega), inject_atStep _ (by omega) (by omega) (by omega), runSteps_succ]
    rfl

/-- A running engine at step 0 is, 128 steps later, where `Tick` leaves it on the inputs held, the job gone on. -/
theorem after_tick {s : State} (hrun : s.job ≠ .idle) (hpc : s.pc = 0) : After 128 s (State.tick s.inL s.inR s).jobNext := by
  have hleft := after_runSteps (i := 0) (n := 64) hrun hpc (by omega) (by omega) (by omega)
  rw [show s.inject = s.injectInput s.inL from if_pos hpc] at hleft
  have hjob : (State.runSteps 0 64 (s.injectInput s.inL)).job ≠ .idle := by
    rw [runSteps_job]
    exact hrun
  have hinR := runSteps_inR 0 64 (s.injectInput s.inL)
  rw [State.tick]
  rw [State.injectInput_inR] at hinR
  generalize State.runSteps 0 64 (s.injectInput s.inL) = l at *
  have hinject : (atStep 64 l).inject = atStep 64 (l.injectInput s.inR) := by rw [← hinR]; rfl
  have hright := after_runSteps (s := atStep 64 l) (i := 64) (n := 63) hjob rfl (by omega) (by omega) (by omega)
  rw [hinject, show State.runSteps 64 63 (atStep 64 (l.injectInput s.inR)) = _ from runSteps_setPc 64 62 _ _] at hright
  have hlastJob : (atStep 127 (State.runSteps 64 63 (l.injectInput s.inR))).job ≠ .idle := by
    rw [atStep, runSteps_job]
    exact hjob
  have hlast := step_last hlastJob rfl
  rw [inject_atStep _ (by omega) (by omega) (by omega), atStep, stepAt_setPc] at hlast
  rw [runSteps_succ 64 63]
  exact After.add (hleft.add hright) (After.one_iff.2 hlast)

/-- The running Tick returns its outputs. -/
theorem jobNext_tick {s : State} (h : s.job = .tick) :
    s.jobNext = { s with job := .idle, ret := some (.sample s.outL s.outR) } := by
  rw [State.jobNext, h]

theorem tick_job (inL inR : Sample) (s : State) : (State.tick inL inR s).job = s.job := by
  rw [show State.tick inL inR s = (State.tick inL inR s).withHost s from State.tick_withHost inL inR s s]
  rfl

/-- A `Tick` starts from any step index. -/
theorem tick_setPc (inL inR : Sample) (s : State) (p : Fin 128) :
    State.tick inL inR { s with pc := p } = State.tick inL inR s := by
  rw [State.tick, State.tick]
  exact congrArg (fun u => (State.runSteps 64 64 (State.injectInput u inR)).endSample) (runSteps_setPc 0 63 (s.injectInput inL) p)

theorem after_tick_returns {s : State} (hjob : s.job = .tick) (hpc : s.pc = 0) :
    After 128 s { State.tick s.inL s.inR s with
      job := .idle
      ret := some (.sample (State.tick s.inL s.inR s).outL (State.tick s.inL s.inR s).outR) } := by
  have hrun : s.job ≠ .idle := by simp [hjob]
  rw [← jobNext_tick (by rw [tick_job, hjob])]
  exact after_tick hrun hpc

/-- The engine a Tick call starts. -/
def ticking (inL inR : Sample) (rest : List HostCall) (s : State) : State :=
  { s with calls := rest, inL := inL, inR := inR, pc := 0, job := .tick }

/-- The `Tick` that a call starts is the procedure's on the state before the call. -/
theorem tick_ticking (inL inR : Sample) (rest : List HostCall) (s : State) :
    State.tick inL inR (ticking inL inR rest s) = (State.tick inL inR s).withHost (ticking inL inR rest s) := by
  rw [← tick_setPc inL inR s 0, ← State.tick_withHost]
  rfl

theorem step_tickCall {s : State} {inL inR : Sample} {rest : List HostCall} (hidle : s.job = .idle)
    (hcalls : s.calls = .tick inL inR :: rest) : step s = .next (ticking inL inR rest s) := by
  rw [step_call hidle hcalls]
  rfl

/-- Settles O42: two halves of 64 turns, each behind its injection, the last with the end of the sample. -/
theorem tickIsOneHundredTwentyEightSteps : Obligations.TickIsOneHundredTwentyEightSteps := by
  refine ⟨fun s hrun hpc => ⟨after_tick hrun hpc, fun hjob => after_tick_returns hjob hpc⟩, ?_⟩
  intro s inL inR rest hidle hcalls
  have hstep := step_tickCall hidle hcalls
  refine ⟨hstep, After.succ_iff.2 ⟨_, hstep, ?_⟩⟩
  have hreturn := after_tick_returns (s := ticking inL inR rest s) rfl rfl
  rw [show State.tick (ticking inL inR rest s).inL (ticking inL inR rest s).inR _ = _ from tick_ticking inL inR rest s] at hreturn
  exact hreturn

/-! ### Construct -/

theorem flt_eq_not_fle {a b : Sample} (ha : isNaN a = false) (hb : isNaN b = false) : flt a b = !fle b a := by
  simp [flt, fle, ha, hb, ← decide_not]

/-- The two spellings of "finite and at least 0", and of "finite and above 0". -/
theorem notNonnegative_eq_false_iff (v : Sample) : notNonnegative v = false ↔ isFinite v = true ∧ fle fzero v = true := by
  unfold notNonnegative
  cases hv : isFinite v
  · simp
  · simp [flt_eq_not_fle (isNaN_of_finite hv) (isNaN_of_finite isFinite_fzero)]

theorem notPositive_eq_false_iff (v : Sample) : notPositive v = false ↔ isFinite v = true ∧ flt fzero v = true := by
  unfold notPositive
  cases hv : isFinite v
  · simp
  · simp [flt_eq_not_fle (isNaN_of_finite isFinite_fzero) (isNaN_of_finite hv)]

theorem outStepsOk_iff (o : OutSteps) : outStepsOk o = true ↔ o.left.val < 64 ∧ 64 ≤ o.right.val := by
  simp [outStepsOk]

/-- The check of OUT_STEPS asks of each entry what R233 does; where there is no entry, the fallback passes it. -/
theorem outStepsCheck_iff (p : Params) :
    p.outSteps.toList.all (fun o => outStepsOk (o.getD fallbackOutSteps)) = true ↔
      ∀ (i : Fin 6) (o : OutSteps), p.outSteps[i] = some o → o.left.val < 64 ∧ 64 ≤ o.right.val := by
  have hfallback : outStepsOk fallbackOutSteps = true := by decide
  rw [List.all_eq_true]
  constructor
  · intro h i o ho
    have := h p.outSteps[i] (by simp)
    rwa [ho, Option.getD_some, outStepsOk_iff] at this
  · intro h o ho
    cases o with
    | none => exact hfallback
    | some o =>
      obtain ⟨i, hi, hget⟩ := Vector.mem_iff_getElem.1 (Vector.mem_toList_iff.1 ho)
      exact (outStepsOk_iff o).2 (h ⟨i, hi⟩ o hget)

/-- The checks of the parameters pass exactly when none of the conditions on them alone fails. -/
theorem paramsRefusal_eq_none_iff (p : Params) (fs : Sample) :
    paramsRefusal p = none ↔ ∀ r ∈ parameterRefusals, ¬Violates p fs r := by
  simp only [paramsRefusal, firstHit_eq_none_iff, parameterRefusals, List.forall_mem_cons, Bool.not_eq_eq_eq_not, Bool.not_false,
    outStepsCheck_iff, notNonnegative_eq_false_iff, positive, Violates, Bool.and_eq_true, not_not, and_assoc, Bool.not_eq_false,
    List.not_mem_nil, false_implies, implies_true]

/-- The checks that depend on the rate pass exactly when none of their conditions fails. -/
theorem configRefusal_eq_none_iff (p : Params) (i : Fin 6) (fs : Sample) :
    configRefusal p (engineConfig p i fs) = none ↔ ∀ r ∈ rateRefusals, ¬Violates p fs r := by
  simp only [configRefusal, firstHit_eq_none_iff, rateRefusals, List.forall_mem_cons, Bool.not_eq_eq_eq_not, Bool.not_false,
    positive, Violates, engineConfig, delaySize, sweepTop, Bool.and_eq_true, not_not, beq_eq_false_iff_ne, ne_eq,
    List.not_mem_nil, false_implies, implies_true]
  tauto

/-- The arguments of Construct pass their checks exactly as a program index that equals `i` and a finite rate above 0. -/
theorem constructCheck_eq_ok {p : ProgramIndex} {i : Fin 6} {fs : Sample}
    (hp : p = .int i.val ∨ ∃ v, p = .float v ∧ isFinite v = true ∧ units v = (i.val : Int) * oneUnits)
    (hfs : isFinite fs = true) (hpos : flt fzero fs = true) : constructCheck p fs = .ok i := by
  have hprogram : p.program = some i := by
    rw [ProgramIndex.program_eq_some_iff]
    rcases hp with rfl | ⟨v, rfl, hv, hunits⟩
    · rfl
    · exact (exactInt_eq_some_iff v _).2 ⟨hv, hunits⟩
  have hrate := (notPositive_eq_false_iff fs).2 ⟨hfs, hpos⟩
  simp [constructCheck, hprogram, hrate]

/-- Settles O51: every check passes, and the constructed engine is the reset state under the new configuration. -/
theorem constructMakesResetEngine : Obligations.ConstructMakesResetEngine := by
  intro s p i fs rest hidle hcalls hp hfs hpos hgood
  have hparams := (paramsRefusal_eq_none_iff s.params fs).2 fun r _ => hgood r
  have hconfig := (configRefusal_eq_none_iff s.params i fs).2 fun r _ => hgood r
  refine ⟨constructed { s with calls := rest } i fs, ?_, rfl, rfl, rfl, rfl, rfl, rfl, fun _ => rfl, State.reg_resetEngine s,
    rfl, rfl, rfl, rfl, rfl, rfl, rfl⟩
  rw [step_call hidle hcalls]
  exact construct_next_iff.2 ⟨hparams, i, constructCheck_eq_ok hp hfs hpos, hconfig, rfl⟩

/-! ### The bounds after reset -/

theorem reg_reset (i : RegIx) : State.reset.reg i = fzero := by simp [State.reset, State.reg]

theorem coef_reset (k : CoefIx) : State.reset.coef k = fzero := by simp [State.reset, State.coef, noCoefs]

theorem defaultParams_numeric : Params.Numeric defaultParams :=
  ⟨by decide +kernel, by decide +kernel, by decide +kernel, by decide +kernel, by decide +kernel, by decide +kernel⟩

/-- Settles O46: every value after reset is 0.0 or 1.0, and the default parameters are within R233. -/
theorem resetIsBounded : Obligations.ResetIsBounded where
  params := defaultParams_numeric
  memWf := Memory.wf_nil
  coefs k := by rw [coef_reset, isFinite_fzero]
  damping := by decide +kernel
  peak := by decide +kernel
  regs i := by
    rw [reg_reset]
    decide +kernel
  mem _ := isFinite_fzero

end Sys2Proof.Proofs
end

