-- ==== Sys2Proof/Proofs/Memory.lean ====
section
/-!
PROOFS. The statements about the delay memory (spec/20_memory.md). First the read position as arithmetic modulo N, then what an
instruction stores, then the taps.
-/

namespace Sys2Proof.Proofs

open Sys2Proof Sys2Proof.Machine

/-! ### The read position -/

/-- For N > 0 the position loses nothing of the remainder when it becomes a natural number. -/
theorem wrapPos_cast {n : Nat} (hn : 0 < n) (wp : Nat) (off : Int) : (wrapPos n wp off : Int) = ((wp : Int) - off) % n :=
  Int.toNat_of_nonneg (Int.emod_nonneg _ (by omega))

/-- Settles O24: the multiple of N is the quotient of the Euclidean division. -/
theorem readPositionIsEuclidean : Obligations.ReadPositionIsEuclidean := by
  intro s off hn
  refine ⟨wrapPos_lt hn _ _, ((s.wp : Int) - s.effOffset off) / s.cfg.n, ?_⟩
  rw [State.readPos, wrapPos_cast hn]
  exact (Int.ediv_mul_add_emod _ _).symm

/-- Settles O27: `wp + d` and `off + d` differ by what `wp` and `off` differ by, and the remainder taken of the pointer falls to the
remainder of the position. -/
theorem delayIsOffsetDifference : Obligations.DelayIsOffsetDifference := by
  intro n wp d off _
  have hpos : (((wp + d) % n : Nat) - (off + d)) % (n : Int) = ((wp : Int) - off) % n := by
    rw [Int.natCast_emod, Int.emod_sub_emod, Nat.cast_add, add_sub_add_right_eq_sub]
  rw [wrapPos, wrapPos, hpos]

/-! ### What an instruction stores -/

/-- After a write-back an index reads as before or reads the stored value of the register. -/
theorem memRead_writeBack_cases {s : State} (h : s.mem.wf = true) (w : RegIx) (p a : Nat) :
    (s.writeBack w p).memRead a = s.memRead a ∨ (s.writeBack w p).memRead a = s.stored (s.reg w) := by
  rw [State.memRead_writeBack h]
  split
  · exact .inr rfl
  · exact .inl rfl

/-- `exec_shape` with the register named: the instruction of a word loads the register of its write address at most, and then
stores that register at most (R110, R111). -/
theorem exec_decode_shape (q : DecodeParams) (w : Word) (s : State) :
    ∃ u, (u = s ∨ ∃ v, u = s.load w.waddr v) ∧
      (exec (decode q w) s = .next u ∨ ∃ p, exec (decode q w) s = .next (u.writeBack w.waddr p)) := by
  have hwaddr : (decodeStep q w).waddr = w.waddr := rfl
  rw [exec_decode, ← hwaddr]
  unfold State.execStep
  cases (decodeStep q w).isNop with
  | true => exact ⟨s, .inl rfl, .inl rfl⟩
  | false =>
    cases hcoef : (decodeStep q w).hasCoefficient with
    | false =>
      cases (decodeStep q w).memWrite with
      | true => exact ⟨s, .inl rfl, .inr ⟨_, rfl⟩⟩
      | false =>
        cases (decodeStep q w).readTap with
        | true => exact ⟨_, .inr ⟨_, rfl⟩, .inl rfl⟩
        | false => exact ⟨s, .inl rfl, .inl rfl⟩
    | true =>
      rw [readTap_of_hasCoefficient hcoef]
      cases (decodeStep q w).memWrite with
      | true => cases (decodeStep q w).acc <;> exact ⟨_, .inr ⟨_, rfl⟩, .inr ⟨_, rfl⟩⟩
      | false => cases (decodeStep q w).acc <;> exact ⟨_, .inr ⟨_, rfl⟩, .inl rfl⟩

/-- Settles O22: a load leaves the delay memory, the limiter's parameters and the damping, so what is stored is the register as the
instruction leaves it. -/
theorem storesAreLimitedAndDamped : Obligations.StoresAreLimitedAndDamped := by
  refine fun s hwf => ⟨State.memRead_memWrite hwf, fun w t hexec a => ?_⟩
  obtain ⟨u, hu, hstore⟩ := exec_decode_shape s.params.decode w s
  rw [hexec] at hstore
  rcases hu with rfl | ⟨v, rfl⟩ <;> rcases hstore with heq | ⟨p, heq⟩ <;> cases heq
  · exact .inl rfl
  · exact memRead_writeBack_cases hwf w.waddr p a
  · exact .inl rfl
  · exact memRead_writeBack_cases (s := s.load w.waddr v) hwf w.waddr p a

/-! ### Taps -/

/-- A store moves no read position. -/
@[simp] theorem readPos_writeBack (s : State) (w : RegIx) (p : Nat) (off : Offset) :
    (s.writeBack w p).readPos off = s.readPos off := rfl

/-- A read tap loads the clamped Sample at its read position (R142). -/
theorem exec_rdt (c : Ctrl) (w : RegIx) (off : Offset) (s : State) :
    exec (.rdt c w off) s = .next (s.load w (s.memRead (s.readPos off))) := rfl

/-- A write tap stores its register at its read position (R143). -/
theorem exec_wrt (c : Ctrl) (w : RegIx) (off : Offset) (s : State) :
    exec (.wrt c w off) s = .next (s.writeBack w (s.readPos off)) := rfl

/-- Settles O19: the store leaves the read position where it is, so the read tap reads the index just written. -/
theorem writeThenReadTapSameOffset : Obligations.WriteThenReadTapSameOffset := by
  intro s c c' w w' off hwf
  refine ⟨_, _, exec_wrt c w off s, exec_rdt c' w' off _, ?_⟩
  rw [State.reg_load_self, readPos_writeBack, State.memRead_writeBack hwf, if_pos rfl]
  rfl

/-- +0.0 is within every positive bound. -/
theorem clamp_fzero {l : Sample} (h : positive l = true) : clamp fzero l = fzero := by
  obtain ⟨hfin, hpos⟩ := (positive_iff l).1 h
  refine clamp_of_withinBound ((withinBound_iff l fzero).2 ?_)
  rw [ordKey_fzero]
  exact ⟨isNaN_of_finite hfin, isNaN_of_finite isFinite_fzero, by omega, by omega⟩

/-- Settles O20: the read tap loads +0.0, which the clamp leaves as it is. -/
theorem coldMemoryReadsZero : Obligations.ColdMemoryReadsZero := by
  intro s c w off hclamp hcold
  refine ⟨_, exec_rdt c w off s, ?_⟩
  rw [State.reg_load_self, hcold, State.clampR, clamp_fzero hclamp]

end Sys2Proof.Proofs
end

