-- ==== Sys2Proof/Proofs/Encoding.lean ====
section
/-!
PROOFS. The statements about the encoding (spec/30_encoding.md). First a word as the row of its fields, from which the two round trips
follow; then the opcode table, the assembler, and what Construct refuses.
-/

namespace Sys2Proof.Proofs

open Sys2Proof Sys2Proof.Machine

/-! ### The instruction of the groups of a word -/

/-- The instruction of the groups of a word whose coefficient byte is 0xFF. -/
def tapRow (q : DecodeParams) (c : Ctrl) (w : RegIx) (o : Offset) : Instr :=
  if controlAllOnes c w then .nop o
  else if q.writes c then .wrt c w o
  else if q.routes c then .skip c w o
  else .rdt c w o

/-- The instruction with a coefficient of the given source, accumulation and memory write; where it writes nothing, write-enable
tells the two forms of R85 apart. -/
def coefRow (rsrc acc wb we : Bool) (c : Ctrl) (w : RegIx) (r : SrcIx) (k : CoefIx) (o : Offset) : Instr :=
  match rsrc, acc, wb with
  | false, false, false => if we then .mulMSentinel w r k o else .mulM c w r k o
  | false, false, true => .mulwM c w r k o
  | false, true, false => if we then .macMSentinel w r k o else .macM c w r k o
  | false, true, true => .macwM c w r k o
  | true, false, false => if we then .mulRSentinel w r k o else .mulR c w r k o
  | true, false, true => .mulwR c w r k o
  | true, true, false => if we then .macRSentinel w r k o else .macR c w r k o
  | true, true, true => .macwR c w r k o

/-- The combination of R86, whose coefficient byte would be 0xFF. -/
def unencodable (rsrc acc : Bool) (r : SrcIx) (k : CoefIx) : Bool := rsrc && acc && r == 3#2 && k == 15#4

theorem writes_of_we_eq_false {q : DecodeParams} {c : Ctrl} (h : q.we c = false) : q.writes c = false := by
  simp [DecodeParams.writes, h]

@[simp] theorem writes_nopSentinel (q : DecodeParams) : q.writes q.nopSentinel = false := by
  simp [DecodeParams.writes]

theorem we_of_writes {q : DecodeParams} {c : Ctrl} (h : q.writes c = true) : q.we c = true :=
  (Bool.and_eq_true _ _ ▸ h).1

/-- Write-enable without a memory write is the no-op sentinel (R74). -/
theorem eq_nopSentinel {q : DecodeParams} {c : Ctrl} (hwrites : q.writes c = false) (hwe : q.we c = true) :
    c = q.nopSentinel := by
  simpa [DecodeParams.writes, hwe] using hwrites

/-! ### The decoder -/

theorem toInstr_of_isNop {d : DecodedStep} (h : d.isNop = true) : d.toInstr = .nop d.offset := by
  rw [DecodedStep.toInstr, DecodedStep.classOf, h]
  rfl

theorem toInstr_of_tap {d : DecodedStep} (hnop : d.isNop = false) (hcoef : d.hasCoefficient = false) :
    d.toInstr = if d.memWrite then .wrt d.ctrl d.waddr d.offset
      else if d.readTap then .rdt d.ctrl d.waddr d.offset else .skip d.ctrl d.waddr d.offset := by
  rw [DecodedStep.toInstr, DecodedStep.classOf, hnop, hcoef]
  cases d.memWrite <;> cases d.readTap <;> rfl

theorem toInstr_of_coef {d : DecodedStep} (hnop : d.isNop = false) (hcoef : d.hasCoefficient = true) :
    d.toInstr = coefRow d.rsrc d.acc d.memWrite d.we d.ctrl d.waddr d.raddr d.coef d.offset := by
  rw [DecodedStep.toInstr, DecodedStep.classOf, hnop, hcoef]
  cases d.rsrc <;> cases d.acc <;> cases d.memWrite <;> rfl

theorem decodeStep_isNop (q : DecodeParams) (v : Word) :
    (decodeStep q v).isNop = (controlAllOnes v.ctrl v.waddr && v.coefByte == 255#8) := by
  rw [← controlByte_allOnes]
  rfl

theorem decodeStep_memWrite (q : DecodeParams) (v : Word) :
    (decodeStep q v).memWrite = (!(decodeStep q v).isNop && q.writes v.ctrl) :=
  Bool.and_assoc _ _ _

theorem decode_of_allOnes (q : DecodeParams) {v : Word} (h : v.coefByte = 255#8) :
    decode q v = tapRow q v.ctrl v.waddr v.offset := by
  have hnop : (decodeStep q v).isNop = controlAllOnes v.ctrl v.waddr := by rw [decodeStep_isNop, h]; simp
  have hcoef : (decodeStep q v).hasCoefficient = false := by simp [decodeStep, h]
  have hread : (decodeStep q v).readTap = (!(decodeStep q v).isNop && !(decodeStep q v).memWrite &&
    !(decodeStep q v).hasCoefficient && !q.routes v.ctrl) := rfl
  unfold decode tapRow
  cases hall : controlAllOnes v.ctrl v.waddr with
  | true => exact toInstr_of_isNop (hnop.trans hall)
  | false =>
    rw [toInstr_of_tap (hnop.trans hall) hcoef, hread, decodeStep_memWrite, hnop, hall, hcoef]
    cases q.writes v.ctrl <;> cases q.routes v.ctrl <;> rfl

theorem decode_of_ne_allOnes (q : DecodeParams) {v : Word} (h : v.coefByte ≠ 255#8) :
    decode q v = coefRow (q.layout.rsrcOf v.coefByte) (q.layout.accOf v.coefByte) (q.writes v.ctrl) (q.we v.ctrl) v.ctrl v.waddr
      (q.layout.raddrOf v.coefByte) (q.layout.coefOf v.coefByte) v.offset := by
  have hnop : (decodeStep q v).isNop = false := by simp [decodeStep_isNop, h]
  have hcoef : (decodeStep q v).hasCoefficient = true := by simp [decodeStep, h]
  rw [decode, toInstr_of_coef hnop hcoef, decodeStep_memWrite, hnop]
  rfl

/-! ### Encoding and well-formedness of the rows -/

theorem encode_tapRow (q : DecodeParams) (c : Ctrl) (w : RegIx) (o : Offset) :
    encode q (tapRow q c w o) = joinWord c w 255#8 o := by
  unfold tapRow
  split
  next hall =>
    obtain ⟨rfl, rfl⟩ : c = 31#5 ∧ w = 7#3 := by simpa [controlAllOnes] using hall
    rfl
  next => split <;> [skip; split] <;> rfl

theorem wellFormed_tapRow (q : DecodeParams) (c : Ctrl) (w : RegIx) (o : Offset) : (tapRow q c w o).wellFormed q = true := by
  unfold tapRow
  cases hall : controlAllOnes c w <;> cases hwrites : q.writes c <;> cases hroutes : q.routes c <;>
    simp [Instr.wellFormed, hall, hwrites, hroutes]

theorem encode_coefRow (q : DecodeParams) (rsrc acc : Bool) (c : Ctrl) (w : RegIx) (r : SrcIx) (k : CoefIx) (o : Offset) :
    encode q (coefRow rsrc acc (q.writes c) (q.we c) c w r k o) = joinWord c w (q.layout.pack k acc r rsrc) o := by
  cases hwrites : q.writes c with
  | true => cases rsrc <;> cases acc <;> rfl
  | false =>
    cases hwe : q.we c with
    | true => rw [eq_nopSentinel hwrites hwe]; cases rsrc <;> cases acc <;> rfl
    | false => cases rsrc <;> cases acc <;> rfl

/-- An instruction with a coefficient is well-formed exactly when its control field is one of its row's and its other fields are not
the combination of R86. -/
theorem wellFormed_coefRow (q : DecodeParams) (rsrc acc wb we : Bool) (c : Ctrl) (w : RegIx) (r : SrcIx) (k : CoefIx)
    (o : Offset) : (coefRow rsrc acc wb we c w r k o).wellFormed q =
      ((if wb then q.writes c else if we then q.we q.nopSentinel else !q.we c) && !unencodable rsrc acc r k) := by
  cases rsrc <;> cases acc <;> cases wb <;> cases we <;> simp [coefRow, Instr.wellFormed, unencodable]

theorem wellFormed_coefRow_self (q : DecodeParams) (rsrc acc : Bool) (c : Ctrl) (w : RegIx) (r : SrcIx) (k : CoefIx) (o : Offset) :
    (coefRow rsrc acc (q.writes c) (q.we c) c w r k o).wellFormed q = !unencodable rsrc acc r k := by
  rw [wellFormed_coefRow]
  cases hwrites : q.writes c with
  | true => rfl
  | false =>
    cases hwe : q.we c with
    | true => rw [← eq_nopSentinel hwrites hwe, hwe]; rfl
    | false => rfl

/-- A well-formed instruction without a coefficient, or with one, is the row of its fields. -/
theorem eq_row_of_wellFormed {q : DecodeParams} {i : Instr} (h : i.wellFormed q = true) :
    (∃ c w o, i = tapRow q c w o) ∨
      ∃ rsrc acc c w r k o, unencodable rsrc acc r k = false ∧ i = coefRow rsrc acc (q.writes c) (q.we c) c w r k o := by
  cases i <;> simp only [Instr.wellFormed, Bool.and_eq_true, Bool.not_eq_true'] at h
  case nop o => exact .inl ⟨31#5, 7#3, o, rfl⟩
  case skip c w o => exact .inl ⟨c, w, o, by simp [tapRow, h]⟩
  case wrt c w o => exact .inl ⟨c, w, o, by simp [tapRow, h]⟩
  case rdt c w o => exact .inl ⟨c, w, o, by simp [tapRow, h]⟩
  case mulM c w r k o => exact .inr ⟨false, false, c, w, r, k, o, rfl, by simp [coefRow, h, writes_of_we_eq_false]⟩
  case macM c w r k o => exact .inr ⟨false, true, c, w, r, k, o, rfl, by simp [coefRow, h, writes_of_we_eq_false]⟩
  case mulR c w r k o => exact .inr ⟨true, false, c, w, r, k, o, rfl, by simp [coefRow, h, writes_of_we_eq_false]⟩
  case macR c w r k o => exact .inr ⟨true, true, c, w, r, k, o, h.2, by simp [coefRow, h, writes_of_we_eq_false]⟩
  case mulMSentinel w r k o => exact .inr ⟨false, false, q.nopSentinel, w, r, k, o, rfl, by simp [coefRow, h]⟩
  case macMSentinel w r k o => exact .inr ⟨false, true, q.nopSentinel, w, r, k, o, rfl, by simp [coefRow, h]⟩
  case mulRSentinel w r k o => exact .inr ⟨true, false, q.nopSentinel, w, r, k, o, rfl, by simp [coefRow, h]⟩
  case macRSentinel w r k o => exact .inr ⟨true, true, q.nopSentinel, w, r, k, o, h.2, by simp [coefRow, h]⟩
  case mulwM c w r k o => exact .inr ⟨false, false, c, w, r, k, o, rfl, by simp [coefRow, h]⟩
  case macwM c w r k o => exact .inr ⟨false, true, c, w, r, k, o, rfl, by simp [coefRow, h]⟩
  case mulwR c w r k o => exact .inr ⟨true, false, c, w, r, k, o, rfl, by simp [coefRow, h]⟩
  case macwR c w r k o => exact .inr ⟨true, true, c, w, r, k, o, h.2, by simp [coefRow, h]⟩

/-! ### The round trips -/

/-- The coefficient byte of fields that are not the combination of R86 is not 0xFF. -/
theorem pack_ne_allOnes {l : Byte2Layout} (hl : l.valid = true) {rsrc acc : Bool} {r : SrcIx} {k : CoefIx}
    (h : unencodable rsrc acc r k = false) : l.pack k acc r rsrc ≠ 255#8 := by
  rw [Ne, Byte2Layout.pack_eq_allOnes hl]
  rintro ⟨rfl, rfl, rfl, rfl⟩
  exact absurd h (by decide)

/-- The fields of a coefficient byte other than 0xFF are not the combination of R86. -/
theorem unencodable_of_ne_allOnes {l : Byte2Layout} (hl : l.valid = true) {b : BitVec 8} (h : b ≠ 255#8) :
    unencodable (l.rsrcOf b) (l.accOf b) (l.raddrOf b) (l.coefOf b) = false := by
  rw [← Byte2Layout.pack_fields hl b, Ne, Byte2Layout.pack_eq_allOnes hl] at h
  rw [Bool.eq_false_iff]
  intro hun
  simp only [unencodable, Bool.and_eq_true, beq_iff_eq] at hun
  tauto

/-- Settles O1: a well-formed instruction is the row of its fields, its word has those fields, and the decoder answers the row of
the fields it reads. -/
theorem decodeOfEncodeIsIdentity : Obligations.DecodeOfEncodeIsIdentity := by
  intro q i hl hwf
  rcases eq_row_of_wellFormed hwf with ⟨c, w, o, rfl⟩ | ⟨rsrc, acc, c, w, r, k, o, hun, rfl⟩
  · rw [encode_tapRow, decode_of_allOnes q (joinWord_coefByte c w _ o), joinWord_ctrl, joinWord_waddr, joinWord_offset]
  · have hbyte := joinWord_coefByte c w (q.layout.pack k acc r rsrc) o
    rw [encode_coefRow, decode_of_ne_allOnes q (by rw [hbyte]; exact pack_ne_allOnes hl hun), hbyte, joinWord_ctrl, joinWord_waddr,
      joinWord_offset, Byte2Layout.rsrcOf_pack hl, Byte2Layout.accOf_pack hl, Byte2Layout.raddrOf_pack hl, Byte2Layout.coefOf_pack hl]

/-- Settles O2: a word is the join of its fields, and the row the decoder answers encodes to it. -/
theorem encodeOfDecodeIsIdentity : Obligations.EncodeOfDecodeIsIdentity := by
  intro q v hl
  by_cases hbyte : v.coefByte = 255#8
  · rw [decode_of_allOnes q hbyte, encode_tapRow, ← hbyte, joinWord_fields]
    exact ⟨wellFormed_tapRow q _ _ _, rfl⟩
  · rw [decode_of_ne_allOnes q hbyte, wellFormed_coefRow_self, unencodable_of_ne_allOnes hl hbyte, encode_coefRow,
      Byte2Layout.pack_fields hl, joinWord_fields]
    exact ⟨rfl, rfl⟩

/-! ### All ones -/

theorem coefByte_eq_allOnes_iff (v : Word) : v.coefByte = 255#8 ↔ v.toNat / 2 ^ 16 % 256 = 255 := by
  rw [← BitVec.toNat_inj, toNat_coefByte]
  rfl

theorem controlByte_eq_allOnes_iff (v : Word) : v.controlByte = 255#8 ↔ v.toNat / 2 ^ 24 = 255 := by
  rw [← BitVec.toNat_inj, toNat_controlByte]
  rfl

theorem hasCoefficient_iff (q : DecodeParams) (v : Word) : (decodeStep q v).hasCoefficient = true ↔ v.coefByte ≠ 255#8 := bne_iff_ne

theorem isNop_iff (q : DecodeParams) (v : Word) :
    (decodeStep q v).isNop = true ↔ v.controlByte = 255#8 ∧ v.coefByte = 255#8 := by
  rw [show (decodeStep q v).isNop = (v.controlByte == 255#8 && v.coefByte == 255#8) from rfl, Bool.and_eq_true, beq_iff_eq, beq_iff_eq]

theorem offset_eq_ofNat (v : Word) : v.offset = BitVec.ofNat 16 v.toNat :=
  BitVec.eq_of_toNat_eq (by rw [toNat_offset, BitVec.toNat_ofNat])

/-- Settles O4: the two flags are comparisons of the bytes with 0xFF. -/
theorem allOnesConventions : Obligations.AllOnesConventions := by
  refine fun q v => ⟨?_, ?_, fun hnop => ?_⟩
  · rw [hasCoefficient_iff, Ne, coefByte_eq_allOnes_iff]
  · rw [isNop_iff, controlByte_eq_allOnes_iff, coefByte_eq_allOnes_iff]
  · rw [← offset_eq_ofNat]
    exact toInstr_of_isNop hnop

/-! ### The table of R85 -/

/-- A mask compares a word group by group. -/
theorem masked_eq_iff (v m b : Word) : v &&& m = b ↔
    v.ctrl &&& m.ctrl = b.ctrl ∧ v.waddr &&& m.waddr = b.waddr ∧ v.coefByte &&& m.coefByte = b.coefByte ∧
      v.offset &&& m.offset = b.offset := by
  simp only [Word.ctrl, Word.waddr, Word.coefByte, Word.offset, ← BitVec.extractLsb'_and]
  refine ⟨fun h => by simp only [h, and_self], fun ⟨hc, hw, hb, ho⟩ => ?_⟩
  rw [← joinWord_fields (v &&& m), ← joinWord_fields b]
  exact congr (congr (congr (congrArg joinWord hc) hw) hb) ho

theorem hits_iff (row : TableRow) (v : Word) :
    row.hits v = true ↔ v &&& row.mask = row.bits ∧ ∀ e ∈ row.exclude, v &&& e.1 ≠ e.2 := by
  simp [TableRow.hits]

/-- The table's masks leave of a control field whether it is the sentinel, and write-enable. -/
theorem ctrl_masked (c : Ctrl) : let q := DecodeParams.default
    (c &&& 31#5 = 31#5 ↔ q.we c = true ∧ q.writes c = false) ∧ (c &&& 1#5 = 1#5 ↔ q.we c = true) ∧
      (c &&& 1#5 = 0#5 ↔ q.we c = false) := by
  revert c
  decide

theorem waddr_masked (w : RegIx) : w &&& 7#3 = 7#3 ↔ (w == 7#3) = true := by
  rw [show w &&& 7#3 = w from BitVec.and_allOnes, beq_iff_eq]

/-- They leave of a coefficient byte whether it is 0xFF, and the source and accumulate bits. -/
theorem coefByte_masked (b : BitVec 8) : let l := DecodeParams.default.layout
    (b &&& 0xFF#8 = 0xFF#8 ↔ (b == 0xFF#8) = true) ∧
    (b &&& 0x90#8 = 0x00#8 ↔ l.rsrcOf b = false ∧ l.accOf b = false) ∧
    (b &&& 0x90#8 = 0x10#8 ↔ l.rsrcOf b = false ∧ l.accOf b = true) ∧
    (b &&& 0x90#8 = 0x80#8 ↔ l.rsrcOf b = true ∧ l.accOf b = false) ∧
    (b &&& 0x90#8 = 0x90#8 ↔ l.rsrcOf b = true ∧ l.accOf b = true) := by
  revert b
  decide

/-- The class and the form of a word, from what the table's masks leave of it: whether the control field writes (`wb`) or has
write-enable set (`we`), whether the write address is 7 and the coefficient byte 0xFF (`ones`), and the byte's source and
accumulate bits. -/
def maskedRow (wb we addr7 ones rsrc acc : Bool) : StepClass × Bool :=
  if ones then (if wb then .wrt else if !we then .rdt else if addr7 then .nop else .skip, false)
  else
    (match rsrc, acc, wb with
      | false, false, false => .mulM
      | false, false, true => .mulwM
      | false, true, false => .macM
      | false, true, true => .macwM
      | true, false, false => .mulR
      | true, false, true => .mulwR
      | true, true, false => .macR
      | true, true, true => .macwR, we && !wb)

theorem row_tapRow (c : Ctrl) (w : RegIx) (o : Offset) : let q := DecodeParams.default
    ∀ rsrc acc, (tapRow q c w o).row = maskedRow (q.writes c) (q.we c) (w == 7#3) true rsrc acc := by
  intro q _ _
  have hfields : controlAllOnes c w = (q.we c && !q.writes c && w == 7#3) ∧ q.routes c = (q.we c && !q.writes c) ∧
      (q.writes c = true → q.we c = true) := by
    revert c w
    decide
  obtain ⟨hall, hroutes, hwe⟩ := hfields
  rw [tapRow, hall, hroutes]
  cases hwrites : q.writes c with
  | true => rw [hwe hwrites]; rfl
  | false => cases q.we c <;> cases w == 7#3 <;> rfl

theorem row_coefRow (rsrc acc wb we addr7 : Bool) (c : Ctrl) (w : RegIx) (r : SrcIx) (k : CoefIx) (o : Offset) :
    (coefRow rsrc acc wb we c w r k o).row = maskedRow wb we addr7 false rsrc acc := by
  cases rsrc <;> cases acc <;> cases wb <;> cases we <;> rfl

theorem row_decode (v : Word) : let q := DecodeParams.default
    (decode q v).row = maskedRow (q.writes v.ctrl) (q.we v.ctrl) (v.waddr == 7#3) (v.coefByte == 255#8)
      (q.layout.rsrcOf v.coefByte) (q.layout.accOf v.coefByte) := by
  intro q
  by_cases hbyte : v.coefByte = 255#8
  · rw [decode_of_allOnes q hbyte, beq_iff_eq.2 hbyte]
    exact row_tapRow _ _ _ _ _
  · rw [decode_of_ne_allOnes q hbyte, beq_eq_false_iff_ne.2 hbyte]
    exact row_coefRow _ _ _ _ _ _ _ _ _ _

/-- A word matches the row of its class and form and no other: each row's masks, group by group, and then all values of what they
leave. A coefficient byte of 0xFF has both bits set, and a control field that writes has write-enable set. -/
theorem hits_iff_row (v : Word) : ∀ row ∈ tableRows,
    row.hits v = true ↔ (row.cls, row.sentinel) = (decode DecodeParams.default v).row := by
  rw [row_decode]
  have hwe : DecodeParams.default.writes v.ctrl = true → DecodeParams.default.we v.ctrl = true := we_of_writes
  have hones : (v.coefByte == 255#8) = true →
      DecodeParams.default.layout.rsrcOf v.coefByte = true ∧ DecodeParams.default.layout.accOf v.coefByte = true := by
    rw [beq_iff_eq]
    intro h
    rw [h]
    decide
  simp only [tableRows, List.forall_mem_cons, hits_iff, masked_eq_iff, ne_eq]
  generalize v.ctrl = c, v.waddr = w, v.coefByte = b, v.offset = o at *
  simp only [Word.ctrl, Word.waddr, Word.coefByte, Word.offset, BitVec.reduceExtractLsb', BitVec.and_zero,
    ctrl_masked, waddr_masked, coefByte_masked, List.not_mem_nil, false_implies, implies_true, and_true, true_and]
  generalize DecodeParams.default.writes c = wb, DecodeParams.default.we c = we, (w == 7#3) = addr7, (b == 255#8) = ones,
    DecodeParams.default.layout.rsrcOf b = rsrc, DecodeParams.default.layout.accOf b = acc at *
  repeat' apply And.intro
  all_goals
    revert wb we addr7 ones rsrc acc
    decide

theorem tableRows_injective : ∀ row ∈ tableRows, ∀ other ∈ tableRows,
    (other.cls, other.sentinel) = (row.cls, row.sentinel) → other = row := by decide

theorem exists_maskedRow : ∀ wb we addr7 ones rsrc acc,
    ∃ row ∈ tableRows, (row.cls, row.sentinel) = maskedRow wb we addr7 ones rsrc acc := by decide

/-- Settles O3: the row of the decoded instruction matches, and rows of one class and form are one row. -/
theorem everyWordMatchesOneTableRow : Obligations.EveryWordMatchesOneTableRow := by
  intro v
  obtain ⟨row, hmem, hrow⟩ := exists_maskedRow (DecodeParams.default.writes v.ctrl) (DecodeParams.default.we v.ctrl)
    (v.waddr == 7#3) (v.coefByte == 255#8) (DecodeParams.default.layout.rsrcOf v.coefByte)
    (DecodeParams.default.layout.accOf v.coefByte)
  rw [← row_decode] at hrow
  refine ⟨row, hmem, (hits_iff_row v row hmem).2 hrow, fun other hother hhits => ?_, hrow⟩
  exact tableRows_injective row hmem other hother (((hits_iff_row v other hother).1 hhits).trans hrow.symm)

/-! ### The assembler -/

theorem asmField_of_lt {n v : Nat} (h : v < 2 ^ n) (e : AsmError) : asmField n v e = .ok (BitVec.ofNat n v) := if_pos h

@[simp] theorem asmField_toNat {n : Nat} (v : BitVec n) (e : AsmError) : asmField n v.toNat e = .ok v := by
  rw [asmField_of_lt v.isLt, BitVec.ofNat_toNat, BitVec.setWidth_eq]

@[simp] theorem asmSuffix_getD (v dflt : Nat) : (asmSuffix v dflt).getD dflt = v := by
  unfold asmSuffix
  split
  next h => exact h.symm
  next => rfl

@[simp] theorem except_ok_bind {ε α β : Type} (a : α) (f : α → Except ε β) : (Except.ok a >>= f) = f a := rfl

theorem assemble_of_toInstr {l : AsmLine} {i : Instr} (h : l.toInstr = .ok i) (hwf : i.wellFormed DecodeParams.default = true) :
    l.assemble = .ok (encode DecodeParams.default i) := by
  rw [AsmLine.assemble, h]
  exact if_pos hwf

theorem toInstr_asmMem (acc wb : Bool) (c : Ctrl) (w : RegIx) (r : SrcIx) (k : CoefIx) (o : Offset) :
    (asmMem acc wb c w r k o).toInstr = .ok (coefInstr false acc wb c w r k o) := by
  simp [AsmLine.toInstr, asmMem, asmLine, pure, Except.pure]

theorem toInstr_asmReg (acc : Bool) (c : Ctrl) (w : RegIx) (r : SrcIx) (k : CoefIx) (o : Offset) :
    (asmReg acc c w r k o).toInstr = .ok (coefInstr true acc false c w r k o) := by
  simp [AsmLine.toInstr, asmReg, asmLine, asmField_of_lt, pure, Except.pure]

theorem toInstr_asmRegw (acc : Bool) (c : Ctrl) (w : RegIx) (r : SrcIx) (k : CoefIx) (o : Offset) :
    (asmRegw acc c w r k o).toInstr = .ok (coefInstr true acc true c w r k o) := by
  simp [AsmLine.toInstr, asmRegw, asmLine, asmField_of_lt, pure, Except.pure]

theorem ne_sentinel_of_we {c : Ctrl} (h : DecodeParams.default.we c = false) : c ≠ 31#5 := by
  rintro rfl
  exact absurd h (by decide)

/-- The line of a well-formed instruction stands for that instruction. A we0 form has no control value of a sentinel form. -/
theorem toInstr_disassemble {i : Instr} (h : i.wellFormed DecodeParams.default = true) : (disassemble i).toInstr = .ok i := by
  cases i <;> simp only [Instr.wellFormed, Bool.and_eq_true, Bool.not_eq_true'] at h
  case nop o =>
    simp [disassemble, AsmLine.toInstr, AsmOp.canonicalCtrl, asmField_of_lt, pure, Except.pure]
  case skip c w o =>
    simp [disassemble, AsmLine.toInstr, asmLine, asmField_of_lt, pure, Except.pure]
  case wrt c w o =>
    simp [disassemble, AsmLine.toInstr, asmLine, asmField_of_lt, pure, Except.pure]
  case rdt c w o =>
    simp [disassemble, AsmLine.toInstr, asmLine, asmField_of_lt, pure, Except.pure]
  case mulM => exact (toInstr_asmMem ..).trans (congrArg Except.ok (if_neg (ne_sentinel_of_we h)))
  case macM => exact (toInstr_asmMem ..).trans (congrArg Except.ok (if_neg (ne_sentinel_of_we h)))
  case mulR => exact (toInstr_asmReg ..).trans (congrArg Except.ok (if_neg (ne_sentinel_of_we h)))
  case macR => exact (toInstr_asmReg ..).trans (congrArg Except.ok (if_neg (ne_sentinel_of_we h.1)))
  case mulMSentinel | macMSentinel | mulwM | macwM => exact toInstr_asmMem ..
  case mulRSentinel | macRSentinel => exact toInstr_asmReg ..
  case mulwR | macwR => exact toInstr_asmRegw ..

/-- Settles O6: the line of the instruction stands for the instruction, which is well-formed. -/
theorem disassemblyIsLossless : Obligations.DisassemblyIsLossless :=
  fun _ hwf => assemble_of_toInstr (toInstr_disassemble hwf) hwf

/-! ### What the assembler rejects -/

/-- An assembled line stands for a well-formed instruction. -/
theorem toInstr_of_assemble {l : AsmLine} {v : Word} (h : l.assemble = .ok v) :
    ∃ i, l.toInstr = .ok i ∧ i.wellFormed DecodeParams.default = true := by
  rw [AsmLine.assemble] at h
  cases hi : l.toInstr with
  | error e => rw [hi] at h; cases h
  | ok i =>
    refine ⟨i, rfl, ?_⟩
    by_contra hwf
    rw [hi] at h
    cases h.symm.trans (if_neg hwf)

theorem asmField_eq_ok {n v : Nat} {e : AsmError} {x : BitVec n} (h : asmField n v e = .ok x) :
    v < 2 ^ n ∧ x = BitVec.ofNat n v := by
  unfold asmField at h
  split at h
  next hv => exact ⟨hv, (Except.ok.inj h).symm⟩
  next => cases h

/-- A computation that may fail answers where both of its parts do. -/
theorem except_bind_eq_ok {ε α β : Type} {x : Except ε α} {f : α → Except ε β} {b : β} :
    x >>= f = .ok b ↔ ∃ a, x = .ok a ∧ f a = .ok b := by
  cases x <;> simp [bind, Except.bind]

/-- The instruction is one that a line of these operands with control field `c` can stand for. -/
def StandsFor (c : Ctrl) (i : Instr) : AsmOp → Prop
  | .nop _ => c = 31#5
  | .skip _ _ => ∃ w o, i = .skip c w o
  | .rdt _ _ => ∃ w o, i = .rdt c w o
  | .wrt _ _ => ∃ w o, i = .wrt c w o
  | .mem acc wb _ _ _ => ∃ w r k o, i = coefInstr false acc wb c w r k o
  | .reg acc _ r k _ => ∃ w o, i = coefInstr true acc false c w (BitVec.ofNat 2 r) (BitVec.ofNat 4 k) o
  | .regw acc _ r k _ => ∃ w o, i = coefInstr true acc true c w (BitVec.ofNat 2 r) (BitVec.ofNat 4 k) o

/-- All an accepted line can stand for: its control field is the suffix, or the canonical value of its class. -/
theorem standsFor_of_toInstr {l : AsmLine} {i : Instr} (h : l.toInstr = .ok i) :
    ∃ c, asmField 5 (l.ctrl.getD l.op.canonicalCtrl) .control = .ok c ∧ StandsFor c i l.op := by
  unfold AsmLine.toInstr at h
  simp only [except_bind_eq_ok, pure, Except.pure] at h
  obtain ⟨c, hc, ra, -, h⟩ := h
  refine ⟨c, hc, ?_⟩
  cases hop : l.op <;> rw [hop] at h <;> simp only [except_bind_eq_ok, Except.ok.injEq] at h
  case nop =>
    obtain ⟨o, -, h⟩ := h
    by_contra hne
    cases (if_neg hne).symm.trans h
  case skip | rdt | wrt =>
    obtain ⟨w, -, o, -, rfl⟩ := h
    exact ⟨w, o, rfl⟩
  case mem =>
    obtain ⟨w, -, k, -, o, -, rfl⟩ := h
    exact ⟨w, ra, k, o, rfl⟩
  case reg | regw =>
    obtain ⟨w, -, r, hr, k, hk, o, -, rfl⟩ := h
    rw [(asmField_eq_ok hr).2, (asmField_eq_ok hk).2]
    exact ⟨w, o, rfl⟩

theorem coefInstr_eq_coefRow (rsrc acc wb : Bool) (c : Ctrl) (w : RegIx) (r : SrcIx) (k : CoefIx) (o : Offset) :
    coefInstr rsrc acc wb c w r k o = coefRow rsrc acc wb (c == 31#5) c w r k o := by
  cases rsrc <;> cases acc <;> cases wb <;> simp [coefInstr, coefRow]

/-- A coefficient instruction that is well-formed writes exactly where its class does, and is not the combination of R86. -/
theorem wellFormed_coefInstr {rsrc acc wb : Bool} {c : Ctrl} {w : RegIx} {r : SrcIx} {k : CoefIx} {o : Offset}
    (h : (coefInstr rsrc acc wb c w r k o).wellFormed DecodeParams.default = true) :
    DecodeParams.default.writes c = wb ∧ unencodable rsrc acc r k = false := by
  rw [coefInstr_eq_coefRow, wellFormed_coefRow, Bool.and_eq_true, Bool.not_eq_true'] at h
  refine ⟨?_, h.2⟩
  cases wb with
  | true => exact h.1
  | false =>
    by_cases hc : c = 31#5
    · rw [hc]
      rfl
    · exact writes_of_we_eq_false (by simpa [hc] using h.1)

theorem writes_of_standsFor {op : AsmOp} {c : Ctrl} {i : Instr} (h : StandsFor c i op)
    (hwf : i.wellFormed DecodeParams.default = true) : DecodeParams.default.writes c = true ↔ op.canonicalCtrl = 1 := by
  cases op
  case nop =>
    rw [show c = 31#5 from h]
    exact iff_of_false (by decide) (by simp [AsmOp.canonicalCtrl])
  case skip | rdt =>
    obtain ⟨w, o, rfl⟩ := h
    simp only [Instr.wellFormed, Bool.and_eq_true, Bool.not_eq_true'] at hwf
    simp [hwf, AsmOp.canonicalCtrl]
  case wrt =>
    obtain ⟨w, o, rfl⟩ := h
    simp only [Instr.wellFormed, Bool.and_eq_true, Bool.not_eq_true'] at hwf
    simp [hwf, AsmOp.canonicalCtrl]
  case mem acc wb _ _ _ =>
    obtain ⟨w, r, k, o, rfl⟩ := h
    rw [(wellFormed_coefInstr hwf).1]
    cases wb <;> simp [AsmOp.canonicalCtrl]
  case reg | regw =>
    obtain ⟨w, o, rfl⟩ := h
    rw [(wellFormed_coefInstr hwf).1]
    simp [AsmOp.canonicalCtrl]

theorem writes_ofNat {n : Nat} (h : n < 32) : DecodeParams.default.writes (BitVec.ofNat 5 n) = true ↔ n % 2 = 1 ∧ n ≠ 31 := by
  revert n
  decide

/-- A line that assembles has a control value that writes memory exactly where its class does. -/
theorem ctrl_of_assemble {l : AsmLine} {v : Word} (h : l.assemble = .ok v) : let n := l.ctrl.getD l.op.canonicalCtrl
    n % 2 = 1 ∧ n ≠ 31 ↔ l.op.canonicalCtrl = 1 := by
  obtain ⟨i, hi, hwf⟩ := toInstr_of_assemble h
  obtain ⟨c, hc, hstands⟩ := standsFor_of_toInstr hi
  obtain ⟨hlt, rfl⟩ := asmField_eq_ok hc
  rw [← writes_of_standsFor hstands hwf, writes_ofNat hlt]

/-- Settles O7: a line that assembles stands for a well-formed instruction, which is not the combination of R86 and has a control
value of its class. -/
theorem assemblerRejectsUnencodable : Obligations.AssemblerRejectsUnencodable := by
  refine ⟨fun w off o c r v => ⟨fun h => ?_, fun h => ?_⟩, fun op n r v => ⟨fun hop hn h => ?_, fun hop hne hodd h => ?_⟩⟩
  · obtain ⟨i, hi, hwf⟩ := toInstr_of_assemble h
    obtain ⟨_, _, _, _, rfl⟩ := standsFor_of_toInstr hi
    exact absurd (wellFormed_coefInstr hwf).2 (by decide)
  · obtain ⟨i, hi, hwf⟩ := toInstr_of_assemble h
    obtain ⟨_, _, _, _, rfl⟩ := standsFor_of_toInstr hi
    exact absurd (wellFormed_coefInstr hwf).2 (by decide)
  · have hwrites : n % 2 = 1 ∧ n ≠ 31 := (ctrl_of_assemble h).2 hop
    omega
  · exact hop ((ctrl_of_assemble h).1 ⟨hodd, hne⟩)

/-! ### What Construct refuses -/

/-- The refusal of the parameters names one of the conditions on them alone, which fails. -/
theorem violates_of_paramsRefusal {p : Params} {r : Refusal} (fs : Sample) (h : paramsRefusal p = some r) :
    r ∈ parameterRefusals ∧ Violates p fs r := by
  have hmem := mem_of_firstHit h
  simp only [List.mem_cons, Prod.mk.injEq, List.not_mem_nil, or_false, eq_comm (a := true), Bool.not_eq_true',
    ← Bool.not_eq_true] at hmem
  rcases hmem with ⟨hfail, rfl⟩ | ⟨hfail, rfl⟩ | ⟨hfail, rfl⟩ | ⟨hfail, rfl⟩ | ⟨hfail, rfl⟩ | ⟨hfail, rfl⟩ | ⟨hfail, rfl⟩
  · exact ⟨by decide, by rwa [outStepsCheck_iff] at hfail⟩
  · exact ⟨by decide, Bool.eq_false_iff.2 hfail⟩
  · exact ⟨by decide, by rwa [positive, Bool.and_eq_true] at hfail⟩
  · exact ⟨by decide, by rwa [positive, Bool.and_eq_true] at hfail⟩
  · exact ⟨by decide, by rwa [Bool.and_eq_true, Bool.and_eq_true, Bool.and_eq_true, and_assoc, and_assoc] at hfail⟩
  · exact ⟨by decide, mt (notNonnegative_eq_false_iff _).2 (by rw [hfail]; decide)⟩
  · exact ⟨by decide, by rwa [Bool.and_eq_true] at hfail⟩

/-- The refusal of a configuration names one of the conditions that depend on the rate, which fails. -/
theorem violates_of_configRefusal {p : Params} {i : Fin 6} {fs : Sample} {r : Refusal}
    (h : configRefusal p (engineConfig p i fs) = some r) : r ∈ rateRefusals ∧ Violates p fs r := by
  have hmem := mem_of_firstHit h
  simp only [List.mem_cons, Prod.mk.injEq, List.not_mem_nil, or_false, eq_comm (a := true), Bool.not_eq_true',
    ← Bool.not_eq_true] at hmem
  rcases hmem with ⟨hfail, rfl⟩ | ⟨hfail, rfl⟩ | ⟨hfail, rfl⟩
  · exact ⟨by decide, by rwa [Bool.and_eq_true] at hfail⟩
  · rw [positive, Bool.and_eq_true, Bool.and_eq_true, Bool.and_eq_true] at hfail
    exact ⟨by decide, fun ⟨hf1, hf2, hpos, hlt⟩ => hfail ⟨⟨⟨hf1, hpos⟩, hf2⟩, hlt⟩⟩
  · exact ⟨by decide, beq_iff_eq.1 hfail⟩

theorem construct_of_paramsRefusal {s : State} {r : Refusal} (i : ProgramIndex) (fs : Sample)
    (h : paramsRefusal s.params = some r) : s.construct i fs = .refused r := by
  rw [State.construct, h]

theorem construct_of_constructCheck_error {s : State} {i : ProgramIndex} {fs : Sample} {f : Fault}
    (hparams : paramsRefusal s.params = none) (h : constructCheck i fs = .error f) : s.construct i fs = .fault f := by
  rw [State.construct, hparams, h]

theorem construct_of_configRefusal {s : State} {i : ProgramIndex} {fs : Sample} {p : Fin 6} {r : Refusal}
    (hparams : paramsRefusal s.params = none) (hcheck : constructCheck i fs = .ok p)
    (h : configRefusal s.params (engineConfig s.params p fs) = some r) : s.construct i fs = .refused r := by
  rw [State.construct, hparams, hcheck]
  simp only [h]

/-- The program index is the integer `z` (R180), as an integer or as a floating-point value equal to it. -/
def IsInteger (i : ProgramIndex) (z : Int) : Prop :=
  i = .int z ∨ ∃ v, i = .float v ∧ isFinite v = true ∧ units v = z * oneUnits

theorem integer_eq_some_iff (i : ProgramIndex) (z : Int) : i.integer = some z ↔ IsInteger i z := by
  cases i with
  | int n =>
    simp only [ProgramIndex.integer, IsInteger, Option.some.injEq, ProgramIndex.int.injEq, reduceCtorEq, false_and, exists_false,
      or_false]
  | float v =>
    simp only [ProgramIndex.integer, IsInteger, exactInt_eq_some_iff, reduceCtorEq, false_or, ProgramIndex.float.injEq,
      exists_eq_left']

/-- A program index names a program exactly when it is an integer in [0, 5]. -/
theorem exists_program_iff (i : ProgramIndex) : (∃ p, i.program = some p) ↔ ∃ z : Int, 0 ≤ z ∧ z ≤ 5 ∧ IsInteger i z := by
  simp only [ProgramIndex.program_eq_some_iff, integer_eq_some_iff]
  constructor
  · rintro ⟨p, hp⟩
    exact ⟨p.val, by omega, by omega, hp⟩
  · rintro ⟨z, h0, h5, hz⟩
    exact ⟨⟨z.toNat, by omega⟩, by rwa [Int.toNat_of_nonneg h0]⟩

theorem constructCheck_of_none {i : ProgramIndex} (fs : Sample) (h : i.program = none) :
    constructCheck i fs = .error (.programIndex i) := by
  rw [constructCheck, h]

theorem constructCheck_of_notPositive {i : ProgramIndex} {p : Fin 6} {fs : Sample} (h : i.program = some p)
    (hfs : notPositive fs = true) : constructCheck i fs = .error (.sampleRate fs) := by
  rw [constructCheck, h]
  exact if_pos hfs

theorem constructCheck_of_positive {i : ProgramIndex} {p : Fin 6} {fs : Sample} (h : i.program = some p)
    (hfs : notPositive fs = false) : constructCheck i fs = .ok p := by
  rw [constructCheck, h]
  exact if_neg (Bool.eq_false_iff.1 hfs)

/-- Settles O50: the checks in their order, each where those before it pass. -/
theorem constructPreconditions : Obligations.ConstructPreconditions := by
  intro s i fs rest hidle hcalls good rate
  have hgood : good ↔ ∃ p, i.program = some p := (exists_program_iff i).symm
  have hrate : rate ↔ notPositive fs = false := (notPositive_eq_false_iff fs).symm
  rw [step_call hidle hcalls, State.call, hgood, hrate]
  refine ⟨fun ⟨r, hr, hfail⟩ => ?_, fun hholds => ?_⟩
  · cases hrefusal : paramsRefusal s.params with
    | none => exact absurd hfail ((paramsRefusal_eq_none_iff s.params fs).1 hrefusal r hr)
    | some named =>
      obtain ⟨hnamed, hviolates⟩ := violates_of_paramsRefusal fs hrefusal
      exact ⟨named, hnamed, hviolates, construct_of_paramsRefusal i fs hrefusal⟩
  have hparams := (paramsRefusal_eq_none_iff s.params fs).2 hholds
  refine ⟨fun hnone => ?_, fun ⟨p, hp⟩ hneg => ?_, fun ⟨p, hp⟩ hpos ⟨r, hr, hfail⟩ => ?_, fun ⟨p, hp⟩ hpos hrateHolds => ?_⟩
  · have hprogram : i.program = none := Option.eq_none_iff_forall_ne_some.2 fun p hp => hnone ⟨p, hp⟩
    exact construct_of_constructCheck_error hparams (constructCheck_of_none fs hprogram)
  · rw [Bool.not_eq_false] at hneg
    exact construct_of_constructCheck_error hparams (constructCheck_of_notPositive hp hneg)
  · have hcheck := constructCheck_of_positive hp hpos
    cases hrefusal : configRefusal s.params (engineConfig s.params p fs) with
    | none => exact absurd hfail ((configRefusal_eq_none_iff s.params p fs).1 hrefusal r hr)
    | some named =>
      obtain ⟨hnamed, hviolates⟩ := violates_of_configRefusal hrefusal
      exact ⟨named, hnamed, hviolates, construct_of_configRefusal hparams hcheck hrefusal⟩
  · have hconfig := (configRefusal_eq_none_iff s.params p fs).2 hrateHolds
    exact ⟨_, construct_next_iff.2 ⟨hparams, p, constructCheck_of_positive hp hpos, hconfig, rfl⟩⟩

end Sys2Proof.Proofs
end

