-- ==== Sys2Proof/Proofs/StepCommon.lean ====
section
/-!
PROOFS. The statements about what every step does around its class-specific work (spec/40_step_common.md). First what a
step answers and the effective offset, then the soft limiter, then the bounds that every step keeps.
-/

namespace Sys2Proof.Proofs

open Sys2Proof Sys2Proof.Machine

/-! ### What an instruction and a step answer -/

/-- Settles O21: `exec_decode`, with the parameters of the state. -/
theorem meaningsRefineSpecExec : Obligations.MeaningsRefineSpecExec :=
  fun s w => exec_decode s.params.decode w s

/-- Settles O34: the instruction answers a state, and nothing after it stops. -/
theorem noStepOfAProgramStops : Obligations.NoStepOfAProgramStops := by
  intro s hrun
  obtain ⟨t, _, hnext⟩ := programStep_next s
  exact ⟨t.capture.advance, (step_running hrun).trans hnext⟩

/-- Settles O23: of what an instruction does, a load alone writes a register, and it clamps. -/
theorem registerWritesClamp : Obligations.RegisterWritesClamp := by
  intro s t w hexec
  obtain ⟨u, hu, hstore⟩ := exec_decode_shape s.params.decode w s
  have hreg (i : RegIx) : t.reg i = u.reg i := by
    rw [hexec] at hstore
    rcases hstore with heq | ⟨p, heq⟩ <;> cases heq
    · rfl
    · exact State.writeBack_reg u w.waddr p i
  simp only [hreg]
  rcases hu with rfl | ⟨v, rfl⟩
  · exact ⟨fun _ _ => rfl, .inl rfl⟩
  · exact ⟨fun i hi => State.reg_load_ne s hi v, .inr ⟨v, State.reg_load_self s w.waddr v⟩⟩

/-! ### The effective offset -/

/-- A long tap is moved by the LFO (R101, R102). -/
theorem scaledOffset_of_long {s : State} {off : Offset} (h : s.params.longThreshold.toNat < off.toNat) :
    s.scaledOffset off = fadd (fmul (ofNat off.toNat) s.cfg.scale) (fmul s.params.lfoDepth s.lfoValue) :=
  if_pos (decide_eq_true h)

/-- The offset of any other tap is scaled only (R100). -/
theorem scaledOffset_of_short {s : State} {off : Offset} (h : off.toNat ≤ s.params.longThreshold.toNat) :
    s.scaledOffset off = fmul (ofNat off.toNat) s.cfg.scale :=
  if_neg (by simpa [State.isLong] using h)

/-- Settles O25: neither the scaled offset of a short tap nor the rest of its read position reads `lfoValue`. -/
theorem lfoMovesOnlyLongTaps : Obligations.LfoMovesOnlyLongTaps := by
  refine fun s off => ⟨scaledOffset_of_long, fun hshort => ⟨scaledOffset_of_short hshort, fun v => ?_⟩⟩
  have hscaled : State.scaledOffset { s with lfoValue := v } off = s.scaledOffset off := by
    rw [scaledOffset_of_short hshort]
    exact scaledOffset_of_short hshort
  rw [State.readPos, State.readPos, State.effOffset, State.effOffset, hscaled]

theorem isFinite_fone : isFinite fone = true := by decide +kernel

/-- 1.0 is neutral. -/
theorem fmul_fone {a : Sample} (ha : isFinite a = true) : fmul a fone = a := by
  rw [fmul_finite ha isFinite_fone, magUnits_mag_fone, roundMag_exact ((isFinite_iff a).1 ha).le _ oneUnits_pos, isNeg_fone,
    Bool.bne_false, ofMag_mag]

/-- A multiple of the unit that rounding keeps is not changed by it. -/
theorem magUnits_roundMag_of_dvd {a : Nat} (hdvd : 2 ^ dropBits a ∣ a) (h : roundMag a 1 < infMag) :
    magUnits (roundMag a 1) = a := by
  rw [magUnits_roundMag Nat.one_pos h, Nat.div_one, Nat.one_mul]
  obtain ⟨q, hq⟩ := hdvd
  have hround := roundDiv_mul_self q (2 ^ dropBits a) (Nat.two_pow_pos _)
  rw [Nat.mul_comm, ← hq] at hround
  rw [hround, Nat.mul_comm, ← hq]

theorem dropBits_mul_two_pow_le {n : Nat} (hn : n < 2 ^ 53) (e : Nat) : dropBits (n * 2 ^ e) ≤ e := by
  rcases Nat.eq_zero_or_pos n with rfl | hpos
  · simp [dropBits]
  · have hlt : n * 2 ^ e < 2 ^ (53 + e) := by
      rw [pow_add]
      exact Nat.mul_lt_mul_of_pos_right hn (Nat.two_pow_pos e)
    have hlog := (Nat.log2_lt (Nat.mul_pos hpos (Nat.two_pow_pos e)).ne').2 hlt
    unfold dropBits
    omega

/-- Every integer below 2^53, a raw offset among them, is a Sample (R100). -/
theorem roundMag_integer {n : Nat} (hn : n < 2 ^ 53) :
    roundMag (n * oneUnits) 1 < infMag ∧ magUnits (roundMag (n * oneUnits) 1) = n * oneUnits := by
  have htop : roundMag (2 ^ 53 * oneUnits) 1 < infMag := by decide +kernel
  have hle : n * oneUnits * 1 ≤ 2 ^ 53 * oneUnits * 1 := Nat.mul_le_mul_right 1 (Nat.mul_le_mul_right oneUnits hn.le)
  have hlt := (roundMag_mono Nat.one_pos Nat.one_pos hle).trans_lt htop
  obtain ⟨e, he⟩ : ∃ e, oneUnits = 2 ^ e := ⟨1074, rfl⟩
  rw [he] at hlt ⊢
  have hdvd := Nat.pow_dvd_pow 2 (dropBits_mul_two_pow_le hn e)
  exact ⟨hlt, magUnits_roundMag_of_dvd (hdvd.mul_left n) hlt⟩

theorem ofNat_eq (n : Nat) : ofNat n = ofMag false (roundMag (n * oneUnits) 1) := by
  unfold ofNat ofRatio
  rfl

/-- Rounding a Sample that is an integer gives that integer back. -/
theorem roundHalfEven_ofNat {n : Nat} (hn : n < 2 ^ 53) : isFinite (ofNat n) = true ∧ roundHalfEven (ofNat n) = n := by
  obtain ⟨hlt, hunits⟩ := roundMag_integer hn
  have hmag : mag (ofNat n) = roundMag (n * oneUnits) 1 := by rw [ofNat_eq, mag_ofMag _ (roundMag_lt _ _)]
  have hneg : isNeg (ofNat n) = false := by rw [ofNat_eq, isNeg_ofMag _ (roundMag_lt _ _)]
  have hfin : isFinite (ofNat n) = true := (isFinite_iff _).2 (hmag ▸ hlt)
  refine ⟨hfin, ?_⟩
  rw [roundHalfEven_finite hfin, hneg, hmag, hunits, roundDiv_mul_self _ _ oneUnits_pos, signed_false]

/-- Settles O26: the product with 1.0 and the two roundings keep the raw offset. -/
theorem hardwareRateOffsetsAreExact : Obligations.HardwareRateOffsetsAreExact := by
  intro s off hscale hshort
  obtain ⟨hfin, hround⟩ := roundHalfEven_ofNat (off.isLt.trans (by norm_num : 2 ^ 16 < 2 ^ 53))
  rw [State.effOffset, scaledOffset_of_short hshort, hscale, fmul_fone hfin, hround]

/-! ### Sums, products and quotients of numbers -/

theorem isInf_of_not_finite {v : Sample} (hv : isNaN v = false) (h : isFinite v = false) : isInf v = true := by
  rw [not_isNaN_iff] at hv
  rw [← Bool.not_eq_true, isFinite_iff] at h
  rw [isInf, beq_iff_eq]
  omega

/-- What an invalid operation yields is a NaN: its exponent field and the highest bit of its fraction are all ones. -/
theorem isNaN_nanOf (op : NanOp) (a b : Sample) : isNaN (nanOf op a b) = true := by
  rw [isNaN_iff, mag, nanOf]
  generalize Config.nanBits op a b = p
  have hlow := (p.extractLsb' 0 51).isLt
  rw [BitVec.toNat_append, BitVec.toNat_append, ← Nat.shiftLeft_add_eq_or_of_lt hlow]
  rw [← Nat.shiftLeft_add_eq_or_of_lt (4095#12).isLt, Nat.shiftLeft_eq, Nat.shiftLeft_eq, infMag]
  have hquiet : (4095#12).toNat = 4095 := rfl
  omega

theorem isFinite_nanOf (op : NanOp) (a b : Sample) : isFinite (nanOf op a b) = false := by
  by_contra hfin
  cases (isNaN_nanOf op a b).symm.trans (isNaN_of_finite (Bool.of_not_eq_false hfin))

/-- A product with a first factor that is not finite is an infinity or a NaN. -/
theorem isFinite_fmul_of_not_finite {a b : Sample} (ha : isFinite a = false) : isFinite (fmul a b) = false := by
  have hinfMag (neg : Bool) : isFinite (ofMag neg infMag) = false := by simp [isFinite, mag_ofMag neg infMag_lt]
  rw [fmul]
  split
  · exact isFinite_nanOf ..
  · next hnumbers =>
    have hinf : isInf a = true := isInf_of_not_finite (by simp_all) ha
    rw [if_pos (by simp [hinf])]
    split
    · exact isFinite_nanOf ..
    · exact hinfMag _

theorem isNeg_of_ordKey_pos {v : Sample} (h : 0 < ordKey v) : isNeg v = false := by
  by_contra hneg
  rw [ordKey_eq_signed, Bool.of_not_eq_false hneg, signed_true] at h
  omega

theorem isZero_of_ordKey_pos {v : Sample} (h : 0 < ordKey v) : isZero v = false := by
  have hkey := mag_eq_natAbs_ordKey v
  rw [isZero, beq_eq_false_iff_ne]
  omega

/-- The smallest Sample above 0. -/
def leastPositive : Sample := 1#64

/-- A finite value below an infinite one does not move it. -/
theorem fadd_of_isInf {a b : Sample} (ha : isInf a = true) (hb : isFinite b = true) : fadd a b = a := by
  have hnan : isNaN a = false := by simp_all [isInf, isNaN]
  rw [fadd, if_neg (by simp [hnan, isNaN_of_finite hb]), if_pos ha, if_neg (by simp [isInf_of_finite hb])]

theorem units_nonneg_iff (v : Sample) : 0 ≤ units v ↔ 0 ≤ ordKey v := by
  have hzero : units fzero = 0 := by decide +kernel
  have hle := units_le_units_iff fzero v
  rwa [hzero, ordKey_fzero] at hle

/-- What is left of a number when a smaller finite value is taken off it is above 0: rounding keeps two values apart. -/
theorem fsub_pos {a b : Sample} (ha : isNaN a = false) (hb : isFinite b = true) (h : ordKey b < ordKey a) :
    isNaN (fsub a b) = false ∧ 0 < ordKey (fsub a b) := by
  have hnegb : isFinite (fneg b) = true := by rwa [isFinite_fneg]
  cases hfin : isFinite a with
  | true =>
    have hleast : isNaN leastPositive = false ∧ units leastPositive = 1 ∧ ordKey leastPositive = 1 := by decide +kernel
    obtain ⟨hnan, hunits, hkey⟩ := hleast
    have hlt : ¬units a ≤ units b := fun hle => absurd ((units_le_units_iff a b).1 hle) (by omega)
    have hge := le_ordKey_fadd hfin hnegb hnan (by rw [units_fneg]; omega)
    rw [fsub_finite hfin hb]
    exact ⟨isNaN_fadd hfin hnegb, by omega⟩
  | false =>
    have hsum := fadd_of_isInf (isInf_of_not_finite ha hfin) hnegb
    rw [fsub_of_not_isNaN (by rwa [hsum]), hsum]
    rw [isFinite_iff, mag_eq_natAbs_ordKey] at hb
    rw [← Bool.not_eq_true, isFinite_iff, mag_eq_natAbs_ordKey] at hfin
    exact ⟨ha, by omega⟩

/-- Adding what is not negative gives no less. -/
theorem ordKey_le_fadd {a b : Sample} (ha : isFinite a = true) (hb : isFinite b = true) (h0 : 0 ≤ ordKey b) :
    ordKey a ≤ ordKey (fadd a b) := by
  rw [← units_nonneg_iff] at h0
  exact le_ordKey_fadd ha hb (isNaN_of_finite ha) (by omega)

/-- A sum grows with its second term. -/
theorem ordKey_fadd_mono {a b c : Sample} (ha : isFinite a = true) (hb : isFinite b = true) (hc : isFinite c = true)
    (h : ordKey b ≤ ordKey c) : ordKey (fadd a b) ≤ ordKey (fadd a c) := by
  rw [← units_le_units_iff] at h
  rw [ordKey_fadd ha hb, ordKey_fadd ha hc]
  exact roundKey_mono (by omega)

/-- Taking off what is not negative gives no more. -/
theorem ordKey_fsub_le {a b : Sample} (ha : isFinite a = true) (hb : isFinite b = true) (h0 : 0 ≤ ordKey b) :
    ordKey (fsub a b) ≤ ordKey a := by
  rw [← units_nonneg_iff] at h0
  rw [fsub_finite ha hb]
  exact ordKey_fadd_le ha (by rwa [isFinite_fneg]) (isNaN_of_finite ha) (by rw [units_fneg]; omega)

/-- A quotient of a number by a finite value other than 0 is a number with the sign by the rule of signs. -/
theorem fdiv_number {a b : Sample} (ha : isNaN a = false) (hb : isFinite b = true) (hz : isZero b = false) :
    ∃ m, m ≤ infMag ∧ fdiv a b = ofMag (isNeg a != isNeg b) m := by
  cases hfin : isFinite a with
  | true => exact ⟨_, roundMag_le_infMag _ _, fdiv_finite hfin hb hz⟩
  | false =>
    refine ⟨infMag, le_rfl, ?_⟩
    rw [fdiv, if_neg (by simp [ha, isNaN_of_finite hb]), if_pos (isInf_of_not_finite ha hfin),
      if_neg (by simp [isInf_of_finite hb])]

/-- A factor of magnitude 1 changes the sign at most. -/
theorem fmul_unit (neg : Bool) {b : Sample} (hb : isNaN b = false) :
    fmul (ofMag neg (mag fone)) b = ofMag (neg != isNeg b) (mag b) := by
  have hmag : mag (ofMag neg (mag fone)) = mag fone := mag_ofMag neg (mag_lt fone)
  have hneg : isNeg (ofMag neg (mag fone)) = neg := isNeg_ofMag neg (mag_lt fone)
  have hone : isFinite (ofMag neg (mag fone)) = true := by rw [isFinite_iff, hmag]; exact (isFinite_iff _).1 isFinite_fone
  cases hfin : isFinite b with
  | true =>
    rw [fmul_finite hone hfin, hmag, hneg, magUnits_mag_fone, Nat.mul_comm,
      roundMag_exact ((not_isNaN_iff b).1 hb) _ oneUnits_pos]
  | false =>
    have hinf := isInf_of_not_finite hb hfin
    have hmagb : mag b = infMag := by simpa [isInf] using hinf
    have hzero : isZero (ofMag neg (mag fone)) = false ∧ isZero b = false := by
      rw [isZero, isZero, hmag, hmagb, mag_fone]
      decide
    rw [fmul, if_neg (by simp [hb, isNaN_of_finite hone]), if_pos (by simp [hinf]),
      if_neg (by simp [hzero]), hneg, hmagb]

/-! ### The soft limiter -/

/-- `0 <= SOFT_T < SOFT_C`, both finite (R233). -/
structure LimiterOk (t c : Sample) : Prop where
  finT : isFinite t = true
  finC : isFinite c = true
  nonneg : 0 ≤ ordKey t
  lt : ordKey t < ordKey c

theorem limiterOk_of {t c : Sample} (ht : isFinite t = true) (hc : isFinite c = true) (h0 : fle fzero t = true)
    (hlt : flt t c = true) : LimiterOk t c := by
  obtain ⟨_, _, h0⟩ := (fle_iff _ _).1 h0
  obtain ⟨_, _, hlt⟩ := (flt_iff _ _).1 hlt
  exact ⟨ht, hc, by rwa [ordKey_fzero] at h0, hlt⟩

theorem limiterOk_of_numeric {p : Params} (hp : Params.Numeric p) : LimiterOk p.softT p.softC :=
  limiterOk_of hp.softT hp.softC hp.softTNonneg hp.softOrder

/-- What R106 adds to the threshold for a magnitude `m` above it. -/
def excess (t c m : Sample) : Sample := fmul (fsub c t) (ftanh (fdiv (fsub m t) (fsub c t)))

/-- The limited magnitude of a magnitude `m` above the threshold (R106). -/
def saturated (t c m : Sample) : Sample := fadd t (excess t c m)

/-- Up to the threshold the limiter is the identity. -/
theorem softLimit_of_le {t c v : Sample} (h : fle (fabs v) t = true) : softLimit t c v = v := if_pos h

theorem softLimit_of_gt {t c v : Sample} (h : flt t (fabs v) = true) :
    softLimit t c v = fmul (sgn v) (saturated t c (fabs v)) := by
  have hle : ¬fle (fabs v) t = true := by
    rw [fle_iff]
    rw [flt_iff] at h
    omega
  rw [softLimit, if_neg hle, if_pos h]
  rfl

@[simp] theorem isNaN_fabs (v : Sample) : isNaN (fabs v) = isNaN v := by rw [isNaN, mag_fabs, isNaN]

@[simp] theorem fabs_fneg (v : Sample) : fabs (fneg v) = fabs v := by rw [fabs, mag_fneg, fabs]

/-- A number is at most a finite threshold in magnitude, or above it. -/
theorem fabs_cases {t v : Sample} (ht : isFinite t = true) (hv : isNaN v = false) :
    fle (fabs v) t = true ∨ flt t (fabs v) = true := by
  rw [fle_iff, flt_iff, isNaN_fabs]
  simp only [hv, isNaN_of_finite ht, true_and]
  exact le_or_gt _ _

theorem sgn_of_ne_zero {v : Sample} (hv : isNaN v = false) (h : mag v ≠ 0) : sgn v = ofMag (isNeg v) (mag fone) := by
  have hzero := isNaN_of_finite isFinite_fzero
  rw [sgn_of_number hv]
  cases hneg : isNeg v with
  | false =>
    have hpos : flt fzero v = true := by
      rw [flt_iff, ordKey_fzero, ordKey_eq_signed, hneg, signed_false]
      exact ⟨hzero, hv, by omega⟩
    rw [if_pos hpos, ← isNeg_fone, ofMag_mag]
  | true =>
    have hbelow : flt v fzero = true := by
      rw [flt_iff, ordKey_fzero, ordKey_eq_signed, hneg, signed_true]
      exact ⟨hv, hzero, by omega⟩
    have hnot : ¬flt fzero v = true := by
      rw [flt_iff] at hbelow ⊢
      omega
    rw [if_neg hnot, if_pos hbelow, fneg, isNeg_fone, Bool.not_false]

/-- The model keeps `tanh` odd in sign and of magnitude at most 1 (log 6). -/
theorem ftanh_number {v : Sample} (h : isNaN v = false) : isNeg (ftanh v) = isNeg v ∧ mag (ftanh v) ≤ mag fone := by
  rw [ftanh, if_neg (by simp [h])]
  split
  · next hzero =>
    rw [isZero, beq_iff_eq] at hzero
    exact ⟨rfl, by omega⟩
  · have hmin : min (mag (Config.tanh v)) (mag fone) ≤ mag fone := min_le_right _ _
    have hlt := hmin.trans_lt (mag_lt fone)
    rw [unitBound, isNeg_ofMag _ hlt, mag_ofMag _ hlt]
    exact ⟨rfl, hmin⟩

/-- `tanh` of a quotient of values above 0 is in [0, 1]. -/
theorem ftanh_fdiv_pos {a b : Sample} (ha : isNaN a = false) (hb : isFinite b = true) (ha0 : 0 < ordKey a) (hb0 : 0 < ordKey b) :
    isNeg (ftanh (fdiv a b)) = false ∧ mag (ftanh (fdiv a b)) ≤ mag fone := by
  obtain ⟨m, hm, hdiv⟩ := fdiv_number ha hb (isZero_of_ordKey_pos hb0)
  have hlt := hm.trans_lt infMag_lt
  rw [isNeg_of_ordKey_pos ha0, isNeg_of_ordKey_pos hb0] at hdiv
  have hnumber : isNaN (fdiv a b) = false := by rwa [hdiv, not_isNaN_iff, mag_ofMag _ hlt]
  have hneg : isNeg (fdiv a b) = false := by rw [hdiv, isNeg_ofMag _ hlt, bne_self_eq_false]
  rw [← hneg]
  exact ftanh_number hnumber

/-- The range of the limiter above the threshold, `SOFT_C - SOFT_T`, is finite and above 0. -/
theorem LimiterOk.range {t c : Sample} (h : LimiterOk t c) : isFinite (fsub c t) = true ∧ 0 < ordKey (fsub c t) := by
  obtain ⟨_, hpos⟩ := fsub_pos (isNaN_of_finite h.finC) h.finT h.lt
  exact ⟨isFinite_of_ordKey_le h.finC hpos.le (ordKey_fsub_le h.finC h.finT h.nonneg), hpos⟩

/-- What is added to the threshold is finite, not negative, and at most the range. -/
theorem LimiterOk.excess_bounds {t c m : Sample} (h : LimiterOk t c) (hm : isNaN m = false) (hgt : ordKey t < ordKey m) :
    isFinite (excess t c m) = true ∧ 0 ≤ ordKey (excess t c m) ∧ ordKey (excess t c m) ≤ ordKey (fsub c t) := by
  obtain ⟨hfin, hpos⟩ := h.range
  obtain ⟨hnumber, hexcess⟩ := fsub_pos hm h.finT hgt
  obtain ⟨htneg, htmag⟩ := ftanh_fdiv_pos hnumber hfin hexcess hpos
  have htfin := (isFinite_iff _).2 (htmag.trans_lt ((isFinite_iff _).1 isFinite_fone))
  have hle : mag (excess t c m) ≤ mag (fsub c t) := mag_fmul_le hfin htfin htmag
  have hsign : ordKey (excess t c m) = mag (excess t c m) := by
    rw [excess, fmul_finite hfin htfin, isNeg_of_ordKey_pos hpos, htneg, ordKey_ofMag _ (roundMag_lt _ _),
      mag_ofMag _ (roundMag_lt _ _), bne_self_eq_false, signed_false]
  have hkey := mag_eq_natAbs_ordKey (fsub c t)
  exact ⟨(isFinite_iff _).2 (hle.trans_lt ((isFinite_iff _).1 hfin)), by omega, by omega⟩

/-- Above the threshold the limited magnitude is a number between 0 and the limiter's peak. -/
theorem LimiterOk.saturated_bounds {t c m : Sample} (h : LimiterOk t c) (hm : isNaN m = false) (hgt : ordKey t < ordKey m) :
    isNaN (saturated t c m) = false ∧ mag (saturated t c m) ≤ mag (softPeak t c) := by
  obtain ⟨hfin, h0, hle⟩ := h.excess_bounds hm hgt
  have ht := h.nonneg
  have hlow : ordKey t ≤ ordKey (saturated t c m) := ordKey_le_fadd h.finT hfin h0
  have hpeak : ordKey (saturated t c m) ≤ ordKey (softPeak t c) := ordKey_fadd_mono h.finT hfin h.range.1 hle
  rw [mag_eq_natAbs_ordKey, mag_eq_natAbs_ordKey (softPeak t c)]
  exact ⟨isNaN_fadd h.finT hfin, by omega⟩

/-- Above the threshold the limiter gives the limited magnitude the sign of its argument. -/
theorem LimiterOk.softLimit_eq_ofMag {t c v : Sample} (h : LimiterOk t c) (hgt : flt t (fabs v) = true) :
    softLimit t c v = ofMag (isNeg v != isNeg (saturated t c (fabs v))) (mag (saturated t c (fabs v))) := by
  obtain ⟨_, hv, hlt⟩ := (flt_iff _ _).1 hgt
  obtain ⟨hnumber, _⟩ := h.saturated_bounds hv hlt
  have hne : mag v ≠ 0 := by
    have ht := h.nonneg
    rw [ordKey_fabs] at hlt
    omega
  rw [softLimit_of_gt hgt, sgn_of_ne_zero (by rwa [isNaN_fabs] at hv) hne, fmul_unit _ hnumber]

/-- The limited magnitude of any number is at most the limiter's peak. -/
theorem LimiterOk.mag_softLimit_le {t c v : Sample} (h : LimiterOk t c) (hv : isNaN v = false) :
    mag (softLimit t c v) ≤ mag (softPeak t c) := by
  rcases fabs_cases h.finT hv with hle | hgt
  · obtain ⟨hfin, hpos⟩ := h.range
    have hpeak : ordKey t ≤ ordKey (softPeak t c) := ordKey_le_fadd h.finT hfin hpos.le
    obtain ⟨_, _, hlow⟩ := (fle_iff _ _).1 hle
    rw [softLimit_of_le hle, mag_eq_natAbs_ordKey (softPeak t c)]
    rw [ordKey_fabs] at hlow
    omega
  · obtain ⟨_, hv, hlt⟩ := (flt_iff _ _).1 hgt
    rw [h.softLimit_eq_ofMag hgt, mag_ofMag _ (mag_lt _)]
    exact (h.saturated_bounds hv hlt).2

theorem fneg_ofMag (neg : Bool) {m : Nat} (hm : m < 2 ^ 63) : fneg (ofMag neg m) = ofMag (!neg) m := by
  rw [fneg, isNeg_ofMag neg hm, mag_ofMag neg hm]

/-- Settles O31: the limited magnitude depends on `|v|` alone, and takes the sign of `v`. -/
theorem softLimitIsOddAndIdentityBelowThreshold : Obligations.SoftLimitIsOddAndIdentityBelowThreshold := by
  intro t c v ht hc h0 hlt hv
  refine ⟨softLimit_of_le, ?_⟩
  rcases fabs_cases ht hv with hle | hgt
  · rw [softLimit_of_le hle, softLimit_of_le (by rwa [fabs_fneg])]
  · have hok := limiterOk_of ht hc h0 hlt
    rw [hok.softLimit_eq_ofMag hgt, hok.softLimit_eq_ofMag (by rwa [fabs_fneg]), fabs_fneg, isNeg_fneg, fneg_ofMag _ (mag_lt _),
      Bool.not_bne]

/-- Settles O32: with the default parameters the limiter's peak is 1.0. -/
theorem softLimitIsAtMostCeiling : Obligations.SoftLimitIsAtMostCeiling := by
  intro v hv
  have hpeak : mag (softPeak defaultParams.softT defaultParams.softC) ≤ mag fone := by decide +kernel
  have hle := ((limiterOk_of_numeric defaultParams_numeric).mag_softLimit_le hv).trans hpeak
  have hone : isNaN fone = false ∧ ordKey fone = mag fone := by decide +kernel
  rw [show defaultParams.softC = fone from rfl, fle_iff, isNaN_fabs, ordKey_fabs, hone.2]
  refine ⟨?_, hone.1, by exact_mod_cast hle⟩
  rw [not_isNaN_iff]
  exact hle.trans ((not_isNaN_iff _).1 hone.1)

/-! ### The bounds -/

theorem isFinite_reg {s : State} (hs : s.Bounded) (i : RegIx) : isFinite (s.reg i) = true :=
  isFinite_of_withinBound ((positive_iff _).1 hs.params.regClamp).1 (hs.regs i)

theorem clamp_withinBound_of_positive {v l : Sample} (hv : isNaN v = false) (hl : positive l = true) :
    withinBound l (clamp v l) = true := by
  obtain ⟨hfin, hpos⟩ := (positive_iff l).1 hl
  exact clamp_withinBound hv (isNaN_of_finite hfin) hpos.le

theorem isFinite_product {s : State} (hs : s.Bounded) {a : Sample} (ha : isFinite a = true) (k : CoefIx) :
    isFinite (s.product a k) = true :=
  isFinite_of_withinBound ((positive_iff _).1 hs.params.prodClamp).1
    (clamp_withinBound_of_positive (isNaN_fmul ha (hs.coefs k)) hs.params.prodClamp)

/-- What a memory write stores of a finite value is finite: its magnitude is at most that of the peak times the damping. -/
theorem isFinite_stored {s : State} (hs : s.Bounded) {v : Sample} (hv : isFinite v = true) : isFinite (s.stored v) = true := by
  have hpeak : isFinite (softPeak s.params.softT s.params.softC) = true := by
    by_contra hnot
    cases hs.peak.symm.trans (isFinite_fmul_of_not_finite (Bool.of_not_eq_true hnot))
  have hle := (limiterOk_of_numeric hs.params).mag_softLimit_le (isNaN_of_finite hv)
  have hlimited := (isFinite_iff _).2 (hle.trans_lt ((isFinite_iff _).1 hpeak))
  exact (isFinite_iff _).2 ((mag_fmul_mono hlimited hpeak hs.damping hle).trans_lt ((isFinite_iff _).1 hs.peak))

/-- A load of any number keeps the bounds, since it clamps. -/
theorem bounded_load {s : State} (hs : s.Bounded) (w : RegIx) {v : Sample} (hv : isNaN v = false) : (s.load w v).Bounded where
  params := hs.params
  memWf := hs.memWf
  coefs := hs.coefs
  damping := hs.damping
  peak := hs.peak
  mem := hs.mem
  regs i := by
    rw [State.reg_load]
    split
    · exact clamp_withinBound_of_positive hv hs.params.regClamp
    · exact hs.regs i

theorem bounded_writeBack {s : State} (hs : s.Bounded) (w : RegIx) (p : Nat) : (s.writeBack w p).Bounded where
  params := hs.params
  memWf := Memory.write_wf hs.memWf _ _
  coefs := hs.coefs
  damping := hs.damping
  peak := hs.peak
  regs := hs.regs
  mem a := by
    rw [State.memRead_writeBack hs.memWf]
    split
    · exact isFinite_stored hs (isFinite_reg hs w)
    · exact hs.mem a

theorem bounded_loadProduct {s : State} (hs : s.Bounded) (w : RegIx) {a : Sample} (ha : isFinite a = true) (k : CoefIx) :
    (s.loadProduct w a k).Bounded :=
  bounded_load hs w (isNaN_of_finite (isFinite_product hs ha k))

theorem bounded_accProduct {s : State} (hs : s.Bounded) (w : RegIx) {a : Sample} (ha : isFinite a = true) (k : CoefIx) :
    (s.accProduct w a k).Bounded :=
  bounded_load hs w (isNaN_fadd (isFinite_reg hs w) (isFinite_product hs ha k))

/-- Every instruction loads a finite Sample, or one made of finite ones, and stores a register at most. -/
theorem bounded_exec {i : Instr} {s t : State} (hs : s.Bounded) (h : exec i s = .next t) : t.Bounded := by
  have hreg := isFinite_reg hs
  have hmem := hs.mem
  cases i <;> cases h
  case nop | skip => exact hs
  case wrt w off => exact bounded_writeBack hs w _
  case rdt w off => exact bounded_load hs w (isNaN_of_finite (hmem _))
  case mulM w _ k _ | mulMSentinel w _ k _ => exact bounded_loadProduct hs w (hmem _) k
  case macM w _ k _ | macMSentinel w _ k _ => exact bounded_accProduct hs w (hmem _) k
  case mulR w _ k _ | mulRSentinel w _ k _ => exact bounded_loadProduct hs w (hreg _) k
  case macR w _ k _ | macRSentinel w _ k _ => exact bounded_accProduct hs w (hreg _) k
  case mulwM w _ k _ => exact bounded_writeBack (bounded_loadProduct hs w (hmem _) k) w _
  case macwM w _ k _ => exact bounded_writeBack (bounded_accProduct hs w (hmem _) k) w _
  case mulwR w _ k _ => exact bounded_writeBack (bounded_loadProduct hs w (hreg _) k) w _
  case macwR w _ k _ => exact bounded_writeBack (bounded_accProduct hs w (hreg _) k) w _

/-- The injected input is a number, and it is clamped. -/
theorem bounded_inject {s : State} (hs : s.Bounded) (hL : isFinite s.inL = true) (hR : isFinite s.inR = true) :
    s.inject.Bounded := by
  unfold State.inject
  split
  · exact bounded_load hs _ (isNaN_of_finite hL)
  · split
    · exact bounded_load hs _ (isNaN_of_finite hR)
    · exact hs

/-- The bounds read the parameters, the registers, the delay memory, the coefficients and the damping alone. -/
theorem bounded_of_eq {s t : State} (hs : s.Bounded) (hparams : t.params = s.params) (hx : t.x = s.x) (hmem : t.mem = s.mem)
    (hcoefs : t.coefs = s.coefs) (hdamping : t.damping = s.damping) : t.Bounded := by
  have hreg (i : RegIx) : t.reg i = s.reg i := by rw [State.reg, State.reg, hx]
  have hcoef (k : CoefIx) : t.coef k = s.coef k := by rw [State.coef, State.coef, hcoefs]
  have hread (a : Nat) : t.memRead a = s.memRead a := by rw [State.memRead, State.memRead, hmem]
  exact {
    params := hparams ▸ hs.params
    memWf := hmem ▸ hs.memWf
    coefs := fun k => hcoef k ▸ hs.coefs k
    damping := hdamping ▸ hs.damping
    peak := by rw [hparams, hdamping]; exact hs.peak
    regs := fun i => by rw [hparams, hreg]; exact hs.regs i
    mem := fun a => by rw [hread]; exact hs.mem a }

@[simp] theorem jobNext_x (s : State) : s.jobNext.x = s.x := by rw [State.jobNext_eq]

@[simp] theorem advance_x (s : State) : s.advance.x = s.x := by
  unfold State.advance
  split <;> simp

/-- Settles O45: the injection and the instruction keep the bounds, and what follows them writes nothing the bounds read. -/
theorem stepKeepsValuesBounded : Obligations.StepKeepsValuesBounded := by
  intro s t hrun hs hL hR hstep
  obtain ⟨u, hu, rfl⟩ := step_running_cases hrun hstep
  exact bounded_of_eq (bounded_exec (bounded_inject hs hL hR) hu) (by simp) (by simp) (by simp) (by simp) (by simp)

end Sys2Proof.Proofs
end

section
/-!
PROOFS. The statements about the coefficient instructions (spec/41_coefficient_ops.md). Each of the twelve loads one register with one
value, and the writing ones then store that register: so first what a load does, alone and before a store, and the value each instruction
loads; then the statements.
-/

namespace Sys2Proof.Proofs

open Sys2Proof Sys2Proof.Machine

/-! ### A load, and a load and store -/

/-- A load changes its register alone. -/
theorem load_effect (s : State) (w : RegIx) (v : Sample) :
    let t := s.load w v
    t.reg w = s.clampR v ∧ (∀ i, i ≠ w → t.reg i = s.reg i) ∧ (∀ a, t.memRead a = s.memRead a) ∧ t = { s with x := t.x } :=
  ⟨State.reg_load_self s w v, fun _ hi => State.reg_load_ne s hi v, State.load_memRead s w v, rfl⟩

/-- A load and then a store of the same register change that register and one index; the register is written first, so the store is
of its new value (R111). -/
theorem load_writeBack_effect {s : State} (hwf : s.mem.wf = true) (w : RegIx) (v : Sample) (p : Nat) :
    let t := (s.load w v).writeBack w p
    t.reg w = s.clampR v ∧ (∀ i, i ≠ w → t.reg i = s.reg i) ∧ t.memRead p = s.stored (t.reg w) ∧
      (∀ a, a ≠ p → t.memRead a = s.memRead a) ∧ t = { s with x := t.x, mem := t.mem } := by
  obtain ⟨hself, hother, hmem, _⟩ := load_effect s w v
  have hstore := State.memRead_writeBack (s := s.load w v) hwf w p
  refine ⟨hself, hother, ?_, fun a ha => ?_, rfl⟩
  · rw [hstore, if_pos rfl, State.load_stored, State.writeBack_reg]
  · rw [hstore, if_neg ha, hmem]

/-! ### The value each instruction loads -/

theorem exec_mulM (c : Ctrl) (w : RegIx) (r : SrcIx) (k : CoefIx) (off : Offset) (s : State) :
    exec (.mulM c w r k off) s = .next (s.load w (s.product (s.memRead (s.readPos off)) k)) := rfl

theorem exec_mulMSentinel (w : RegIx) (r : SrcIx) (k : CoefIx) (off : Offset) (s : State) :
    exec (.mulMSentinel w r k off) s = .next (s.load w (s.product (s.memRead (s.readPos off)) k)) := rfl

theorem exec_mulwM (c : Ctrl) (w : RegIx) (r : SrcIx) (k : CoefIx) (off : Offset) (s : State) :
    exec (.mulwM c w r k off) s =
      .next ((s.load w (s.product (s.memRead (s.readPos off)) k)).writeBack w (s.readPos off)) := rfl

theorem exec_macM (c : Ctrl) (w : RegIx) (r : SrcIx) (k : CoefIx) (off : Offset) (s : State) :
    exec (.macM c w r k off) s = .next (s.load w (fadd (s.reg w) (s.product (s.memRead (s.readPos off)) k))) := rfl

theorem exec_macMSentinel (w : RegIx) (r : SrcIx) (k : CoefIx) (off : Offset) (s : State) :
    exec (.macMSentinel w r k off) s = .next (s.load w (fadd (s.reg w) (s.product (s.memRead (s.readPos off)) k))) := rfl

theorem exec_macwM (c : Ctrl) (w : RegIx) (r : SrcIx) (k : CoefIx) (off : Offset) (s : State) :
    exec (.macwM c w r k off) s =
      .next ((s.load w (fadd (s.reg w) (s.product (s.memRead (s.readPos off)) k))).writeBack w (s.readPos off)) := rfl

theorem exec_mulR (c : Ctrl) (w : RegIx) (r : SrcIx) (k : CoefIx) (off : Offset) (s : State) :
    exec (.mulR c w r k off) s = .next (s.load w (s.product (s.reg r.toReg) k)) := rfl

theorem exec_mulRSentinel (w : RegIx) (r : SrcIx) (k : CoefIx) (off : Offset) (s : State) :
    exec (.mulRSentinel w r k off) s = .next (s.load w (s.product (s.reg r.toReg) k)) := rfl

theorem exec_mulwR (c : Ctrl) (w : RegIx) (r : SrcIx) (k : CoefIx) (off : Offset) (s : State) :
    exec (.mulwR c w r k off) s = .next ((s.load w (s.product (s.reg r.toReg) k)).writeBack w (s.readPos off)) := rfl

theorem exec_macR (c : Ctrl) (w : RegIx) (r : SrcIx) (k : CoefIx) (off : Offset) (s : State) :
    exec (.macR c w r k off) s = .next (s.load w (fadd (s.reg w) (s.product (s.reg r.toReg) k))) := rfl

theorem exec_macRSentinel (w : RegIx) (r : SrcIx) (k : CoefIx) (off : Offset) (s : State) :
    exec (.macRSentinel w r k off) s = .next (s.load w (fadd (s.reg w) (s.product (s.reg r.toReg) k))) := rfl

theorem exec_macwR (c : Ctrl) (w : RegIx) (r : SrcIx) (k : CoefIx) (off : Offset) (s : State) :
    exec (.macwR c w r k off) s =
      .next ((s.load w (fadd (s.reg w) (s.product (s.reg r.toReg) k))).writeBack w (s.readPos off)) := rfl

/-! ### Memory source -/

/-- Settles O8: both forms are one load of the product. -/
theorem mulMLoadsProduct : Obligations.MulMLoadsProduct :=
  fun s c w r k off => ⟨_, exec_mulM c w r k off s, exec_mulMSentinel w r k off s, load_effect s w _⟩

/-- Settles O9: the load of O8, then the store. -/
theorem mulwMLoadsAndStores : Obligations.MulwMLoadsAndStores :=
  fun s c w r k off hwf => ⟨_, exec_mulwM c w r k off s, load_writeBack_effect hwf w _ _⟩

/-- Settles O10: both forms are one load of the sum of the old register and the product. -/
theorem macMAccumulatesProduct : Obligations.MacMAccumulatesProduct :=
  fun s c w r k off => ⟨_, exec_macM c w r k off s, exec_macMSentinel w r k off s, load_effect s w _⟩

/-- Settles O11: the load of O10, then the store. -/
theorem macwMAccumulatesAndStores : Obligations.MacwMAccumulatesAndStores :=
  fun s c w r k off hwf => ⟨_, exec_macwM c w r k off s, load_writeBack_effect hwf w _ _⟩

/-! ### Register source -/

/-- Settles O12: the source is read in the state before the load, so `r = w` is no case of its own. -/
theorem mulRLoadsProduct : Obligations.MulRLoadsProduct :=
  fun s c w r k off => ⟨_, exec_mulR c w r k off s, exec_mulRSentinel w r k off s, load_effect s w _⟩

/-- Settles O13: the load of O12, then the store. -/
theorem mulwRLoadsAndStores : Obligations.MulwRLoadsAndStores :=
  fun s c w r k off hwf => ⟨_, exec_mulwR c w r k off s, load_writeBack_effect hwf w _ _⟩

/-- Settles O14: both forms are one load of the sum of the old register and the product. -/
theorem macRAccumulatesProduct : Obligations.MacRAccumulatesProduct :=
  fun s c w r k off => ⟨_, exec_macR c w r k off s, exec_macRSentinel w r k off s, load_effect s w _⟩

/-- Settles O15: the load of O14, then the store. -/
theorem macwRAccumulatesAndStores : Obligations.MacwRAccumulatesAndStores :=
  fun s c w r k off hwf => ⟨_, exec_macwR c w r k off s, load_writeBack_effect hwf w _ _⟩

/-! ### The worked examples -/

/-- Settles O5: twelve closed words, which the decoder evaluates. -/
theorem workedExampleWordsDecode : Obligations.WorkedExampleWordsDecode := by
  unfold Obligations.WorkedExampleWordsDecode
  decide

end Sys2Proof.Proofs
end

section
/-!
PROOFS. The statements about the taps and the no-ops (spec/42_tap_ops.md). A read tap is one load and a write tap one store, whose effects
are lemmas; a no-op does neither.
-/

namespace Sys2Proof.Proofs

open Sys2Proof Sys2Proof.Machine

/-! ### A store alone -/

/-- A store changes one index of the delay memory alone. -/
theorem writeBack_effect {s : State} (hwf : s.mem.wf = true) (w : RegIx) (p : Nat) :
    let t := s.writeBack w p
    t.memRead p = s.stored (s.reg w) ∧ (∀ a, a ≠ p → t.memRead a = s.memRead a) ∧ t = { s with mem := t.mem } := by
  have hstore := State.memRead_writeBack hwf w p
  refine ⟨?_, fun a ha => ?_, rfl⟩
  · rw [hstore, if_pos rfl]
  · rw [hstore, if_neg ha]

/-! ### No-ops -/

theorem exec_nop (off : Offset) (s : State) : exec (.nop off) s = .next s := rfl

theorem exec_skip (c : Ctrl) (w : RegIx) (off : Offset) (s : State) : exec (.skip c w off) s = .next s := rfl

/-! ### The statements -/

/-- Settles O18: a write tap is one store. -/
theorem wrtStoresRegister : Obligations.WrtStoresRegister :=
  fun s c w off hwf => ⟨_, exec_wrt c w off s, writeBack_effect hwf w _⟩

/-- Settles O16: neither no-op reads its fields. -/
theorem nopAndSkipChangeNothing : Obligations.NopAndSkipChangeNothing :=
  fun s c w off => ⟨exec_nop off s, exec_skip c w off s⟩

/-- Settles O17: a read tap is one load. -/
theorem rdtCopiesMemory : Obligations.RdtCopiesMemory :=
  fun s c w off => ⟨_, exec_rdt c w off s, load_effect s w _⟩

end Sys2Proof.Proofs
end

section
/-!
PROOFS. The statements about the sample executor (spec/43_sample_executor.md). The injection, the capture register and the capture each
have lemmas that say once what they do; of a running step there is one fact, that up to the advance it writes the registers, the delay
memory and the latches alone.
-/

namespace Sys2Proof.Proofs

open Sys2Proof Sys2Proof.Machine

/-! ### Injection -/

theorem inject_of_zero {s : State} (h : s.pc = 0) : s.inject = s.injectInput s.inL := if_pos h

theorem inject_of_sixtyFour {s : State} (h : s.pc = 64) : s.inject = s.injectInput s.inR := by
  rw [State.inject, h, if_neg (by decide), if_pos rfl]

theorem inject_of_ne {s : State} (h0 : s.pc ≠ 0) (h64 : s.pc ≠ 64) : s.inject = s := by
  rw [State.inject, if_neg h0, if_neg h64]

theorem reg_injectInput_inputReg (s : State) (v : Sample) :
    (s.injectInput v).reg s.params.inputReg = clamp v s.params.regClamp := State.reg_load_self s _ v

/-- Whatever the step index, an injection writes no register but the input register. -/
theorem reg_inject_of_ne (s : State) {i : RegIx} (hi : i ≠ s.params.inputReg) : s.inject.reg i = s.reg i := by
  by_cases h0 : s.pc = 0
  · rw [inject_of_zero h0]
    exact State.reg_load_ne s hi _
  by_cases h64 : s.pc = 64
  · rw [inject_of_sixtyFour h64]
    exact State.reg_load_ne s hi _
  · rw [inject_of_ne h0 h64]

/-- Settles O39: each clause is the injection of its step index; the frame is that of a load. -/
theorem inputInjection : Obligations.InputInjection := by
  refine fun s => ⟨fun h => ?_, fun h => ?_, fun _ => reg_inject_of_ne s, inject_of_ne, State.inject_eq s⟩
  · rw [inject_of_zero h, reg_injectInput_inputReg]
  · rw [inject_of_sixtyFour h, reg_injectInput_inputReg]

/-! ### The capture register -/

theorem captureReg_of_stepWaddr {s : State} (h : s.params.captureMode = .stepWaddr) (i : Fin 128) :
    s.captureReg i = (s.programWord i).waddr := by
  rw [State.captureReg, h]
  rfl

theorem captureReg_of_fixed {s : State} {r : RegIx} (h : s.params.captureMode = .fixed r) (i : Fin 128) :
    s.captureReg i = r := by
  rw [State.captureReg, h]

/-- The capture register depends on the parameters and the configuration alone. -/
theorem captureReg_congr {s t : State} (hparams : t.params = s.params) (hcfg : t.cfg = s.cfg) (i : Fin 128) :
    t.captureReg i = s.captureReg i := by
  unfold State.captureReg State.decoded State.programWord
  rw [hparams, hcfg]

theorem waddr_eq_ofNat (v : Word) : v.waddr = BitVec.ofNat 3 (v.toNat / 2 ^ 24) := by
  apply BitVec.eq_of_toNat_eq
  rw [toNat_waddr, BitVec.toNat_ofNat]

/-- The control byte of a NOP is all ones, its write address with it (R78). -/
theorem waddr_of_isNop {q : DecodeParams} {v : Word} (h : (decodeStep q v).isNop = true) : v.waddr = 7#3 := by
  obtain ⟨⟨_, hwaddr⟩, _⟩ : (v.ctrl = 31#5 ∧ v.waddr = 7#3) ∧ v.coefByte = 255#8 := by
    simpa [decodeStep_isNop, controlAllOnes] using h
  exact hwaddr

/-- Settles O41: by default the write address of the word, whose bits a NOP fixes; else the fixed register. -/
theorem captureRegisterOfOutputStep : Obligations.CaptureRegisterOfOutputStep := by
  refine fun s i => ⟨fun hmode => ?_, fun r hmode => captureReg_of_fixed hmode i⟩
  rw [captureReg_of_stepWaddr hmode]
  exact ⟨waddr_eq_ofNat _, waddr_of_isNop⟩

/-! ### The capture -/

theorem capture_outL (s : State) : s.capture.outL =
    if s.pc.val < 64 ∧ s.pc = s.cfg.outSteps.left then s.reg (s.captureReg s.pc) else s.outL := by
  by_cases hhalf : s.pc.val < 64
  · simp only [State.capture, hhalf, true_and, if_true]
    split <;> rfl
  · simp only [State.capture, hhalf, false_and, if_false]
    split <;> rfl

theorem capture_outR (s : State) : s.capture.outR =
    if 64 ≤ s.pc.val ∧ s.pc = s.cfg.outSteps.right then s.reg (s.captureReg s.pc) else s.outR := by
  by_cases hhalf : s.pc.val < 64
  · simp only [State.capture, hhalf, Nat.not_le.2 hhalf, false_and, if_true, if_false]
    split <;> rfl
  · simp only [State.capture, hhalf, Nat.not_lt.1 hhalf, true_and, if_false]
    split <;> rfl

/-! ### The advance -/

@[simp] theorem jobNext_lfoPhase (s : State) : s.jobNext.lfoPhase = s.lfoPhase := by rw [State.jobNext_eq]
@[simp] theorem jobNext_lfoValue (s : State) : s.jobNext.lfoValue = s.lfoValue := by rw [State.jobNext_eq]
@[simp] theorem jobNext_outL (s : State) : s.jobNext.outL = s.outL := by rw [State.jobNext_eq]
@[simp] theorem jobNext_outR (s : State) : s.jobNext.outR = s.outR := by rw [State.jobNext_eq]

@[simp] theorem advance_outL (s : State) : s.advance.outL = s.outL := by unfold State.advance; split <;> simp
@[simp] theorem advance_outR (s : State) : s.advance.outR = s.outR := by unfold State.advance; split <;> simp

/-- The end of the sample advances the phase (R170). -/
theorem advance_lfoPhase (s : State) : s.advance.lfoPhase =
    if s.pc = 127 then nextPhase s.lfoPhase s.params.lfoRateHz s.cfg.fs else s.lfoPhase := by
  unfold State.advance; split <;> simp

/-- The value is that of the phase just advanced (R30). -/
theorem advance_lfoValue (s : State) : s.advance.lfoValue =
    if s.pc = 127 then lfoWave s.advance.lfoPhase else s.lfoValue := by
  unfold State.advance; split <;> simp

/-! ### A running step -/

/-- The injection and the instruction write the registers and the delay memory at most. -/
theorem exec_inject_eq {i : Instr} {s t : State} (h : exec i s.inject = .next t) : t = { s with x := t.x, mem := t.mem } := by
  have ht := exec_touches h
  rwa [State.inject_eq] at ht

/-- All that a running step has done when the advance begins: the capture has written the latches besides. -/
theorem capture_exec_inject_eq {i : Instr} {s t : State} (h : exec i s.inject = .next t) :
    t.capture = { s with x := t.x, mem := t.mem, outL := t.capture.outL, outR := t.capture.outR } := by
  calc t.capture = { t with outL := t.capture.outL, outR := t.capture.outR } := State.capture_eq t
    _ = _ := by rw [exec_inject_eq h]

/-- Settles O36: the write pointer is first written by the advance. -/
theorem writePointerAdvancesOncePerSample : Obligations.WritePointerAdvancesOncePerSample := by
  intro s t hrun hstep
  obtain ⟨u, hexec, rfl⟩ := step_running_cases hrun hstep
  rw [advance_wp, capture_exec_inject_eq hexec]

/-- Settles O37: the LFO is first written by the advance. -/
theorem lfoAdvancesOncePerSample : Obligations.LfoAdvancesOncePerSample := by
  intro s t hrun hstep
  obtain ⟨u, hexec, rfl⟩ := step_running_cases hrun hstep
  have hphase := advance_lfoPhase u.capture
  have hvalue := advance_lfoValue u.capture
  rw [capture_exec_inject_eq hexec] at hphase hvalue ⊢
  exact ⟨hphase, hvalue⟩

/-- Settles O40: the capture finds the step index and the output steps as they were, and the registers as the instruction left them;
the advance writes no latch. -/
theorem outputCapture : Obligations.OutputCapture := by
  intro s t u hrun hexec hstep
  obtain ⟨t', hexec', rfl⟩ := step_running_cases hrun hstep
  cases hexec.symm.trans hexec'
  have ht := exec_inject_eq hexec
  have hpc : t.pc = s.pc := by rw [ht]
  have hcfg : t.cfg = s.cfg := by rw [ht]
  have houtL : t.outL = s.outL := by rw [ht]
  have houtR : t.outR = s.outR := by rw [ht]
  have hreg := captureReg_congr (show t.params = s.params by rw [ht]) hcfg s.pc
  rw [advance_outL, advance_outR, capture_outL, capture_outR, hpc, hcfg, houtL, houtR, hreg]
  exact ⟨rfl, rfl⟩

end Sys2Proof.Proofs
end

section
/-!
PROOFS. The statements about Reset and the two renders (spec/44_excitation_capture.md). First the pure parts, the pre-delay line and the
sums; then a render as a loop of samples of 128 steps, each of which does what a turn of the procedure's loop does; then two engines
side by side.
-/

namespace Sys2Proof.Proofs

open Sys2Proof Sys2Proof.Machine

/-! ### The pre-delay line -/

/-- What leaves the line and the line after it are the old line with the entering value behind it. -/
theorem preDelay_cons (line : List Sample) (v : Sample) : (preDelay line v).1 :: (preDelay line v).2 = line ++ [v] := by
  cases line <;> rfl

/-- Settles O58: each value that enters takes the first of the line and the values behind it, so the values that leave are the line and
the values in their order. -/
theorem preDelayIsFifo : Obligations.PreDelayIsFifo := by
  intro d xs
  suffices hout : ∀ acc line : List Sample,
      (xs.foldl (fun acc v => (acc.1 ++ [(preDelay acc.2 v).1], (preDelay acc.2 v).2)) (acc, line)).1 =
        acc ++ (line ++ xs).take xs.length from hout [] _
  induction xs with
  | nil => simp
  | cons v xs ih =>
    intro acc line
    have hline : line ++ v :: xs = (preDelay line v).1 :: ((preDelay line v).2 ++ xs) := by
      rw [← List.cons_append, preDelay_cons, List.append_assoc, List.singleton_append]
    rw [List.foldl_cons, ih, hline, List.length_cons, List.take_succ_cons, List.append_assoc, List.singleton_append]

/-- The line of `dpre` zeros after the `k` values `lps` gives back, when `x` enters, the value of `dpre` samples ago. -/
theorem preDelay_drop {dpre k : Nat} {lps : List Sample} (hk : lps.length = k) (x : Sample) :
    preDelay ((List.replicate dpre fzero ++ lps).drop k) x =
      (if dpre ≤ k then (lps ++ [x]).getD (k - dpre) fzero else fzero,
        (List.replicate dpre fzero ++ (lps ++ [x])).drop (k + 1)) := by
  have hlength : k < (List.replicate dpre fzero ++ (lps ++ [x])).length := by simp; omega
  have hcons := preDelay_cons ((List.replicate dpre fzero ++ lps).drop k) x
  rw [← List.drop_append_of_le_length (by simp; omega), List.append_assoc, List.drop_eq_getElem_cons hlength] at hcons
  obtain ⟨hout, hrest⟩ := List.cons.inj hcons
  refine Prod.ext (hout.trans ?_) hrest
  rw [List.getElem_append]
  by_cases hd : k < dpre
  · rw [dif_pos (by simpa using hd), if_neg (by omega), List.getElem_replicate]
  · rw [dif_neg (by simpa using hd), if_pos (by omega), List.getD_eq_getElem _ _ (by simp; omega)]
    simp

/-! ### Sums and the deconvolution -/

theorem sampleAt_map_range {n i : Nat} (f : Nat → Sample) (h : i < n) : sampleAt ((List.range n).map f) i = f i := by
  simp [sampleAt, h]

theorem fsum_map_range (n : Nat) (f : Nat → Sample) : fsum ((List.range n).map f) = sumUpTo n f := List.foldl_map

theorem sumUpTo_congr {n : Nat} {f g : Nat → Sample} (h : ∀ m, m < n → f m = g m) : sumUpTo n f = sumUpTo n g :=
  List.foldl_ext _ _ _ fun acc m hm => congrArg (fadd acc) (h m (List.mem_range.1 hm))

/-- R196, the sum of an entry written out. -/
theorem deconvolve_eq (y inv : List Sample) (ns nout : Nat) :
    deconvolve y inv ns nout =
      (List.range nout).map fun k => sumUpTo ns fun m => fmul (sampleAt inv m) (sampleAt y (ns - 1 + k - m)) :=
  List.map_congr_left fun _ _ => fsum_map_range ns _

/-- Settles O59: an entry is a sum over indices that lie below Ns + Nout - 1. -/
theorem deconvolveSumsCapturedSamples : Obligations.DeconvolveSumsCapturedSamples := by
  intro y y' inv ns nout hns
  simp only [deconvolve_eq]
  refine ⟨by simp, fun k hk => sampleAt_map_range _ hk, fun hagree => ?_⟩
  refine List.map_congr_left fun k hk => sumUpTo_congr fun m hm => ?_
  have hk := List.mem_range.1 hk
  rw [hagree (ns - 1 + k - m) (by omega)]

/-! ### The sweep and its inverse filter -/

/-- The sweep of a band (R193). -/
def signal (b : SweepBand) : List Sample := sweepSignal b.f1 b.f2 b.fs b.ns

/-- The inverse filter of that sweep (R195). -/
def inverse (b : SweepBand) : List Sample := inverseFilter (signal b) b.lk b.ns

theorem sampleAt_signal (b : SweepBand) {n : Nat} (h : n < b.ns) : sampleAt (signal b) n = b.u n := sampleAt_map_range _ h

theorem inverseRaw_signal (b : SweepBand) {m : Nat} (h : m < b.ns) : inverseRaw (signal b) b.lk b.ns m = b.raw m := by
  rw [inverseRaw, sampleAt_signal b (by omega), SweepBand.raw]

theorem inverseSum_signal (b : SweepBand) : inverseSum (signal b) b.lk b.ns = b.invSum := by
  rw [inverseSum, fsum_map_range]
  refine sumUpTo_congr fun m hm => ?_
  rw [inverseRaw_signal b hm, sampleAt_signal b (by omega)]

theorem sampleAt_inverse (b : SweepBand) {m : Nat} (h : m < b.ns) : sampleAt (inverse b) m = b.inv m := by
  rw [inverse, inverseFilter, sampleAt_map_range _ h, inverseRaw_signal b h, inverseSum_signal, SweepBand.inv]

/-- The deconvolution with the inverse filter of a band, divided by the level, is the band's channel (R196, R197). -/
theorem map_deconvolve_inverse (b : SweepBand) (nout : Nat) (level : Sample) (y : List Sample) :
    ((deconvolve y (inverse b) b.ns nout).map fun h => fdiv h level) = b.channel nout level y := by
  rw [deconvolve_eq, List.map_map]
  refine List.map_congr_left fun k _ => congrArg (fdiv · level) (sumUpTo_congr fun m hm => ?_)
  rw [sampleAt_inverse b hm]
  rfl

/-! ### Acceptance -/

theorem reg_eq_fzero {s : State} (h : s.x = Vector.replicate 8 fzero) (i : RegIx) : s.reg i = fzero := by
  simp [State.reg, h]

theorem memRead_eq_fzero {s : State} (h : s.mem = []) (a : Nat) : s.memRead a = fzero := by
  rw [State.memRead, h]
  rfl

/-- Settles O49: the call answers the reset engine. -/
theorem resetClearsEngine : Obligations.ResetClearsEngine := by
  intro s rest hidle hcalls
  refine ⟨_, step_call hidle hcalls, ?_⟩
  exact ⟨memRead_eq_fzero rfl, reg_eq_fzero rfl, rfl, rfl, rfl, rfl, rfl, rfl, rfl, rfl, hidle, rfl⟩

theorem coef_eq_sampleAt {s : State} {coefs : List Sample} (h : s.coefs = coefVector coefs) (k : CoefIx) :
    s.coef k = sampleAt coefs k.toNat := by
  simp [State.coef, h, coefVector]

/-- Settles O54: either render begins with the reset engine under its coefficients and damping, and what begins its first sample, or
returns its channels, writes neither. -/
theorem renderBeginsWithReset : Obligations.RenderBeginsWithReset := by
  intro s t c rest hidle hcalls hrender hstep
  rw [step_call hidle hcalls] at hstep
  rcases hrender with ⟨a, rfl⟩ | ⟨a, rfl⟩
  · obtain ⟨_, _, _, _, rfl⟩ := renderImpulse_next hstep
    refine ⟨memRead_eq_fzero rfl, reg_eq_fzero rfl, rfl, rfl, rfl, rfl, rfl, rfl, rfl, ?_, ?_⟩
    · rintro _ ⟨⟩
      exact ⟨rfl, coef_eq_sampleAt rfl⟩
    · rintro _ ⟨⟩
  · obtain ⟨_, _, _, _, rfl⟩ := renderSweep_next hstep
    refine ⟨memRead_eq_fzero rfl, reg_eq_fzero rfl, rfl, rfl, rfl, rfl, rfl, rfl, rfl, ?_, ?_⟩
    · rintro _ ⟨⟩
    · rintro _ ⟨⟩
      exact ⟨rfl, coef_eq_sampleAt rfl⟩

/-! ### A render as a loop of samples -/

/-- `h` while a sample of a render runs on the input `e`. -/
def holding (job : Job) (e : Sample) (h : State) : State := { h with job := job, inL := e, inR := e }

theorem stepAt_params (s : State) (i : Fin 128) : (s.stepAt i).params = s.params := by
  rw [State.stepAt, State.capture_params]
  exact exec_params (s := { s with pc := i }) (exec_decode s.params.decode (s.programWord i) _)

theorem runSteps_params (i n : Nat) (s : State) : (State.runSteps i n s).params = s.params := by
  induction n with
  | zero => rfl
  | succ n ih => rw [runSteps_succ, stepAt_params, ih]

theorem tick_params (inL inR : Sample) (s : State) : (State.tick inL inR s).params = s.params := by
  rw [State.tick, State.endSample_params, runSteps_params, State.injectInput_params, runSteps_params, State.injectInput_params]

theorem tick_pc (inL inR : Sample) (s : State) : (State.tick inL inR s).pc = 0 := rfl

/-- 128 steps are one `Tick` of the engine `u`, whatever the host's side, and what the job does with its outputs. -/
theorem after_sample {u : State} {job : Job} (hpc : u.pc = 0) (hjob : job ≠ .idle) (e : Sample) (h : State) :
    After 128 (u.withHost (holding job e h)) ((u.tick e e).withHost (holding job e h)).jobNext := by
  rw [← State.tick_withHost]
  exact after_tick (s := u.withHost (holding job e h)) hjob hpc

/-- If 128 steps do what a turn of a loop does, `128 × n` steps do what `n` turns do. -/
theorem after_turns {V : Type} {stands : Nat → V → State → Prop} {turn : V → Nat → V} {n : Nat}
    (hturn : ∀ k v s, k < n → stands k v s → ∃ t, After 128 s t ∧ stands (k + 1) (turn v k) t) {v : V} {s : State}
    (hs : stands 0 v s) : ∃ t, After (128 * n) s t ∧ stands n ((List.range n).foldl turn v) t := by
  induction n with
  | zero => exact ⟨s, After.zero s, hs⟩
  | succ n ih =>
    obtain ⟨t, ht, hstands⟩ := ih fun k v s hk => hturn k v s (by omega)
    obtain ⟨u, hu, hlast⟩ := hturn n _ t (by omega) hstands
    refine ⟨u, ht.add hu, ?_⟩
    rw [List.range_succ, List.foldl_append]
    exact hlast

/-! ### RenderImpulse -/

/-- The machine's render-local state where the loop of R185 is to begin sample `k`; `r` gives what the loop does not write. -/
def impulseRenderAt (r : ImpulseRender) (dpre k : Nat) (v : ImpulseVars) : ImpulseRender :=
  { r with
    k := k
    lp := v.lp
    line := (List.replicate dpre fzero ++ v.lps).drop k
    pxL := v.pxL
    pzL := v.pzL
    pxR := v.pxR
    pzR := v.pzR
    left := v.left
    right := v.right }

/-- The body of the loop of R185 with the values `r` holds. -/
def impulseTurn (dcR : Sample) (r : ImpulseRender) (dpre : Nat) (v : ImpulseVars) (k : Nat) : ImpulseVars :=
  v.turn dcR r.a r.inputGain dpre k

/-- The variables with which the loop of R185 begins. -/
def impulseStart (s : State) (a : ImpulseArgs) : ImpulseVars :=
  { engine := s.renderStart a.coefficients a.dampingValue
    lp := fzero
    lps := []
    pxL := fzero
    pzL := fzero
    pxR := fzero
    pzR := fzero
    left := []
    right := [] }

theorem impulseProcedure_eq (s : State) (a : ImpulseArgs) : s.impulseProcedure a =
    (List.range (a.start s.cfg.fs).nout).foldl
      (impulseTurn s.params.dcR (a.start s.cfg.fs) (preDelayLength a.preDelayMs s.cfg.fs)) (impulseStart s a) := rfl

/-- The lowpass output of sample `k` in the loop of R185. -/
def impulseLp (r : ImpulseRender) (k : Nat) (v : ImpulseVars) : Sample := lowpass r.a v.lp (if k = 0 then fone else fzero)

/-- The excitation of sample `k` in the loop of R185. -/
def impulseInput (r : ImpulseRender) (dpre k : Nat) (v : ImpulseVars) : Sample :=
  fmul (if dpre ≤ k then (v.lps ++ [impulseLp r k v]).getD (k - dpre) fzero else fzero) r.inputGain

theorem impulseTurn_engine (dcR : Sample) (r : ImpulseRender) (dpre k : Nat) (v : ImpulseVars) :
    (impulseTurn dcR r dpre v k).engine = v.engine.tick (impulseInput r dpre k v) (impulseInput r dpre k v) := rfl

theorem excite_impulseRenderAt (r : ImpulseRender) {dpre k : Nat} {v : ImpulseVars} (hk : v.lps.length = k) :
    (impulseRenderAt r dpre k v).excite =
      ({ impulseRenderAt r dpre k v with
          lp := impulseLp r k v
          line := (List.replicate dpre fzero ++ (v.lps ++ [impulseLp r k v])).drop (k + 1) }, impulseInput r dpre k v) := by
  simp only [ImpulseRender.excite, impulseRenderAt, preDelay_drop hk]
  rfl

/-- What the machine does before and after the `Tick` of a sample is what a turn of the loop does around it. -/
theorem collect_excite_impulseRenderAt (dcR : Sample) (r : ImpulseRender) {dpre k : Nat} {v : ImpulseVars} (hk : v.lps.length = k) :
    let w := impulseTurn dcR r dpre v k
    (impulseRenderAt r dpre k v).excite.1.collect dcR w.engine.outL w.engine.outR = impulseRenderAt r dpre (k + 1) w := by
  rw [excite_impulseRenderAt r hk]
  rfl

theorem impulseNext_withHost (u h : State) (r : ImpulseRender) : (u.withHost h).impulseNext r =
    if r.k < r.nout then u.withHost (holding (.impulse r.excite.1) r.excite.2 h)
    else u.withHost { h with job := .idle, ret := some (.buffers r.left r.right) } := by
  unfold State.impulseNext
  split <;> rfl

theorem jobNext_impulse (u h : State) (r : ImpulseRender) (e : Sample) :
    (u.withHost (holding (.impulse r) e h)).jobNext =
      (u.withHost (holding (.impulse r) e h)).impulseNext (r.collect u.params.dcR u.outL u.outR) := rfl

/-- The machine stands where the loop of R185 is to begin sample `k` with the variables `v`. -/
structure ImpulseStands (p : Params) (rest : List HostCall) (r : ImpulseRender) (dpre k : Nat) (v : ImpulseVars) (s : State) :
    Prop where
  params : v.engine.params = p
  pc : v.engine.pc = 0
  lps : v.lps.length = k
  left : v.left.length = k
  right : v.right.length = k
  machine : ∃ h : State, h.calls = rest ∧ s = (v.engine.withHost h).impulseNext (impulseRenderAt r dpre k v)

theorem ImpulseStands.turn {p : Params} {rest : List HostCall} {r : ImpulseRender} {dpre k : Nat} {v : ImpulseVars} {s : State}
    (hs : ImpulseStands p rest r dpre k v s) (hk : k < r.nout) :
    ∃ t, After 128 s t ∧ ImpulseStands p rest r dpre (k + 1) (impulseTurn p.dcR r dpre v k) t := by
  obtain ⟨h, hcalls, rfl⟩ := hs.machine
  have hcollect := collect_excite_impulseRenderAt p.dcR r (dpre := dpre) hs.lps
  have hinput : (impulseRenderAt r dpre k v).excite.2 = impulseInput r dpre k v := by rw [excite_impulseRenderAt r hs.lps]
  rw [impulseNext_withHost, if_pos (by exact hk), hinput]
  have hparams : (impulseTurn p.dcR r dpre v k).engine.params = p := by rw [impulseTurn_engine, tick_params, hs.params]
  refine ⟨_, after_sample hs.pc (by simp) _ h, hparams, tick_pc _ _ _, ?_, ?_, ?_,
    holding (.impulse (impulseRenderAt r dpre k v).excite.1) (impulseInput r dpre k v) h, hcalls, ?_⟩
  · simp [impulseTurn, hs.lps]
  · simp [impulseTurn, hs.left]
  · simp [impulseTurn, hs.right]
  · rw [← impulseTurn_engine p.dcR, jobNext_impulse, hparams, hcollect]

theorem renderImpulse_of_fault_none {a : ImpulseArgs} (s : State) (h : a.fault = none) :
    s.renderImpulse a = .next ((s.beginRender a.coefficients a.dampingValue).impulseNext (a.start s.cfg.fs)) := by
  rw [State.renderImpulse, h]

/-- An accepted call leaves the machine where the loop is to begin its first sample. -/
theorem impulseStands_start (s : State) (a : ImpulseArgs) (rest : List HostCall) :
    ImpulseStands s.params rest (a.start s.cfg.fs) (preDelayLength a.preDelayMs s.cfg.fs) 0 (impulseStart s a)
      ((State.beginRender { s with calls := rest } a.coefficients a.dampingValue).impulseNext (a.start s.cfg.fs)) where
  params := rfl
  pc := rfl
  lps := rfl
  left := rfl
  right := rfl
  machine := by
    have hrender : impulseRenderAt (a.start s.cfg.fs) (preDelayLength a.preDelayMs s.cfg.fs) 0 (impulseStart s a) = a.start s.cfg.fs := by
      simp [impulseRenderAt, impulseStart, ImpulseArgs.start]
    exact ⟨{ s with calls := rest }, rfl, by rw [hrender]; rfl⟩

/-- Where no sample is left, the machine has returned the channels. -/
theorem ImpulseStands.returned {p : Params} {rest : List HostCall} {r : ImpulseRender} {dpre : Nat} {v : ImpulseVars} {t : State}
    (ht : ImpulseStands p rest r dpre r.nout v t) :
    t = { v.engine with job := .idle, calls := rest, inL := t.inL, inR := t.inR, ret := some (.buffers v.left v.right) } := by
  obtain ⟨h, rfl, rfl⟩ := ht.machine
  rw [impulseNext_withHost, if_neg (by exact Nat.lt_irrefl _)]
  rfl

/-- Settles O55: the machine stands before the loop when it has accepted the call, and each sample takes it one turn on. -/
theorem impulseRenderReturnsTwoChannels : Obligations.ImpulseRenderReturnsTwoChannels := by
  intro s a rest hidle hcalls hfault
  have hstep := (step_call hidle hcalls).trans (renderImpulse_of_fault_none { s with calls := rest } hfault)
  obtain ⟨t, hrun, hend⟩ := after_turns (fun _ _ _ hk hs => hs.turn hk) (impulseStands_start s a rest)
  rw [← impulseProcedure_eq] at hend
  refine ⟨hend.left, hend.right, t, ?_, hend.returned⟩
  rw [Nat.add_comm]
  exact After.succ_iff.2 ⟨_, hstep, hrun⟩

/-! ### RenderSweepDeconvolved -/

/-- The machine's render-local state where the loop of R192 is to begin sample `k`. -/
def sweepRenderAt (b : SweepBand) (nout : Nat) (a level : Sample) (k : Nat) (v : SweepVars) : SweepRender :=
  { nout := nout
    ns := b.ns
    k := k
    a := a
    sweepLevel := level
    lp := v.lp
    u := signal b
    inv := inverse b
    yL := v.yL
    yR := v.yR }

/-- The variables with which the loop of R192 begins. -/
def sweepStart (s : State) (a : SweepArgs) : SweepVars :=
  { engine := s.renderStart a.coefficients a.damping, lp := fzero, yL := [], yR := [] }

theorem sweepProcedure_eq (s : State) (a : SweepArgs) : s.sweepProcedure a =
    (List.range ((s.sweepBand a).ns + (a.start s.params s.cfg.fs).nout - 1)).foldl
      (fun v k => v.turn (s.sweepBand a) (rolloffCoef a.rolloffHz s.cfg.fs) a.sweepLevel k) (sweepStart s a) := rfl

theorem start_eq_sweepRenderAt (s : State) (a : SweepArgs) : a.start s.params s.cfg.fs =
    sweepRenderAt (s.sweepBand a) (a.start s.params s.cfg.fs).nout (rolloffCoef a.rolloffHz s.cfg.fs) a.sweepLevel 0
      (sweepStart s a) := rfl

/-- The lowpass output of sample `k` in the loop of R192. -/
def sweepLp (b : SweepBand) (a : Sample) (k : Nat) (v : SweepVars) : Sample := lowpass a v.lp (if k < b.ns then b.u k else fzero)

/-- The excitation of sample `k` in the loop of R192. -/
def sweepInput (b : SweepBand) (a level : Sample) (k : Nat) (v : SweepVars) : Sample := fmul (sweepLp b a k v) level

theorem sweepTurn_engine (b : SweepBand) (a level : Sample) (k : Nat) (v : SweepVars) :
    (v.turn b a level k).engine = v.engine.tick (sweepInput b a level k v) (sweepInput b a level k v) := rfl

theorem excite_sweepRenderAt (b : SweepBand) (nout : Nat) (a level : Sample) (k : Nat) (v : SweepVars) :
    (sweepRenderAt b nout a level k v).excite =
      ({ sweepRenderAt b nout a level k v with lp := sweepLp b a k v }, sweepInput b a level k v) := by
  by_cases hk : k < b.ns
  · simp [SweepRender.excite, sweepRenderAt, sweepInput, sweepLp, hk, sampleAt_signal b hk]
  · simp [SweepRender.excite, sweepRenderAt, sweepInput, sweepLp, hk]

/-- What the machine does before and after the `Tick` of a sample is what a turn of the loop does around it. -/
theorem collect_excite_sweepRenderAt (b : SweepBand) (nout : Nat) (a level : Sample) (k : Nat) (v : SweepVars) :
    let w := v.turn b a level k
    (sweepRenderAt b nout a level k v).excite.1.collect w.engine.outL w.engine.outR = sweepRenderAt b nout a level (k + 1) w := by
  rw [excite_sweepRenderAt]
  rfl

theorem sweepNext_withHost (u h : State) (r : SweepRender) : (u.withHost h).sweepNext r =
    if r.k < r.total then u.withHost (holding (.sweep r.excite.1) r.excite.2 h)
    else u.withHost { h with job := .idle, ret := some (.buffers (r.channel r.yL) (r.channel r.yR)) } := by
  unfold State.sweepNext
  split <;> rfl

theorem jobNext_sweep (u h : State) (r : SweepRender) (e : Sample) :
    (u.withHost (holding (.sweep r) e h)).jobNext = (u.withHost (holding (.sweep r) e h)).sweepNext (r.collect u.outL u.outR) := rfl

/-- The machine stands where the loop of R192 is to begin sample `k` with the variables `v`. -/
structure SweepStands (rest : List HostCall) (b : SweepBand) (nout : Nat) (a level : Sample) (k : Nat) (v : SweepVars)
    (s : State) : Prop where
  pc : v.engine.pc = 0
  yL : v.yL.length = k
  yR : v.yR.length = k
  machine : ∃ h : State, h.calls = rest ∧ s = (v.engine.withHost h).sweepNext (sweepRenderAt b nout a level k v)

theorem SweepStands.turn {rest : List HostCall} {b : SweepBand} {nout : Nat} {a level : Sample} {k : Nat} {v : SweepVars}
    {s : State} (hs : SweepStands rest b nout a level k v s) (hk : k < b.ns + nout - 1) :
    ∃ t, After 128 s t ∧ SweepStands rest b nout a level (k + 1) (v.turn b a level k) t := by
  obtain ⟨h, hcalls, rfl⟩ := hs.machine
  have hcollect := collect_excite_sweepRenderAt b nout a level k v
  have hinput : (sweepRenderAt b nout a level k v).excite.2 = sweepInput b a level k v := by rw [excite_sweepRenderAt]
  rw [sweepNext_withHost, if_pos (by exact hk), hinput]
  refine ⟨_, after_sample hs.pc (by simp) _ h, tick_pc _ _ _, by simp [hs.yL], by simp [hs.yR],
    holding (.sweep (sweepRenderAt b nout a level k v).excite.1) (sweepInput b a level k v) h, hcalls, ?_⟩
  rw [← sweepTurn_engine, jobNext_sweep, hcollect]

/-- An accepted call leaves the machine where the loop is to begin its first sample. -/
theorem sweepStands_start (s : State) (a : SweepArgs) (rest : List HostCall) :
    SweepStands rest (s.sweepBand a) (a.start s.params s.cfg.fs).nout (rolloffCoef a.rolloffHz s.cfg.fs) a.sweepLevel 0
      (sweepStart s a)
      ((State.beginRender { s with calls := rest } a.coefficients a.damping).sweepNext (a.start s.params s.cfg.fs)) where
  pc := rfl
  yL := rfl
  yR := rfl
  machine := ⟨{ s with calls := rest }, rfl, by rw [← start_eq_sweepRenderAt]; rfl⟩

/-- Where no sample is left, the machine has returned the channels. -/
theorem SweepStands.returned {rest : List HostCall} {b : SweepBand} {nout : Nat} {a level : Sample} {v : SweepVars} {t : State}
    (ht : SweepStands rest b nout a level (b.ns + nout - 1) v t) :
    t = { v.engine with
      job := .idle, calls := rest, inL := t.inL, inR := t.inR,
      ret := some (.buffers (b.channel nout level v.yL) (b.channel nout level v.yR)) } := by
  obtain ⟨h, rfl, rfl⟩ := ht.machine
  rw [sweepNext_withHost, if_neg (by exact Nat.lt_irrefl _), ← map_deconvolve_inverse,
    ← map_deconvolve_inverse]
  rfl

/-- A sweep render that passes its checks has at least two samples of sweep (R193). -/
theorem two_le_ns {a : SweepArgs} {p : Params} {fs : Sample} (h : a.fault p fs = none) : 2 ≤ (a.ns fs).toNat := by
  have hcheck := (firstHit_eq_none_iff _).1 h (!isFinite a.sweepDurationSeconds || decide (a.ns fs < 2), .sweep (a.ns fs))
    (by simp)
  obtain ⟨_, hns⟩ := Bool.or_eq_false_iff.1 hcheck
  have := of_decide_eq_false hns
  omega

/-- Settles O56: the call faults by its checks, or the machine stands before the loop and each sample takes it one turn on. -/
theorem sweepRenderReturnsTwoChannels : Obligations.SweepRenderReturnsTwoChannels := by
  intro s a rest hidle hcalls
  have hstep : step s = State.renderSweep a { s with calls := rest } := step_call hidle hcalls
  unfold State.renderSweep at hstep
  cases hfault : a.fault s.params s.cfg.fs with
  | some f => rwa [hfault] at hstep
  | none =>
    rw [hfault] at hstep
    obtain ⟨t, hrun, hend⟩ := after_turns (fun _ _ _ hk hs => hs.turn hk) (sweepStands_start s a rest)
    rw [← sweepProcedure_eq] at hend
    refine ⟨two_le_ns hfault, hend.yL, hend.yR, SweepBand.length_channel .., SweepBand.length_channel .., t, ?_, hend.returned⟩
    rw [Nat.add_comm]
    exact After.succ_iff.2 ⟨_, hstep, hrun⟩

/-! ### Two engines side by side -/

/-- `s` after another call's return. -/
def withRet (ret : Option HostReturn) (s : State) : State := { s with ret := ret }

/-- A render runs. -/
def Rendering : Job → Prop
  | .idle | .tick => False
  | .impulse _ | .sweep _ => True

/-- Two engines on the same render: while it runs they differ in what an earlier call returned alone; when it is done they have
returned the same buffers, and may differ in the inputs held (a render of no sample writes none). -/
def Twins (s t : State) : Prop :=
  s.calls = [] ∧
    (Rendering s.job ∧ t = withRet t.ret s ∨
      s.job = .idle ∧ t = { s with inL := t.inL, inR := t.inR } ∧ ∃ l r, s.ret = some (.buffers l r))

/-- Engines that agree but for the host's side are twins once the same sample is begun. -/
theorem holding_twins {g h : State} (hg : g.calls = []) (hh : h.calls = []) (u : State) {job : Job} (hjob : Rendering job)
    (e : Sample) : Twins (u.withHost (holding job e g)) (u.withHost (holding job e h)) :=
  ⟨hg, .inl ⟨hjob, by simp [withRet, State.withHost, holding, hg, hh]⟩⟩

/-- They are twins once the same buffers are returned. -/
theorem returned_twins {g h : State} (hg : g.calls = []) (hh : h.calls = []) (u : State) (l r : List Sample) :
    Twins (u.withHost { g with job := .idle, ret := some (.buffers l r) })
      (u.withHost { h with job := .idle, ret := some (.buffers l r) }) :=
  ⟨hg, .inr ⟨rfl, by simp [State.withHost, hg, hh], l, r, rfl⟩⟩

theorem impulseNext_twins {g h : State} (hg : g.calls = []) (hh : h.calls = []) (u : State) (r : ImpulseRender) :
    Twins ((u.withHost g).impulseNext r) ((u.withHost h).impulseNext r) := by
  rw [impulseNext_withHost, impulseNext_withHost]
  split
  · exact holding_twins (job := .impulse _) hg hh u trivial _
  · exact returned_twins hg hh u _ _

theorem sweepNext_twins {g h : State} (hg : g.calls = []) (hh : h.calls = []) (u : State) (r : SweepRender) :
    Twins ((u.withHost g).sweepNext r) ((u.withHost h).sweepNext r) := by
  rw [sweepNext_withHost, sweepNext_withHost]
  split
  · exact holding_twins (job := .sweep _) hg hh u trivial _
  · exact returned_twins hg hh u _ _

theorem jobNext_of_impulse {s : State} {r : ImpulseRender} (h : s.job = .impulse r) :
    s.jobNext = s.impulseNext (r.collect s.params.dcR s.outL s.outR) := by
  rw [State.jobNext, h]

theorem jobNext_of_sweep {s : State} {r : SweepRender} (h : s.job = .sweep r) :
    s.jobNext = s.sweepNext (r.collect s.outL s.outR) := by
  rw [State.jobNext, h]

theorem jobNext_twins {s : State} (hrender : Rendering s.job) (hcalls : s.calls = []) (ret : Option HostReturn) :
    Twins s.jobNext (withRet ret s).jobNext := by
  cases hjob : s.job with
  | idle => rw [hjob] at hrender; cases hrender
  | tick => rw [hjob] at hrender; cases hrender
  | impulse r =>
    rw [jobNext_of_impulse hjob, jobNext_of_impulse (s := withRet ret s) hjob]
    exact impulseNext_twins (g := s) (h := withRet ret s) hcalls hcalls s _
  | sweep r =>
    rw [jobNext_of_sweep hjob, jobNext_of_sweep (s := withRet ret s) hjob]
    exact sweepNext_twins (g := s) (h := withRet ret s) hcalls hcalls s _

theorem advance_twins {s : State} (hrender : Rendering s.job) (hcalls : s.calls = []) (ret : Option HostReturn) :
    Twins s.advance (withRet ret s).advance := by
  by_cases hlast : s.pc = 127
  · rw [State.advance_of_eq hlast, State.advance_of_eq (s := withRet ret s) hlast]
    exact jobNext_twins (s := s.endSample) hrender hcalls ret
  · rw [State.advance_of_ne hlast, State.advance_of_ne (s := withRet ret s) hlast]
    exact ⟨hcalls, .inl ⟨hrender, rfl⟩⟩

theorem inject_withRet (ret : Option HostReturn) (s : State) : (withRet ret s).inject = withRet ret s.inject := by
  unfold State.inject
  change (if s.pc = 0 then _ else if s.pc = 64 then _ else _) = _
  split
  · rfl
  · split <;> rfl

/-- A turn of the loop keeps the host's side of the state. -/
theorem stepAt_eq_withHost (s : State) (i : Fin 128) : s.stepAt i = (s.stepAt i).withHost s := State.stepAt_withHost s s i

theorem stepAt_job (s : State) (i : Fin 128) : (s.stepAt i).job = s.job := by
  rw [stepAt_eq_withHost]
  rfl

theorem stepAt_calls (s : State) (i : Fin 128) : (s.stepAt i).calls = s.calls := by
  rw [stepAt_eq_withHost]
  rfl

theorem stepAt_withRet (ret : Option HostReturn) (s : State) (i : Fin 128) :
    (withRet ret s).stepAt i = withRet ret (s.stepAt i) := by
  rw [show withRet ret s = s.withHost (withRet ret s) from rfl, State.stepAt_withHost, stepAt_eq_withHost s i]
  rfl

theorem step_of_idle_of_no_calls {s : State} (hidle : s.job = .idle) (hcalls : s.calls = []) : step s = .next s := by
  rw [step_idle hidle, State.idleStep, hcalls]

/-- A step of twins leads to twins. -/
theorem Twins.step {s t u : State} (h : Twins s t) (hstep : Machine.step s = .next u) : ∃ v, Machine.step t = .next v ∧ Twins u v := by
  obtain ⟨hcalls, ⟨hrender, ht⟩ | ⟨hidle, ht, hret⟩⟩ := h
  · have hrun : s.job ≠ .idle := fun hc => by rw [hc] at hrender; exact hrender
    rw [step_running_stepAt hrun] at hstep
    cases hstep
    rw [ht, step_running_stepAt (s := withRet t.ret s) hrun, inject_withRet, stepAt_withRet]
    refine ⟨_, rfl, advance_twins ?_ ?_ t.ret⟩
    · rwa [stepAt_job, State.inject_job]
    · rw [stepAt_calls, State.inject_calls, hcalls]
  · rw [step_of_idle_of_no_calls hidle hcalls] at hstep
    cases hstep
    have htidle : t.job = .idle := by rw [ht, hidle]
    have htcalls : t.calls = [] := by rw [ht, hcalls]
    exact ⟨t, step_of_idle_of_no_calls htidle htcalls, hcalls, .inr ⟨hidle, ht, hret⟩⟩

theorem Twins.after {s t u : State} {k : Nat} (h : Twins s t) (hrun : After k s u) : ∃ v, After k t v ∧ Twins u v := by
  induction k generalizing s t with
  | zero =>
    cases After.zero_iff.1 hrun
    exact ⟨t, After.zero t, h⟩
  | succ k ih =>
    obtain ⟨s', hs', hrest⟩ := After.succ_iff.1 hrun
    obtain ⟨t', ht', htwins⟩ := h.step hs'
    obtain ⟨v, hv, hend⟩ := ih htwins hrest
    exact ⟨v, After.succ_iff.2 ⟨t', ht', hv⟩, hend⟩

/-- A render begins with a Reset, after which engines of one configuration differ in the host's side alone (R183). -/
theorem beginRender_eq_withHost {s t : State} (h : SameEngine s t) (coefs : List Sample) (damping : Sample) :
    t.beginRender coefs damping = (s.renderStart coefs damping).withHost t := by
  obtain ⟨hparams, hcfg⟩ := h
  rw [State.beginRender, State.renderStart, State.resetEngine, State.resetEngine, hparams, hcfg]
  rfl

/-- Engines of one configuration that accept the same render become twins. -/
theorem call_twins {s t u : State} {c : HostCall} (h : SameEngine s t) (hs : s.calls = []) (ht : t.calls = [])
    (hrender : (∃ a, c = .renderImpulse a) ∨ ∃ a, c = .renderSweep a) (hcall : State.call c s = .next u) :
    ∃ v, State.call c t = .next v ∧ Twins u v := by
  have ⟨hparams, hcfg⟩ := h
  rcases hrender with ⟨a, rfl⟩ | ⟨a, rfl⟩
  · simp only [State.call, State.renderImpulse] at hcall ⊢
    cases hfault : a.fault with
    | some f => rw [hfault] at hcall; cases hcall
    | none =>
      rw [hfault] at hcall
      cases hcall
      rw [← hcfg, beginRender_eq_withHost (s := s) ⟨rfl, rfl⟩, beginRender_eq_withHost h]
      exact ⟨_, rfl, impulseNext_twins hs ht _ _⟩
  · simp only [State.call, State.renderSweep] at hcall ⊢
    rw [← hparams, ← hcfg]
    cases hfault : a.fault s.params s.cfg.fs with
    | some f => rw [hfault] at hcall; cases hcall
    | none =>
      rw [hfault] at hcall
      cases hcall
      rw [beginRender_eq_withHost (s := s) ⟨rfl, rfl⟩, beginRender_eq_withHost h]
      exact ⟨_, rfl, sweepNext_twins hs ht _ _⟩

/-- Settles O57: the acceptance makes the engines twins, and their steps keep them so. -/
theorem rendersAreRepeatable : Obligations.RendersAreRepeatable := by
  intro s t s' c k hsame hs ht hscalls htcalls hrender hrun
  obtain ⟨u, hu, hrest⟩ := After.succ_iff.1 hrun
  rw [step_call hs hscalls] at hu
  obtain ⟨v, hv, htwins⟩ := call_twins (s := { s with calls := [] }) (t := { t with calls := [] }) hsame rfl rfl hrender hu
  obtain ⟨t', ht', -, hend⟩ := htwins.after hrest
  refine ⟨t', After.succ_iff.2 ⟨v, (step_call ht htcalls).trans hv, ht'⟩, ?_⟩
  rcases hend with ⟨hrendering, heq⟩ | ⟨hidle, heq, l, r, hret⟩
  · exact ⟨fun _ => heq, fun hc => by rw [hc] at hrendering; exact hrendering.elim⟩
  · exact ⟨fun hc => absurd hidle hc, fun _ => ⟨heq, l, r, hret, by rw [heq]; exact hret⟩⟩

end Sys2Proof.Proofs
end

section
/-!
PROOFS. The statements about exceptions (spec/60_exceptions.md). A render answers the fault of the first of its checks that holds, or
begins: so first what a list of checks answers, then the checks both renders share, then each render; last, what stops a step.
-/

namespace Sys2Proof.Proofs

open Sys2Proof Sys2Proof.Machine

/-! ### A list of checks -/

/-- The answer of an operation that begins in `t` when its checks name no fault. -/
def faultOr (t : State) : Option Fault → Outcome
  | some f => .fault f
  | none => .next t

theorem renderImpulse_eq_faultOr (a : ImpulseArgs) (s : State) : s.renderImpulse a =
    faultOr ((s.beginRender a.coefficients a.dampingValue).impulseNext (a.start s.cfg.fs)) a.fault := by
  unfold State.renderImpulse
  cases a.fault <;> rfl

theorem renderSweep_eq_faultOr (a : SweepArgs) (s : State) : s.renderSweep a =
    faultOr ((s.beginRender a.coefficients a.damping).sweepNext (a.start s.params s.cfg.fs)) (a.fault s.params s.cfg.fs) := by
  unfold State.renderSweep
  cases a.fault s.params s.cfg.fs <;> rfl

theorem faultOr_ne_refused (t : State) (o : Option Fault) (r : Refusal) : faultOr t o ≠ .refused r := by
  cases o <;> simp [faultOr]

theorem faultOr_firstHit_nil (t : State) : faultOr t (firstHit []) = .next t := rfl

/-- The first check answers where it holds, and else the rest does. -/
theorem faultOr_firstHit_cons (t : State) (b : Bool) (f : Fault) (checks : List (Bool × Fault)) :
    faultOr t (firstHit ((b, f) :: checks)) = if b = true then .fault f else faultOr t (firstHit checks) := by
  cases b <;> rfl

theorem notNonnegative_iff (v : Sample) : notNonnegative v = true ↔ isFinite v = false ∨ flt v fzero = true := by
  rw [notNonnegative, Bool.or_eq_true, Bool.not_eq_true']

theorem notPositive_iff (v : Sample) : notPositive v = true ↔ isFinite v = false ∨ fle v fzero = true := by
  rw [notPositive, Bool.or_eq_true, Bool.not_eq_true']

theorem notNonzero_iff (v : Sample) : notNonzero v = true ↔ isFinite v = false ∨ feq v fzero = true := by
  rw [notNonzero, Bool.or_eq_true, Bool.not_eq_true']

/-! ### The checks both renders begin with -/

section
variable {coefs : List Sample}

theorem sampleAt_of_lt {k : Nat} (h : k < coefs.length) : sampleAt coefs k = coefs[k] := List.getD_eq_getElem _ _ h

/-- The index recorded is that of the first coefficient that is not finite (log 18). -/
theorem findIdx_not_isFinite {k : Nat} (hk : k < coefs.length) (hbad : isFinite (sampleAt coefs k) = false)
    (hgood : ∀ j, j < k → isFinite (sampleAt coefs j) = true) : coefs.findIdx (fun c => !isFinite c) = k := by
  rw [List.findIdx_eq hk, ← sampleAt_of_lt hk, hbad]
  refine ⟨rfl, fun j hj => ?_⟩
  rw [← sampleAt_of_lt (hj.trans hk), hgood j hj, Bool.not_true]

theorem any_not_isFinite_iff : coefs.any (fun c => !isFinite c) = true ↔
    ∃ k, k < coefs.length ∧ isFinite (sampleAt coefs k) = false := by
  simp only [List.any_eq_true, List.mem_iff_getElem, Bool.not_eq_true']
  constructor
  · rintro ⟨_, ⟨k, hk, rfl⟩, hbad⟩
    exact ⟨k, hk, by rwa [sampleAt_of_lt hk]⟩
  · rintro ⟨k, hk, hbad⟩
    exact ⟨_, ⟨k, hk, rfl⟩, by rwa [sampleAt_of_lt hk] at hbad⟩

/-- What a render answers by the checks it shares with the other one (R211), where `checks` stand after them: the length of the
coefficients, the first of them that is not finite, the duration, the rolloff. -/
theorem faultOr_renderChecks (t : State) (duration rolloff : Sample) (checks : List (Bool × Fault)) :
    let answer := faultOr t (firstHit (renderChecks coefs duration rolloff ++ checks))
    (coefs.length ≠ 16 → answer = .fault (.coefLength coefs.length)) ∧
    (coefs.length = 16 →
      (∀ k, k < 16 → isFinite (sampleAt coefs k) = false → (∀ j, j < k → isFinite (sampleAt coefs j) = true) →
        answer = .fault (.coefValue k)) ∧
      ((∀ k, k < 16 → isFinite (sampleAt coefs k) = true) →
        answer =
          if isFinite duration = false ∨ flt duration fzero = true then .fault (.duration duration)
          else if isFinite rolloff = false ∨ fle rolloff fzero = true then .fault (.rolloff rolloff)
          else faultOr t (firstHit checks))) := by
  simp only [renderChecks, List.cons_append, List.nil_append, faultOr_firstHit_cons, bne_iff_ne, any_not_isFinite_iff,
    notNonnegative_iff, notPositive_iff]
  refine ⟨fun hlength => if_pos hlength, fun hlength => ?_⟩
  rw [if_neg (not_not_intro hlength)]
  refine ⟨fun k hk hbad hgood => ?_, fun hgood => ?_⟩
  · have hk : k < coefs.length := hlength ▸ hk
    rw [if_pos ⟨k, hk, hbad⟩, findIdx_not_isFinite hk hbad hgood]
  · refine if_neg fun ⟨k, hk, hbad⟩ => ?_
    rw [hgood k (hlength ▸ hk)] at hbad
    cases hbad

end

/-! ### The two renders -/

/-- Settles O52: after the checks shared with the sweep render stand those of the pre-delay, the gain and the damping. -/
theorem impulsePreconditionsInOrder : Obligations.ImpulsePreconditionsInOrder := by
  intro s a rest hidle hcalls
  rw [step_call hidle hcalls, State.call, renderImpulse_eq_faultOr, ImpulseArgs.fault]
  obtain ⟨hlength, hvalues⟩ := faultOr_renderChecks _ a.durationSeconds a.rolloffHz _
  refine ⟨hlength, fun h16 => ⟨(hvalues h16).1, fun hgood => ?_⟩⟩
  rw [(hvalues h16).2 hgood]
  simp only [faultOr_firstHit_cons, faultOr_firstHit_nil, notNonnegative_iff, notNonzero_iff, Bool.not_eq_true']
  rfl

/-- The `S` that the checks compute from the sweep's Samples is that of R195. -/
theorem inverseSum_eq_invSum (s : State) (a : SweepArgs) : a.inverseSum s.params s.cfg.fs = (s.sweepBand a).invSum :=
  inverseSum_signal (s.sweepBand a)

/-- Settles O60: after the checks shared with the impulse render stand those of the sweep, its level, the damping and `S`. -/
theorem sweepPreconditionsInOrder : Obligations.SweepPreconditionsInOrder := by
  intro s a rest hidle hcalls ns
  rw [step_call hidle hcalls, State.call, renderSweep_eq_faultOr, SweepArgs.fault]
  obtain ⟨hlength, hvalues⟩ := faultOr_renderChecks _ a.durationSeconds a.rolloffHz _
  refine ⟨hlength, fun h16 => ⟨(hvalues h16).1, fun hgood => ?_⟩⟩
  rw [(hvalues h16).2 hgood]
  simp only [faultOr_firstHit_cons, faultOr_firstHit_nil, notNonzero_iff, Bool.or_eq_true, Bool.not_eq_true', decide_eq_true_eq,
    inverseSum_eq_invSum]
  rfl

/-! ### What stops a step -/

/-- Settles O48: with no call to accept, the idle step answers the state it is given. -/
theorem idleEngineDoesNothing : Obligations.IdleEngineDoesNothing := fun _ => step_of_idle_of_no_calls

/-- A step that answers no state is the acceptance of a call: a running engine's step answers one, and so does an idle engine's without
a call. -/
theorem call_of_step_ne_next {s : State} (h : ∀ t, step s ≠ .next t) :
    s.job = .idle ∧ ∃ c rest, s.calls = c :: rest ∧ step s = State.call c { s with calls := rest } := by
  have hidle : s.job = .idle := by
    by_contra hrun
    obtain ⟨t, _, hnext⟩ := programStep_next s
    exact h t.capture.advance ((step_running hrun).trans hnext)
  refine ⟨hidle, ?_⟩
  cases hcalls : s.calls with
  | nil => exact absurd (step_of_idle_of_no_calls hidle hcalls) (h s)
  | cons c rest => exact ⟨c, rest, rfl, step_call hidle hcalls⟩

/-- A fault of Construct is one of its arguments'. -/
theorem construct_fault {i : ProgramIndex} {fs : Sample} {s : State} {f : Fault} (h : s.construct i fs = .fault f) :
    f = .programIndex i ∨ f = .sampleRate fs := by
  cases hparams : paramsRefusal s.params with
  | some r => rw [construct_of_paramsRefusal i fs hparams] at h; cases h
  | none =>
    rcases constructCheck_cases i fs with ⟨-, hcheck⟩ | ⟨p, -, ⟨-, hcheck⟩ | ⟨-, hcheck⟩⟩
    · rw [construct_of_constructCheck_error hparams hcheck] at h
      cases h
      exact .inl rfl
    · rw [construct_of_constructCheck_error hparams hcheck] at h
      cases h
      exact .inr rfl
    · cases hconfig : configRefusal s.params (engineConfig s.params p fs) with
      | some r => rw [construct_of_configRefusal hparams hcheck hconfig] at h; cases h
      | none => rw [construct_next_iff.2 ⟨hparams, p, hcheck, hconfig, rfl⟩] at h; cases h

/-- Of the calls, Reset and Tick never fault, and Construct faults on its arguments alone. -/
theorem call_fault {c : HostCall} {s : State} {f : Fault} (h : State.call c s = .fault f) :
    (∃ i fs, c = .construct i fs ∧ (f = .programIndex i ∨ f = .sampleRate fs)) ∨ (∃ a, c = .renderImpulse a) ∨
      ∃ a, c = .renderSweep a := by
  cases c with
  | construct i fs => exact .inl ⟨i, fs, rfl, construct_fault h⟩
  | reset => cases h
  | tick inL inR => cases h
  | renderImpulse a => exact .inr (.inl ⟨a, rfl⟩)
  | renderSweep a => exact .inr (.inr ⟨a, rfl⟩)

/-- Of the calls, Construct alone is refused. -/
theorem call_refused {c : HostCall} {s : State} {r : Refusal} (h : State.call c s = .refused r) : ∃ i fs, c = .construct i fs := by
  cases c with
  | construct i fs => exact ⟨i, fs, rfl⟩
  | reset => cases h
  | tick inL inR => cases h
  | renderImpulse a => exact absurd ((renderImpulse_eq_faultOr a s).symm.trans h) (faultOr_ne_refused _ _ r)
  | renderSweep a => exact absurd ((renderSweep_eq_faultOr a s).symm.trans h) (faultOr_ne_refused _ _ r)

/-- Settles O53: what stops is the acceptance of a call, and each call stops in its own way. -/
theorem onlyHostCallsStop : Obligations.OnlyHostCallsStop := by
  refine fun s => ⟨fun f hf => ?_, fun r hr => ?_⟩
  · obtain ⟨hidle, c, rest, hcalls, hcall⟩ := call_of_step_ne_next (s := s) (by simp [hf])
    exact ⟨hidle, c, rest, hcalls, call_fault (hcall.symm.trans hf)⟩
  · obtain ⟨hidle, c, rest, hcalls, hcall⟩ := call_of_step_ne_next (s := s) (by simp [hr])
    obtain ⟨i, fs, rfl⟩ := call_refused (hcall.symm.trans hr)
    exact ⟨hidle, i, fs, rest, hcalls⟩

end Sys2Proof.Proofs
end
